-- ==== Sys2Proof/Word.lean ====
section
/-! DEFINITION. The word types of the block: bytes, addresses, page and buffer indexes, command words (R4, R7, R90). All values are unsigned (R7). -/

namespace Sys2Proof

/-- A byte (R7): the data width `DATA_W` is 8 (R4). -/
abbrev Byte := BitVec 8

/-- An address (R4): `ADDR_W` is 16. -/
abbrev Addr := BitVec 16

/-- A page index (R6, R91): `PAGE_IDX_W` is 9. -/
abbrev PageIdx := BitVec 9

/-- An index into the page buffer (R52): 7 bits. -/
abbrev BufIdx := BitVec 7

/-- A command word (R90): 32 bits, one fixed length. -/
abbrev CmdWord := BitVec 32

end Sys2Proof
end

