-- ==== Sys2Proof/Syntax.lean ====
section
/-! DEFINITION. The instructions: one constructor per row of spec/opcode_table.json (R92), the opcode names the sequencing position uses (R30), and the pseudo-instruction PBFILL (R100). -/

namespace Sys2Proof

/-- The operations a host command word selects (R92). The operands are the fields R91 reads; a field R91 ignores is no
operand (R94). An index of 7 bits and a page of 9 bits are all that a legal word can hold (R91, R93). -/
inductive Instr where
  /-- take the bus (R120) -/
  | capture
  /-- give the bus back (R121) -/
  | release
  /-- read one byte for the host (R144) -/
  | rdbyte (addr : Addr)
  /-- read 128 consecutive bytes (R164) -/
  | rdpage (base : Addr)
  /-- program one page from the page buffer (R162) -/
  | wrpage (base : Addr)
  /-- erase the whole chip (R163) -/
  | erase
  /-- write one byte of the page buffer (R165) -/
  | pbload (idx : BufIdx) (data : Byte)
  /-- zero the page buffer (R166) -/
  | pbclr
  /-- the page-write command (R191) -/
  | cmdw (page : PageIdx)
  /-- the page-dump command (R192) -/
  | cmdd (page : PageIdx)
  /-- the chip-erase command (R193) -/
  | cmde
  deriving DecidableEq, Repr

/-- The opcodes by name (R92): what `SEQ.op` holds while an operation is in progress (R30). -/
inductive Op where
  | capture | release | rdbyte | rdpage | wrpage | erase | pbload | pbclr | cmdw | cmdd | cmde
  deriving DecidableEq, Repr

/-- The operation an instruction selects. -/
def Instr.op : Instr → Op
  | .capture => .capture
  | .release => .release
  | .rdbyte _ => .rdbyte
  | .rdpage _ => .rdpage
  | .wrpage _ => .wrpage
  | .erase => .erase
  | .pbload _ _ => .pbload
  | .pbclr => .pbclr
  | .cmdw _ => .cmdw
  | .cmdd _ => .cmdd
  | .cmde => .cmde

/-- The mnemonics of R92 and R99. -/
def Op.mnemonic : Op → String
  | .capture => "CAPTURE"
  | .release => "RELEASE"
  | .rdbyte => "RDBYTE"
  | .rdpage => "RDPAGE"
  | .wrpage => "WRPAGE"
  | .erase => "ERASE"
  | .pbload => "PBLOAD"
  | .pbclr => "PBCLR"
  | .cmdw => "CMDW"
  | .cmdd => "CMDD"
  | .cmde => "CMDE"

/-- One line of the assembly form of R99: the mnemonic, then its operands in decimal, separated by commas. -/
def Instr.asm : Instr → String
  | .rdbyte a => "RDBYTE " ++ toString a.toNat
  | .rdpage b => "RDPAGE " ++ toString b.toNat
  | .wrpage b => "WRPAGE " ++ toString b.toNat
  | .pbload i d => "PBLOAD " ++ toString i.toNat ++ ", " ++ toString d.toNat
  | .cmdw p => "CMDW " ++ toString p.toNat
  | .cmdd p => "CMDD " ++ toString p.toNat
  | .capture => "CAPTURE"
  | .release => "RELEASE"
  | .erase => "ERASE"
  | .pbclr => "PBCLR"
  | .cmde => "CMDE"

/-- The loads of `PBFILL` from index `i` on. -/
def pbfillFrom : Nat → List Byte → List Instr
  | _, [] => []
  | i, b :: bs => .pbload (BitVec.ofNat 7 i) b :: pbfillFrom (i + 1) bs

/-- `PBFILL b0, ..., bk` with `0 <= k <= 127` (R100): PBCLR, then PBLOAD 0, b0, and so on in order. A list the
pseudo-instruction does not admit (empty, or longer than 128) expands to nothing. -/
def pbfill (bs : List Byte) : Option (List Instr) :=
  if 1 ≤ bs.length ∧ bs.length ≤ 128 then some (.pbclr :: pbfillFrom 0 bs) else none

end Sys2Proof
end

