-- ==== Sys2Proof/WellFormed.lean ====
section
/-! DEFINITION. Which command words are legal (R93), stated over the word by number, apart from the decoder. Every term of Instr is well formed by its operand widths; what can be ill formed is a word, or a PBFILL line. -/

namespace Sys2Proof

/-- `OP = w[31:24]` as a number (R90). -/
def CmdWord.opNat (w : CmdWord) : Nat := w.toNat / 2 ^ 24

/-- `A = w[23:8]` as a number (R90). -/
def CmdWord.aNat (w : CmdWord) : Nat := w.toNat / 2 ^ 8 % 2 ^ 16

/-- The opcode is assigned: not 0x00 and not 0x0C..0xFF (R93). -/
def CmdWord.opcodeAssigned (w : CmdWord) : Bool :=
  decide (1 ≤ CmdWord.opNat w ∧ CmdWord.opNat w ≤ 11)

/-- The reserved operand bits are zero: `A[15:7]` of opcode 0x07, `A[15:9]` of opcodes 0x09 and 0x0A (R93). -/
def CmdWord.reservedZero (w : CmdWord) : Bool :=
  if CmdWord.opNat w = 7 then decide (CmdWord.aNat w < 2 ^ 7)
  else if CmdWord.opNat w = 9 ∨ CmdWord.opNat w = 10 then decide (CmdWord.aNat w < 2 ^ 9)
  else true

/-- A word is legal when its opcode is assigned and its reserved bits are zero (R93). -/
def CmdWord.legal (w : CmdWord) : Bool := CmdWord.opcodeAssigned w && CmdWord.reservedZero w

/-- Every instruction is well formed: a buffer index is below 128 and a page below 512 by its width (R91). Kept as the
decidable check of the operand ranges of R91. -/
def Instr.wellFormed : Instr → Bool
  | .pbload idx _ => decide (idx.toNat < 128)
  | .cmdw page => decide (page.toNat < 512)
  | .cmdd page => decide (page.toNat < 512)
  | .capture => true
  | .release => true
  | .rdbyte addr => decide (addr.toNat < 65536)
  | .rdpage base => decide (base.toNat < 65536)
  | .wrpage base => decide (base.toNat < 65536)
  | .erase => true
  | .pbclr => true
  | .cmde => true

end Sys2Proof
end

