-- ==== Sys2Proof/Decode.lean ====
section
/-! DEFINITION. The decoder of command words, total on every word, and the encoder (R90 to R94). -/

namespace Sys2Proof

/-- Why a word is illegal (R93, R211). -/
inductive DecodeError where
  /-- `OP` is 0x00 or 0x0C..0xFF -/
  | illegalOpcode
  /-- reserved operand bits are not zero -/
  | reservedBits
  deriving DecidableEq, Repr

/-- The field `OP`, bits 31 to 24 (R90). -/
def fieldOp (w : CmdWord) : BitVec 8 := w.extractLsb' 24 8

/-- The field `A`, bits 23 to 8 (R90). -/
def fieldA (w : CmdWord) : BitVec 16 := w.extractLsb' 8 16

/-- The field `B`, bits 7 to 0 (R90). -/
def fieldB (w : CmdWord) : BitVec 8 := w.extractLsb' 0 8

/-- The page operand: `p = A[8:0]`, with `A[15:9]` zero (R91, R93). -/
def decodePage (a : BitVec 16) (mk : PageIdx → Instr) : Except DecodeError Instr :=
  if a.extractLsb' 9 7 = 0#7 then .ok (mk (a.extractLsb' 0 9)) else .error .reservedBits

/-- The buffer operands: `idx = A[6:0]`, with `A[15:7]` zero, and `data = B` (R91, R93). -/
def decodeBuf (a : BitVec 16) (b : BitVec 8) : Except DecodeError Instr :=
  if a.extractLsb' 7 9 = 0#9 then .ok (.pbload (a.extractLsb' 0 7) b) else .error .reservedBits

/-- The operation an opcode selects (R92): none for 0x00 and 0x0C..0xFF (R93). -/
def opOfCode (c : BitVec 8) : Option Op :=
  if c = 0x01#8 then some .capture
  else if c = 0x02#8 then some .release
  else if c = 0x03#8 then some .rdbyte
  else if c = 0x04#8 then some .rdpage
  else if c = 0x05#8 then some .wrpage
  else if c = 0x06#8 then some .erase
  else if c = 0x07#8 then some .pbload
  else if c = 0x08#8 then some .pbclr
  else if c = 0x09#8 then some .cmdw
  else if c = 0x0A#8 then some .cmdd
  else if c = 0x0B#8 then some .cmde
  else none

/-- The decoder (R91 to R94): the opcode is checked first, then the reserved bits (R214). -/
def decode (w : CmdWord) : Except DecodeError Instr :=
  match opOfCode (fieldOp w) with
  | none => .error .illegalOpcode
  | some .capture => .ok .capture
  | some .release => .ok .release
  | some .rdbyte => .ok (.rdbyte (fieldA w))
  | some .rdpage => .ok (.rdpage (fieldA w))
  | some .wrpage => .ok (.wrpage (fieldA w))
  | some .erase => .ok .erase
  | some .pbload => decodeBuf (fieldA w) (fieldB w)
  | some .pbclr => .ok .pbclr
  | some .cmdw => decodePage (fieldA w) .cmdw
  | some .cmdd => decodePage (fieldA w) .cmdd
  | some .cmde => .ok .cmde

/-- The opcode values of R92. -/
def Op.code : Op → BitVec 8
  | .capture => 0x01#8
  | .release => 0x02#8
  | .rdbyte => 0x03#8
  | .rdpage => 0x04#8
  | .wrpage => 0x05#8
  | .erase => 0x06#8
  | .pbload => 0x07#8
  | .pbclr => 0x08#8
  | .cmdw => 0x09#8
  | .cmdd => 0x0A#8
  | .cmde => 0x0B#8

/-- The field `A` of the canonical encoding: zero where it is ignored (R91, R94). -/
def Instr.encA : Instr → BitVec 16
  | .rdbyte addr => addr
  | .rdpage base => base
  | .wrpage base => base
  | .pbload idx _ => idx.setWidth 16
  | .cmdw page => page.setWidth 16
  | .cmdd page => page.setWidth 16
  | .capture => 0#16
  | .release => 0#16
  | .erase => 0#16
  | .pbclr => 0#16
  | .cmde => 0#16

/-- The field `B` of the canonical encoding: zero where it is ignored (R91, R94). -/
def Instr.encB : Instr → BitVec 8
  | .pbload _ data => data
  | .capture => 0#8
  | .release => 0#8
  | .rdbyte _ => 0#8
  | .rdpage _ => 0#8
  | .wrpage _ => 0#8
  | .erase => 0#8
  | .pbclr => 0#8
  | .cmdw _ => 0#8
  | .cmdd _ => 0#8
  | .cmde => 0#8

/-- The canonical word of an instruction: `OP << 24 | A << 8 | B` (R90, R94). -/
def encode (i : Instr) : CmdWord := (i.op.code ++ i.encA ++ i.encB).cast rfl

/-- The bits of a word an operation looks at: the `mask` column of the opcode table, with the operand bits of R91 (R94). -/
def Op.usedBits : Op → CmdWord
  | .capture => 0xFF000000#32
  | .release => 0xFF000000#32
  | .rdbyte => 0xFFFFFF00#32
  | .rdpage => 0xFFFFFF00#32
  | .wrpage => 0xFFFFFF00#32
  | .erase => 0xFF000000#32
  | .pbload => 0xFFFFFFFF#32
  | .pbclr => 0xFF000000#32
  | .cmdw => 0xFFFFFF00#32
  | .cmdd => 0xFFFFFF00#32
  | .cmde => 0xFF000000#32

/-- The instruction the decoder reads from a word given as a number, for the host's check of the opcode table. -/
def decodeTableWord (nbits w : Nat) : Option Instr :=
  match decode (BitVec.ofNat 32 (w % 2 ^ nbits)) with
  | .ok i => some i
  | .error _ => none

end Sys2Proof
end

