-- ==== Sys2Proof/Config.lean ====
section
/-! DEFINITION. What an implementation fixes (the parameters of R6 and of the chip, R70) and the free values: what the spec calls "any value" or leaves within a bound. -/

namespace Sys2Proof

/-- A line that has two levels (R8): 1 is high, 0 is low. Stands here because one free value is a level. -/
inductive Level where
  /-- level 0; on an active-low line: asserted -/
  | low
  /-- level 1; on an active-low line: deasserted -/
  | high
  deriving DecidableEq, Repr, Inhabited

/-- The parameters the source leaves to the implementation (R6) and the chip's own times and erased value
(R6, R67, R70), in nanoseconds. A model "takes each as an argument": State carries one of these and no step changes it.
The constraints on them are `Params.Legal`. -/
structure Params where
  /-- `T_WP`, the dwell the block really uses in a write -/
  wp : Nat
  /-- `T_WR_REC`, the recovery hold it really uses -/
  wrRec : Nat
  /-- `T_RD_SETTLE`, the read settle it really uses -/
  rdSettle : Nat
  /-- `T_PROG_WAIT`, the program wait it really uses -/
  progWait : Nat
  /-- `T_ERASE_WAIT`, the erase wait it really uses -/
  eraseWait : Nat
  /-- `T_STEP_MAX`, the bound on a micro-step that is not a delay and on the overshoot of a delay -/
  stepMax : Nat
  /-- `ERASED_BYTE`, the value of every cell after a chip erase -/
  erasedByte : Byte
  /-- `T_ACC_CHIP`, the chip's access time -/
  accChip : Nat
  /-- `T_WP_CHIP`, the chip's minimum write pulse -/
  wpChip : Nat
  /-- `T_WC_CHIP`, the chip's program cycle time, counted from its last load -/
  wcChip : Nat
  /-- `T_EC_CHIP`, the chip's erase cycle time -/
  ecChip : Nat
  deriving DecidableEq, Repr

/-! The free values. Each is applied to the draw counter of State, so each event has values of its own;
none has a body, so nothing can be proved of them (log entries 5 to 9, 24, 25). -/

/-- How far the duration of the micro-step with this draw lies above its lower bound, before it is held within
`T_STEP_MAX` (R11, U17). -/
opaque Config.freeSlack : Nat → Nat

/-- The byte on the data lines where the spec says any value (R61, U8, U9). -/
opaque Config.freeByte : Nat → Byte

/-- The address on lines nothing drives (R27). -/
opaque Config.freeAddr : Nat → Addr

/-- The level of a chip enable nothing drives, and CE.val after it has become an input (R27, R121, R124, U7). -/
opaque Config.freeLevel : Nat → Level

/-- How long after its start a program or erase cycle ends, before it is held within its bound (R66, R67). -/
opaque Config.freeCycle : Nat → Nat

/-- What a cell becomes that lies in a programmed page and was given no load: by draw and offset (R66, U15). -/
opaque Config.freeCell : Nat → Nat → Byte

/-- What a cell of page `pg` holds while the chip programs the page: by draw and offset (R66). -/
opaque Config.freePage : Nat → Nat → Byte

/-- What the chip holds while it erases itself, or after a write without meaning: any cells at all, by draw (R67, R69). -/
opaque Config.freeFlash : Nat → List (Nat × Byte)

/-- What a chip slower than assumed holds once a program or erase cycle of its has ended: any cells at all, by draw (R70, U6). -/
opaque Config.leftFlash : Nat → List (Nat × Byte)

end Sys2Proof
end

