-- ==== Sys2Proof/Machine/Params.lean ====
section
/-! DEFINITION. The constants the source fixes (R4, R5), the constraints on the parameters (R6, R66, R167), the premise about the chip's times (R70), and the parameter instance at reset. -/

namespace Sys2Proof.Machine

/-- `FLASH_SIZE` (R4). -/
def flashSize : Nat := 65536

/-- `PAGE_SIZE` (R4). -/
def pageSize : Nat := 128

/-- `T_WP_MIN` (R5), in ns, as all times. -/
def wpMin : Nat := 1000

/-- `T_WR_REC_MIN` (R5). -/
def wrRecMin : Nat := 1000

/-- `T_RD_SETTLE_MIN` (R5). -/
def rdSettleMin : Nat := 10000

/-- `T_PROG_WAIT_MIN` (R5). -/
def progWaitMin : Nat := 10000000

/-- `T_ERASE_WAIT_MIN` (R5). -/
def eraseWaitMin : Nat := 50000000

/-- `T_LOAD_GAP_MAX` (R5). -/
def loadGapMax : Nat := 200000

end Sys2Proof.Machine

namespace Sys2Proof

open Sys2Proof.Machine

/-- A free number held within a bound: any value of `0..bound` may come out, and where the bound is 0 it is 0. -/
def Machine.bounded : Nat → Nat → Nat
  | 0, _ => 0
  | k + 1, x => x % (k + 2)

/-- The constraints of R6 on the block's parameters, with R167's on the load gap, and R66's on the program cycle time. -/
abbrev Params.Legal (p : Params) : Prop :=
  wpMin ≤ p.wp ∧ wrRecMin ≤ p.wrRec ∧ rdSettleMin ≤ p.rdSettle ∧ progWaitMin ≤ p.progWait ∧
    eraseWaitMin ≤ p.eraseWait ∧ p.wp + p.wrRec + 5 * p.stepMax ≤ loadGapMax ∧ loadGapMax < p.wcChip

/-- `ChipTimingOK` (R70), the named premise of every claim about flash contents. -/
abbrev Params.ChipTimingOK (p : Params) : Prop :=
  p.wpChip ≤ wpMin ∧ p.accChip < rdSettleMin ∧ p.wcChip ≤ progWaitMin ∧ p.ecChip ≤ eraseWaitMin

/-- The parameters State.reset holds: instance `I0` of 95_test_vectors.md section 0, with the chip parameters given there.
DESIGN CHOICE (log entry 4): no statement rests on these numbers, since State carries the parameters and every statement
is about every state. Unsafe for a claim about the run from reset alone. -/
def Params.ideal : Params where
  wp := 1000
  wrRec := 1000
  rdSettle := 10000
  progWait := 10000000
  eraseWait := 50000000
  stepMax := 0
  erasedByte := 0xFF#8
  accChip := 9999
  wpChip := 1000
  wcChip := 10000000
  ecChip := 50000000

/-- By how much the micro-step with draw `n` exceeds its lower bound: a free value in `[0, T_STEP_MAX]` (R11). -/
def Params.slack (p : Params) (n : Nat) : Nat := bounded p.stepMax (Config.freeSlack n)

end Sys2Proof
end

