-- ==== Sys2Proof/Machine/State.lean ====
section
/-! DEFINITION. The state of the block and of its environment as plain data (R20 to R41, R63, R72), the reasons a step can stop, and the state after reset (R39, R231). -/

namespace Sys2Proof.Machine

/-- The machine stops with a fault. The spec gives the block no fault (R210). -/
inductive Fault where
  /-- Raised by the micro-step relation on a state with BUSY = 1 whose SEQ names no micro-step of an operation: no rule
  gives such a state a step, and no run reaches it. Safe: the model stops. -/
  | noMicroStep
  deriving DecidableEq, Repr

/-- Why a word is refused before it starts (R211). The block shows the host nothing of it; a model marks it (R196). -/
inductive Refusal where
  /-- Raised by exec's arm of an instruction that has no meaning yet. Safe: the model stops. -/
  | notModelled (mnemonic : String)
  /-- Marked by the command port for a word whose `OP` is 0x00 or 0x0C..0xFF (R93). Safe: nothing of the block changes, as
  the spec says. -/
  | illegalOpcode
  /-- Marked by the command port for PBLOAD with `A[15:7]` not zero, CMDW or CMDD with `A[15:9]` not zero (R93). Safe: as above. -/
  | reservedBits
  /-- Answered by CAPTURE, CMDW, CMDD, CMDE while `OWN = CTRL` (R196). Safe: the spec refuses the word there. -/
  | alreadyOwned
  /-- Answered by RELEASE, RDBYTE, RDPAGE, WRPAGE, ERASE while `OWN = EXT` (R196). Safe: the spec refuses the word there. -/
  | notOwned
  /-- Marked by a pin update that makes a write cycle the chip model gives no meaning (`ChipNoMeaning`, R69, R211). The
  environment's, not the block's: the operation runs on (R212). Safe: the cells are any value from there on. -/
  | chipNoMeaning
  deriving DecidableEq, Repr

/-- A refusal that is the command port's outcome for a word, not the model's own want of a meaning. -/
def Refusal.isWordRefusal : Refusal → Bool
  | .notModelled _ => false
  | .illegalOpcode => true
  | .reservedBits => true
  | .alreadyOwned => true
  | .notOwned => true
  | .chipNoMeaning => false

/-- The direction of a line or port (R21). -/
inductive Dir where
  /-- the block drives nothing -/
  | inp
  /-- the block drives the line to its value -/
  | out
  deriving DecidableEq, Repr

/-- An 8-bit port (R21, R22): a direction common to its 8 lines and a drive value. -/
structure Port8 where
  dir : Dir
  val : Byte
  deriving DecidableEq, Repr

/-- The chip enable line (R23): a direction and a drive value. -/
structure CeLine where
  dir : Dir
  val : Level
  deriving DecidableEq, Repr

/-- The pins of the block (R20 to R26). `OE`, `WE` and `BOE` are outputs always, so they have a value only. -/
structure Pins where
  /-- address low byte port (R21) -/
  al : Port8
  /-- address high byte port (R21) -/
  ah : Port8
  /-- data port (R22) -/
  dq : Port8
  /-- chip enable, active low (R23) -/
  ce : CeLine
  /-- output enable, active low (R24) -/
  oe : Level
  /-- write enable, active low (R25) -/
  we : Level
  /-- buffer output enable, active low (R26) -/
  boe : Level
  deriving DecidableEq, Repr

/-- Bus ownership (R28), the block's only mode (R216). -/
inductive Own where
  /-- external master owns bus -/
  | ext
  /-- controller owns bus -/
  | ctrl
  deriving DecidableEq, Repr

/-- The micro-steps of `writeByte` (R142). -/
inductive WStep where
  | w1 | w2 | w3 | w4 | w5
  deriving DecidableEq, Repr

/-- The micro-steps of `readByte` (R143). -/
inductive RStep where
  | r1 | r2 | r3 | r4 | r5 | r6
  deriving DecidableEq, Repr

/-- The micro-step to execute next within an operation (R30): "which constituent procedure and which of its micro-steps". -/
inductive Upc where
  /-- capture (R120) -/
  | c1 | c2 | c3 | c4
  /-- setBusOut (R140) -/
  | b1
  /-- the k-th write of the operation's command sequences (R161) -/
  | cmd (k : Nat) (w : WStep)
  /-- the load of byte `idx` of the page (R162) -/
  | load (w : WStep)
  /-- W1 of the load of the next byte, into which advancing `idx` is folded (R162) -/
  | loadNext
  /-- delay(T_PROG_WAIT) (R162) -/
  | progWait
  /-- delay(T_ERASE_WAIT) (R163) -/
  | eraseWait
  /-- setBusRel (R141) -/
  | b2
  /-- the read of byte `idx` (R143, R164) -/
  | read (r : RStep)
  /-- emit (R144) -/
  | emit
  /-- release (R121) -/
  | l1 | l2 | l3 | l4 | l5
  /-- the one micro-step of PBLOAD (R165) -/
  | pbload
  /-- the one micro-step of PBCLR (R166) -/
  | pbclr
  deriving DecidableEq, Repr

/-- `SEQ = (op, upc, idx)` (R30): idle, or the operation in progress, its next micro-step and the byte counter `0..128`. R30 gives the
counter a meaning in the page loops only; what it holds outside them is the model's choice (DESIGN CHOICE, log entry 17). -/
inductive Seq where
  | idle
  | run (op : Op) (upc : Upc) (idx : Nat)
  deriving DecidableEq, Repr

/-- The kinds of delay, for the pin trace (R13). -/
inductive DelayKind where
  /-- W3, the write pulse (R142) -/
  | writePulse
  /-- W5, the write recovery (R142) -/
  | writeRecovery
  /-- R3, the read settle (R143) -/
  | readSettle
  /-- the program wait of WRPAGE (R162) -/
  | program
  /-- the erase wait of ERASE (R163) -/
  | erase
  deriving DecidableEq, Repr

/-- One entry of the pin trace (R13): the time, and a snapshot after a pin update, a delay with its duration, or a sample
with its value. -/
inductive TraceEntry where
  | pins (now : Nat) (p : Pins)
  | delay (now : Nat) (kind : DelayKind) (duration : Nat)
  | sample (now : Nat) (v : Byte)
  deriving DecidableEq, Repr

/-- The chip's page latch (R63): a partial map from offsets `0..127` to bytes. -/
abbrev PageLatch := Vector (Option Byte) 128

/-- The chip's command state `CS` (R63). -/
inductive ChipState where
  /-- `C_IDLE` -/
  | idle
  /-- `C_U1` -/
  | u1
  /-- `C_U2` -/
  | u2
  /-- `C_LOAD(pg, lb, t_last)` -/
  | load (pg : Option PageIdx) (lb : PageLatch) (tLast : Nat)
  /-- `C_PROG(t_done)`, with the page and latch it commits, the time of the last load, and the draw its unloaded cells take -/
  | prog (pg : PageIdx) (lb : PageLatch) (tLast tDone draw : Nat)
  /-- `C_E3` -/
  | e3
  /-- `C_E4` -/
  | e4
  /-- `C_E5` -/
  | e5
  /-- `C_ERASE(t_done)`, with the time of the confirming write and the draw of what a chip slower than assumed then holds -/
  | erase (tStart tDone draw : Nat)
  /-- a write the reference chip gives no meaning has come (R69, `ChipNoMeaning` of R211): every cell and every read is any value
  from here on, and no later write gives the chip a meaning again (log entries 3, 24) -/
  | noMeaning
  deriving DecidableEq, Repr

/-- The command state is one of R63's: no write without meaning has come. -/
def ChipState.hasMeaning : ChipState → Bool
  | .noMeaning => false
  | .idle => true
  | .u1 => true
  | .u2 => true
  | .load _ _ _ => true
  | .prog _ _ _ _ _ => true
  | .e3 => true
  | .e4 => true
  | .e5 => true
  | .erase _ _ _ => true

/-- The chip (R40, R63): its cells, its command state, and the instant the write pulse in progress began (R60). -/
structure Chip where
  /-- `Flash[0..65535]`: the cells that do not hold `ERASED_BYTE`, addresses rising (log entry 10); free values where the spec says
  any value (log entry 24) -/
  flash : List Host.Cell
  /-- `CS` -/
  cs : ChipState
  /-- the instant both chip enable and write enable last fell -/
  tFall : Nat
  deriving DecidableEq, Repr

/-- The external master (R12, R40, R71, R72): the address, data and chip enable on its side of the buffer, and the bytes it has
read. -/
structure Master where
  /-- the address it drives -/
  addr : Addr
  /-- the byte it drives on its data lines, or none while it drives them to nothing -/
  data : Option Byte
  /-- the chip enable it drives -/
  ce : Level
  /-- the bytes it has read, oldest first -/
  seen : List Byte
  deriving DecidableEq, Repr

/-- A read cycle in progress on the bus (R61): its address, the instant of assertion (the later of address valid and both lines
low), and the cell as it was at that moment, or none if the chip was not idle then. -/
structure ReadAccess where
  addr : Addr
  since : Nat
  data : Option Byte
  deriving DecidableEq, Repr

/-- What the outside does next (R12, R190, R194, R198, R72). -/
inductive Input where
  /-- the host presents a command word (R95) -/
  | word (w : CmdWord)
  /-- an idle span: time passes between operations and no pin changes (R194) -/
  | idle (ns : Nat)
  /-- the external master sets the lines it drives through the buffer: address, data, chip enable (R12, R72) -/
  | master (addr : Addr) (data : Option Byte) (ce : Level)
  /-- the external master takes the byte on the data lines (R72) -/
  | masterSample
  deriving DecidableEq, Repr

/-- The state: the block (R20), its environment (R40), and what the model carries beside them (R41). -/
structure State where
  /-- the lines and ports (R21 to R26) -/
  pins : Pins
  /-- `OWN` (R28) -/
  own : Own
  /-- `BUSY` (R29) -/
  busy : Bool
  /-- `SEQ` (R30) -/
  seq : Seq
  /-- `OP_REG` (R31) -/
  opReg : BitVec 8
  /-- `A_REG` (R31) -/
  aReg : BitVec 16
  /-- `B_REG` (R31) -/
  bReg : BitVec 8
  /-- `PBUF[0..127]` (R32) -/
  pbuf : Vector Byte 128
  /-- `SMP` (R33) -/
  smp : Byte
  /-- `RSP` (R33) -/
  rsp : List Byte
  /-- `DLY` (R34): the nanoseconds the delay timer last counted -/
  dly : Nat
  /-- the chip (R40, R63) -/
  chip : Chip
  /-- the read cycle in progress, if any (R61, log entry 15) -/
  access : Option ReadAccess
  /-- the external master (R12, R40, R72) -/
  master : Master
  /-- the parameters (R6, R70); no step changes them -/
  params : Params
  /-- `NOW` (R11) -/
  now : Nat
  /-- how many free values have been drawn (the model's own) -/
  draws : Nat
  /-- the pin trace, in time order (R13) -/
  trace : List TraceEntry
  /-- the refusals marked so far, in order (R196, R211, the model's own) -/
  marks : List Refusal
  /-- what the outside does next, in order (R198, the model's own) -/
  inputs : List Input
  deriving DecidableEq, Repr

/-- A released port (R21): `dir = IN, val = 0x00`. -/
def Port8.released : Port8 := ⟨.inp, 0x00#8⟩

/-- The pins after reset (R39, R231). `CE.val` is unspecified there; high is the value of log entry 11. -/
def Pins.atReset : Pins where
  al := Port8.released
  ah := Port8.released
  dq := Port8.released
  ce := ⟨.inp, .high⟩
  oe := .low
  we := .high
  boe := .low

/-- The state after reset (R39) with parameters `p` and chip contents `f`: reset does not touch the chip's contents (R232).
The values R39 leaves unspecified are those of log entries 11, 13 and 18; no read cycle is in progress, since the master's chip
enable is high (log entry 15). -/
def State.resetWith (p : Params) (f : List Host.Cell) : State where
  pins := Pins.atReset
  own := .ext
  busy := false
  seq := .idle
  opReg := 0x00#8
  aReg := 0x0000#16
  bReg := 0x00#8
  pbuf := Vector.replicate 128 0x00#8
  smp := 0x00#8
  rsp := []
  dly := 0
  chip := ⟨f, .idle, 0⟩
  access := none
  master := ⟨0x0000#16, none, .high, []⟩
  params := p
  now := 0
  draws := 0
  trace := []
  marks := []
  inputs := []

/-- The machine right after reset (R39): the parameters of log entry 4, no cell listed (log entry 10). -/
def State.reset : State := State.resetWith Params.ideal []

end Sys2Proof.Machine
end

