-- ==== Sys2Proof/Machine/Memory.lean ====
section
/-! DEFINITION. The flash cells as a list of (address, byte) pairs in one canonical form (R50): what an unlisted cell holds, reading, writing, and the form itself. -/

namespace Sys2Proof.Machine

/-- What an unlisted cell holds: `ERASED_BYTE` (R6). A chip erase leaves every cell unlisted (R67); the contents before
anything was written are not in the spec, and log entry 10 takes a blank chip (DESIGN CHOICE, unsafe). -/
def Memory.unlisted (p : Params) : Byte := p.erasedByte

/-- The cell at an address. -/
def Memory.read (p : Params) : List Host.Cell → Nat → Byte
  | [], _ => Memory.unlisted p
  | (k, v) :: rest, a => if k = a then v else Memory.read p rest a

/-- The cells with `v` at `a`: kept sorted, and unlisted where `v` is what an unlisted cell holds. -/
def Memory.write (p : Params) : List Host.Cell → Nat → Byte → List Host.Cell
  | [], a, v => if v = Memory.unlisted p then [] else [(a, v)]
  | (k, w) :: rest, a, v =>
    if a < k then (if v = Memory.unlisted p then (k, w) :: rest else (a, v) :: (k, w) :: rest)
    else if a = k then (if v = Memory.unlisted p then rest else (a, v) :: rest)
    else (k, w) :: Memory.write p rest a v

/-- The cells of a list written one by one, each at its address modulo the size of the flash: a list of any kind made
canonical. -/
def Memory.ofCells (p : Params) : List Host.Cell → List Host.Cell
  | [] => []
  | (a, v) :: rest => Memory.write p (Memory.ofCells p rest) (a % flashSize) v

/-- The canonical form from address `lo` on: addresses strictly rise and exist (R50), no entry equals what an unlisted cell
holds. -/
def Memory.wfFrom (p : Params) : Nat → List Host.Cell → Bool
  | _, [] => true
  | lo, (k, v) :: rest =>
    decide (lo ≤ k) && decide (k < flashSize) && decide (v ≠ Memory.unlisted p) && Memory.wfFrom p (k + 1) rest

/-- The canonical form of the cells. -/
def Memory.wf (p : Params) (m : List Host.Cell) : Bool := Memory.wfFrom p 0 m

end Sys2Proof.Machine
end

