-- ==== Sys2Proof/Machine/Operands.lean ====
section
/-! DEFINITION. Operand and address forms: the two halves of an address (R53), the page sums (R56), a byte of the page buffer (R52), and the command sequences (R4, R96, R161). -/

namespace Sys2Proof.Machine

/-- `UNLOCK_A1` (R4). -/
def unlockA1 : Addr := 0x5555#16

/-- `UNLOCK_A2` (R4). -/
def unlockA2 : Addr := 0x2AAA#16

/-- `UNLOCK_D1` (R4). -/
def unlockD1 : Byte := 0xAA#8

/-- `UNLOCK_D2` (R4). -/
def unlockD2 : Byte := 0x55#8

/-- `CMD_PAGE_LOAD` (R4). -/
def cmdPageLoad : Byte := 0xA0#8

/-- `CMD_ERASE_SETUP` (R4). -/
def cmdEraseSetup : Byte := 0x80#8

/-- `CMD_ERASE_CONFIRM` (R4). -/
def cmdEraseConfirm : Byte := 0x10#8

/-- The low byte of an address, `a[7:0]`, for port AL (R53). -/
def addrLow (a : Addr) : Byte := a.extractLsb' 0 8

/-- The high byte of an address, `a[15:8]`, for port AH (R53). -/
def addrHigh (a : Addr) : Byte := a.extractLsb' 8 8

/-- The address whose halves these are, `{h, l}` (R7, R27). -/
def joinAddr (h l : Byte) : Addr := (h ++ l).cast rfl

/-- The page of an address, `a[15:7]` (R51). -/
def pageOf (a : Addr) : PageIdx := a.extractLsb' 7 9

/-- The offset of an address in its page, `a[6:0]` (R51). -/
def offsetOf (a : Addr) : Nat := a.toNat % pageSize

/-- `addr(i) = (base + i) mod 2^16` (R56). -/
def addrAt (base : Addr) (i : Nat) : Addr := base + BitVec.ofNat 16 i

/-- `base(p) = p * 128 = {p[8:0], 0b0000000}` (R56, R91). -/
def pageBase (p : PageIdx) : Addr := (p ++ 0b0000000#7).cast rfl

/-- `PBUF[i]` (R32); there is no byte beyond 127. -/
def bufByte (buf : Vector Byte 128) (i : Nat) : Byte := if h : i < 128 then buf[i] else 0x00#8

/-- The three writes of a command sequence (R96, R161). -/
def cmdBytes (c : Byte) : List (Addr × Byte) :=
  [(unlockA1, unlockD1), (unlockA2, unlockD2), (unlockA1, c)]

/-- All command writes of an operation, in order (R96): three for a page write, six for an erase, none else. -/
def cmdTable : Op → List (Addr × Byte)
  | .wrpage => cmdBytes cmdPageLoad
  | .cmdw => cmdBytes cmdPageLoad
  | .erase => cmdBytes cmdEraseSetup ++ cmdBytes cmdEraseConfirm
  | .cmde => cmdBytes cmdEraseSetup ++ cmdBytes cmdEraseConfirm
  | .capture => []
  | .release => []
  | .rdbyte => []
  | .rdpage => []
  | .pbload => []
  | .pbclr => []
  | .cmdd => []

/-- The `k`-th command write of an operation. -/
def cmdWrite (op : Op) (k : Nat) : Addr × Byte := (cmdTable op).getD k (0x0000#16, 0x00#8)

end Sys2Proof.Machine
end

