-- ==== Sys2Proof/Machine/Chip.lean ====
section
/-! DEFINITION. The reference chip (R60, R63 to R69): what a write cycle does to its command state, what the passing of time does, and what it makes of a change of the pins. -/

namespace Sys2Proof.Machine

/-- An empty page latch (R64). -/
def PageLatch.empty : PageLatch := Vector.replicate 128 none

/-- `lb with k -> d` (R65). -/
def PageLatch.put (lb : PageLatch) (k : Nat) (d : Byte) : PageLatch := lb.setIfInBounds k (some d)

/-- What offset `k` of a programmed page holds after the commit: the byte loaded, and any value where none was (R66, U15). -/
def latchByte (n : Nat) (lb : PageLatch) (k : Nat) : Byte :=
  match lb[k]? with
  | some (some b) => b
  | _ => Config.freeCell n k

/-- The first `k` cells of page `pg` take the bytes `f` gives their offsets. -/
def fillFirst (p : Params) (pg : PageIdx) (f : Nat → Byte) : Nat → List Host.Cell → List Host.Cell
  | 0, m => m
  | k + 1, m => fillFirst p pg f k (Memory.write p m (pageSize * pg.toNat + k) (f k))

/-- The commit of a program cycle (R66): "the chip commits the page in one internal operation". -/
def commitPage (p : Params) (n : Nat) (pg : PageIdx) (lb : PageLatch) (m : List Host.Cell) : List Host.Cell :=
  fillFirst p pg (latchByte n lb) pageSize m

/-- The cells while page `pg` is being programmed (R66): those of the page are any value, the others what they were. -/
def openPage (p : Params) (n : Nat) (pg : PageIdx) (m : List Host.Cell) : List Host.Cell :=
  fillFirst p pg (Config.freePage n) pageSize m

/-- The cells where the spec says that every cell is any value (R67, R69). -/
def openFlash (p : Params) (n : Nat) : List Host.Cell := Memory.ofCells p (Config.freeFlash n)

/-- The cells while page `pg` is being programmed: those of the page are any value (R66); of a chip slower than assumed, all (R70,
log entry 25). -/
def runningCells (p : Params) (n : Nat) (pg : PageIdx) (m : List Host.Cell) : List Host.Cell :=
  if p.ChipTimingOK then openPage p n pg m else openFlash p n

/-- The cells a cycle of a chip slower than assumed leaves: any value, and no other with time (R70, U6, R143 (d), log entry 25). -/
def leftCells (p : Params) (n : Nat) : List Host.Cell := Memory.ofCells p (Config.leftFlash n)

/-- The cells when a program cycle has ended: the page committed (R66); of a chip slower than assumed, any value. -/
def programmedCells (p : Params) (n : Nat) (pg : PageIdx) (lb : PageLatch) (m : List Host.Cell) : List Host.Cell :=
  if p.ChipTimingOK then commitPage p n pg lb m else leftCells p n

/-- The cells when an erase cycle has ended: every one holds `ERASED_BYTE`, so none is listed (R67); of a chip slower than assumed,
any value. -/
def erasedCells (p : Params) (n : Nat) : List Host.Cell := if p.ChipTimingOK then [] else leftCells p n

/-- A load in `C_LOAD` (R65): within the gap, and to the page the first load fixed. -/
def chipLoad (pg : Option PageIdx) (lb : PageLatch) (tLast : Nat) (a : Addr) (d : Byte) (t : Nat) : ChipState :=
  if t ≤ tLast + loadGapMax then
    match pg with
    | none => .load (some (pageOf a)) (PageLatch.put PageLatch.empty (offsetOf a) d) t
    | some q => if q = pageOf a then .load (some q) (PageLatch.put lb (offsetOf a) d) t else .noMeaning
  else .noMeaning

/-- The command state after the write cycle `WC(a, d)` at time `t` (R64, R65, R67); every write these do not list has no
meaning (R69). `n` is the draw the end of an erase cycle is taken from, and what a chip
slower than assumed then holds. -/
def chipDecode (p : Params) (n : Nat) (a : Addr) (d : Byte) (t : Nat) : ChipState → ChipState
  | .idle => if a = unlockA1 ∧ d = unlockD1 then .u1 else .noMeaning
  | .u1 => if a = unlockA2 ∧ d = unlockD2 then .u2 else .noMeaning
  | .u2 =>
    if a = unlockA1 ∧ d = cmdPageLoad then .load none PageLatch.empty t
    else if a = unlockA1 ∧ d = cmdEraseSetup then .e3 else .noMeaning
  | .load pg lb tLast => chipLoad pg lb tLast a d t
  | .prog _ _ _ _ _ => .noMeaning
  | .e3 => if a = unlockA1 ∧ d = unlockD1 then .e4 else .noMeaning
  | .e4 => if a = unlockA2 ∧ d = unlockD2 then .e5 else .noMeaning
  | .e5 =>
    if a = unlockA1 ∧ d = cmdEraseConfirm then .erase t (t + bounded p.ecChip (Config.freeCycle n)) n
    else .noMeaning
  | .erase _ _ _ => .noMeaning
  | .noMeaning => .noMeaning

/-- The chip after its program cycle (R66). -/
def chipCommitted (p : Params) (pg : PageIdx) (lb : PageLatch) (draw : Nat) (c : Chip) : Chip :=
  { c with flash := programmedCells p draw pg lb c.flash, cs := .idle }

/-- The chip after its erase cycle (R67). -/
def chipErased (p : Params) (draw : Nat) (c : Chip) : Chip := { c with flash := erasedCells p draw, cs := .idle }

/-- The chip loses its meaning (R69): every cell is any value, and so is every read. -/
def chipLost (p : Params) (n : Nat) (c : Chip) : Chip := { c with flash := openFlash p n, cs := .noMeaning }

/-- A program cycle seen at time `t` (R66): over for certain at `t_last + T_WC_CHIP`; until then what is being
programmed is any value. -/
def chipProg (p : Params) (n t : Nat) (pg : PageIdx) (lb : PageLatch) (tLast tDone draw : Nat) (c : Chip) : Chip :=
  if tLast + p.wcChip ≤ t then chipCommitted p pg lb draw c
  else { c with flash := runningCells p n pg c.flash, cs := .prog pg lb tLast tDone draw }

/-- The chip when time has reached `t` with no further write cycle (R66, R67). A load window that has run out starts the
program cycle, whose end `t_done` is free between the end of the window and `t_last + T_WC_CHIP`. A cycle that may have
ended but need not is brought up to date where it matters, by `chipSettle` (log entry 8). Where the cells are any value, they
are so anew at every instant (log entry 24). -/
def chipElapse (p : Params) (n t : Nat) (c : Chip) : Chip :=
  match c.cs with
  | .load (some pg) lb tLast =>
    if tLast + loadGapMax < t then
      chipProg p n t pg lb tLast (tLast + loadGapMax + bounded (p.wcChip - loadGapMax) (Config.freeCycle n)) n c
    else c
  | .prog pg lb tLast tDone draw => chipProg p n t pg lb tLast tDone draw c
  | .erase tStart _ draw =>
    if tStart + p.ecChip ≤ t then chipErased p draw c else { c with flash := openFlash p n }
  | .load none _ _ => c
  | .idle => c
  | .u1 => c
  | .u2 => c
  | .e3 => c
  | .e4 => c
  | .e5 => c
  | .noMeaning => chipLost p n c

/-- The chip as it is at time `t`: a program or erase cycle whose `t_done` has been reached is over (R66, R67). -/
def chipSettle (p : Params) (t : Nat) (c : Chip) : Chip :=
  match c.cs with
  | .prog pg lb _ tDone draw => if tDone ≤ t then chipCommitted p pg lb draw c else c
  | .erase _ tDone draw => if tDone ≤ t then chipErased p draw c else c
  | .load _ _ _ => c
  | .idle => c
  | .u1 => c
  | .u2 => c
  | .e3 => c
  | .e4 => c
  | .e5 => c
  | .noMeaning => c

/-- The cells after a write cycle whose command state is `cs`: any value from the confirming write of an erase on (R67) and after a
write without meaning (R69), else what they were. -/
def cellsAfter (p : Params) (n : Nat) (cs : ChipState) (m : List Host.Cell) : List Host.Cell :=
  match cs with
  | .erase _ _ _ => openFlash p n
  | .noMeaning => openFlash p n
  | .load _ _ _ => m
  | .prog _ _ _ _ _ => m
  | .idle => m
  | .u1 => m
  | .u2 => m
  | .e3 => m
  | .e4 => m
  | .e5 => m

/-- The chip after a write cycle at time `t`; the time of the cycle is the falling edge (R60). -/
def chipWrite (p : Params) (n : Nat) (a : Addr) (d : Byte) (t : Nat) (c : Chip) : Chip :=
  let c1 := chipSettle p t c
  let cs := chipDecode p n a d t c1.cs
  { flash := cellsAfter p n cs c1.flash, cs := cs, tFall := t }

/-- The pins may hold chip enable and write enable both low: write enable is low and chip enable is not driven high (R27, R60). -/
def Pins.mayWrite (q : Pins) : Bool :=
  decide (q.we = .low) && !(decide (q.ce.dir = .out) && decide (q.ce.val = .high))

/-- The pins make a write cycle the chip model describes (R60): chip enable and write enable driven low, output enable high,
address and data driven. -/
def Pins.inWriteCycle (q : Pins) : Bool :=
  decide (q.we = .low) && decide (q.ce.dir = .out) && decide (q.ce.val = .low) && decide (q.oe = .high) &&
    decide (q.al.dir = .out) && decide (q.ah.dir = .out) && decide (q.dq.dir = .out)

/-- The address on the address ports, `{AH.val, AL.val}` (R21, R27). -/
def Pins.addr (q : Pins) : Addr := joinAddr q.ah.val q.al.val

/-- What the chip makes of a change of the pins from `old` to `new` at time `t` (R60): a write cycle at the falling edge; a
pulse shorter than `T_WP_CHIP`, or one whose lines are not driven and steady, has no meaning (R69, U10). -/
def chipSees (p : Params) (n : Nat) (old new : Pins) (t : Nat) (c : Chip) : Chip :=
  if old.mayWrite then
    if new.mayWrite then (if old = new then c else chipLost p n c)
    else (if c.tFall + p.wpChip ≤ t then c else chipLost p n c)
  else
    if new.mayWrite then
      (if new.inWriteCycle then chipWrite p n new.addr new.dq.val t c else chipLost p n c)
    else c

/-- The refusal a model marks when the chip loses its meaning (`ChipNoMeaning`, R69, R211); once lost it is not marked again. -/
def lostMeaning (old new : ChipState) : List Refusal :=
  if old.hasMeaning && !new.hasMeaning then [.chipNoMeaning] else []

end Sys2Proof.Machine
end

