-- ==== Sys2Proof/Machine/Ops.lean ====
section
/-! DEFINITION. The shared operations: the passing of time (R11), the levels the chip sees (R27), the read cycle in progress (R61), a pin update, a delay, the data lines (R22, R61), a sample, an emit (R9, R10, R13). The block takes no exception (R210, R215); what stands where one would is the refusal of Flags.lean. -/

namespace Sys2Proof.Machine

/-- Time advances by `d` (R11), and the chip with it (R66, R67). -/
def pass (d : Nat) (s : State) : State :=
  { s with
    now := s.now + d
    draws := s.draws + 1
    chip := chipElapse s.params s.draws (s.now + d) s.chip }

/-- A micro-step that is not a delay takes a time in `[0, T_STEP_MAX]` before its effect (R11). -/
def passStep (s : State) : State := pass (s.params.slack s.draws) s

/-- The level of chip enable that is driven (R27): the block's, the external master's through the buffer, or by nobody. -/
def ceDriven (q : Pins) (m : Master) : Option Level :=
  match q.ce.dir, q.boe with
  | .out, _ => some q.ce.val
  | .inp, .low => some m.ce
  | .inp, .high => none

/-- The address that is driven (R27): the block's while both ports drive, the external master's through the buffer while both
are inputs, else none. -/
def addrDriven (q : Pins) (m : Master) : Option Addr :=
  match q.al.dir, q.ah.dir, q.boe with
  | .out, .out, _ => some q.addr
  | .inp, .inp, .low => some m.addr
  | _, _, _ => none

/-- The byte the external master drives onto the data lines through the buffer (R12, R71). -/
def masterDrives (q : Pins) (m : Master) : Option Byte :=
  match q.boe with
  | .low => m.data
  | .high => none

/-- The chip drives the data lines (R61): chip enable and output enable low, write enable high. -/
def chipDrives (q : Pins) (m : Master) : Bool :=
  decide (q.oe = .low) && decide (q.we = .high) && decide (ceDriven q m = some .low)

/-- The cell at `a` as the chip shows it at time `t`: if its command state is idle then (R61, R68). -/
def chipCell (p : Params) (t : Nat) (c : Chip) (a : Addr) : Option Byte :=
  if (chipSettle p t c).cs = .idle then some (Memory.read p (chipSettle p t c).flash a.toNat) else none

/-- The address of the read cycle the lines assert (R61), if they assert one: the chip drives the data lines and somebody the
address. -/
def readAddr (q : Pins) (m : Master) : Option Addr := if chipDrives q m then addrDriven q m else none

/-- The read cycle the lines assert, begun at time `t` (R61): it shows the cell of this moment (log entry 15). -/
def readAsserted (p : Params) (q : Pins) (m : Master) (t : Nat) (c : Chip) : Option ReadAccess :=
  (readAddr q m).map fun a => ⟨a, t, chipCell p t c a⟩

/-- The read cycle in progress when, at time `t`, the lines of `s` become `q` and `m` (R61): the one of `s` goes on where they
assert a read at the address they asserted one at before; any other read begins now. -/
def readNext (s : State) (q : Pins) (m : Master) (t : Nat) (c : Chip) : Option ReadAccess :=
  if (readAddr q m).isSome && decide (readAddr s.pins s.master = readAddr q m) then s.access
  else readAsserted s.params q m t c

/-- A pin update (R10): the duration first, then all assignments at one instant; the chip sees them, a read cycle begins, goes
on or ends with them (R61), the pin trace gets a snapshot (R13), and a write cycle without meaning is marked (R211). -/
def pinUpdate (f : Pins → Pins) (s : State) : State :=
  let s1 := passStep s
  let q := f s1.pins
  let c := chipSees s1.params s.draws s1.pins q s1.now s1.chip
  { s1 with
    pins := q
    chip := c
    access := readNext s1 q s1.master s1.now c
    trace := s1.trace ++ [.pins s1.now q]
    marks := s1.marks ++ lostMeaning s1.chip.cs c.cs }

/-- `delay(T)` (R9, R11): the delay timer counts at least `T` and at most `T + T_STEP_MAX`; the pin trace gets the entry of R13. -/
def delay (kind : DelayKind) (T : Nat) (s : State) : State :=
  let d := T + s.params.slack s.draws
  let s1 := pass d s
  { s1 with
    dly := d
    trace := s1.trace ++ [.delay s1.now kind d] }

/-- The level of chip enable the chip sees (R27): the one driven, or any. -/
def ceLevel (s : State) (n : Nat) : Level := (ceDriven s.pins s.master).getD (Config.freeLevel n)

/-- The address the chip sees (R27): the one driven, or any. -/
def addrSeen (s : State) (n : Nat) : Addr := (addrDriven s.pins s.master).getD (Config.freeAddr n)

/-- The chip as it is at NOW, with a cycle whose `t_done` has been reached over: `CS` and `Flash` of R63. -/
def chipNow (s : State) : Chip := chipSettle s.params s.now s.chip

/-- What the chip shows in the read cycle in progress (R61, R68): once its access time has passed since the assertion, the cell as
it was at that moment if the chip was idle then; else any value. A chip whose access time is not below the settle shows any value at
all times (R70, R143; DESIGN CHOICE where these two differ, log entry 25). -/
def chipShows (s : State) (n : Nat) : Byte :=
  match s.access with
  | some r =>
    if s.params.accChip < s.params.rdSettle ∧ r.since + s.params.accChip < s.now then r.data.getD (Config.freeByte n)
    else Config.freeByte n
  | none => Config.freeByte n

/-- The byte present on the data lines (R22, R27, R61): that of whoever alone drives them; any value where nobody does, or both
the chip and the external master do. -/
def dataLines (s : State) (n : Nat) : Byte :=
  match s.pins.dq.dir, chipDrives s.pins s.master, masterDrives s.pins s.master with
  | .out, _, _ => s.pins.dq.val
  | .inp, true, none => chipShows s n
  | .inp, false, some d => d
  | .inp, true, some _ => Config.freeByte n
  | .inp, false, none => Config.freeByte n

/-- `SMP <- sample(DQ)` (R9, R143 R4). -/
def sample (s : State) : State :=
  let s1 := passStep s
  let v := dataLines s1 s.draws
  { s1 with
    smp := v
    trace := s1.trace ++ [.sample s1.now v] }

/-- `emit(SMP)` (R9, R144): one more byte of RSP. -/
def emit (s : State) : State :=
  let s1 := passStep s
  { s1 with rsp := s1.rsp ++ [s1.smp] }

/-- A loop of `count` rounds in ascending order from 0 (R162, R164). -/
def rounds (f : Nat → State → State) : Nat → State → State
  | 0, s => s
  | k + 1, s => f k (rounds f k s)

end Sys2Proof.Machine
end

