-- ==== Sys2Proof/Machine/Flags.lean ====
section
/-! DEFINITION. The block has no flags set by data (R35). Its two status bits: BUSY from acceptance to the last micro-step (R29), and OWN, which decides what is accepted (R28, R196); and the refusal that stands where an exception would (R211). -/

namespace Sys2Proof.Machine

/-- The operation starts: `BUSY <- 1` (R29, R95). -/
def begin (s : State) : State := { s with busy := true }

/-- The last micro-step has ended: `BUSY <- 0`, SEQ idle (R29, R30). -/
def finish (s : State) : State := { s with busy := false, seq := .idle }

/-- An operation from its start to its end (R95, R194). -/
def operate (body : State → State) (s : State) : State := finish (body (begin s))

/-- An operation with a precondition on OWN (R196): refused with nothing changed, or run to its end. -/
def whenOwn (want : Own) (why : Refusal) (body : State → State) (s : State) : Host.Outcome State Fault Refusal :=
  if s.own = want then .next (operate body s) else .refused why

end Sys2Proof.Machine
end

