-- ==== Sys2Proof/Machine/Arbiter.lean ====
section
/-! DEFINITION. The Bus Arbiter: CAPTURE (R120) and RELEASE (R121), micro-step by micro-step. -/

namespace Sys2Proof.Machine

/-- The three ports in the released state (R21), the rest as it is. -/
def Pins.released (q : Pins) : Pins :=
  { q with al := Port8.released, ah := Port8.released, dq := Port8.released }

/-- C1: `BOE.val <- 1 ; OWN <- CTRL`. -/
def stepC1 (s : State) : State := { pinUpdate (fun q => { q with boe := .high }) s with own := .ctrl }

/-- C2: `CE.dir <- OUT`. -/
def stepC2 (s : State) : State := pinUpdate (fun q => { q with ce := ⟨.out, q.ce.val⟩ }) s

/-- C3: `CE.val <- 1 ; WE.val <- 1 ; OE.val <- 1`. -/
def stepC3 (s : State) : State :=
  pinUpdate (fun q => { q with ce := ⟨q.ce.dir, .high⟩, we := .high, oe := .high }) s

/-- C4: the three ports released. -/
def stepC4 (s : State) : State := pinUpdate Pins.released s

/-- L1: `WE.val <- 1`. -/
def stepL1 (s : State) : State := pinUpdate (fun q => { q with we := .high }) s

/-- L2: `OE.val <- 0`. -/
def stepL2 (s : State) : State := pinUpdate (fun q => { q with oe := .low }) s

/-- L3: `CE.dir <- IN`, and CE.val becomes unspecified: a free value (R121, R124, log entry 7). -/
def stepL3 (s : State) : State := pinUpdate (fun q => { q with ce := ⟨.inp, Config.freeLevel s.draws⟩ }) s

/-- L4: the three ports released. -/
def stepL4 (s : State) : State := pinUpdate Pins.released s

/-- L5: `BOE.val <- 0 ; OWN <- EXT`. -/
def stepL5 (s : State) : State := { pinUpdate (fun q => { q with boe := .low }) s with own := .ext }

/-- `captureOwnership()`: C1 to C4 (R120). -/
def captureBus (s : State) : State := stepC4 (stepC3 (stepC2 (stepC1 s)))

/-- `releaseOwnership()`: L1 to L5 (R121). -/
def releaseBus (s : State) : State := stepL5 (stepL4 (stepL3 (stepL2 (stepL1 s))))

/-- CAPTURE (R120): accepted only while `OWN = EXT`. -/
def execCapture (s : State) : Host.Outcome State Fault Refusal := whenOwn .ext .alreadyOwned captureBus s

/-- RELEASE (R121): accepted only while `OWN = CTRL`. -/
def execRelease (s : State) : Host.Outcome State Fault Refusal := whenOwn .ctrl .notOwned releaseBus s

end Sys2Proof.Machine
end

