-- ==== Sys2Proof/Machine/Transactor.lean ====
section
/-! DEFINITION. The Byte-Level Transactor: setBusOut (R140), setBusRel (R141), writeByte (R142), readByte (R143), and RDBYTE (R144). -/

namespace Sys2Proof.Machine

/-- `setBusOut()`, B1 (R140): the three directions, not the values. -/
def setBusOut (s : State) : State :=
  pinUpdate (fun q => { q with al := ⟨.out, q.al.val⟩, ah := ⟨.out, q.ah.val⟩, dq := ⟨.out, q.dq.val⟩ }) s

/-- `setBusRel()`, B2 (R141). -/
def setBusRel (s : State) : State := pinUpdate Pins.released s

/-- W1: `AL.val <- a[7:0] ; AH.val <- a[15:8] ; DQ.val <- d`. -/
def stepW1 (a : Addr) (d : Byte) (s : State) : State :=
  pinUpdate (fun q =>
    { q with al := ⟨q.al.dir, addrLow a⟩, ah := ⟨q.ah.dir, addrHigh a⟩, dq := ⟨q.dq.dir, d⟩ }) s

/-- W2: `CE.val <- 0 ; WE.val <- 0`, same instant (R146). -/
def stepW2 (s : State) : State := pinUpdate (fun q => { q with ce := ⟨q.ce.dir, .low⟩, we := .low }) s

/-- W3: `delay(T_WP)`. -/
def stepW3 (s : State) : State := delay .writePulse s.params.wp s

/-- W4: `CE.val <- 1 ; OE.val <- 1 ; WE.val <- 1`, same instant. -/
def stepW4 (s : State) : State :=
  pinUpdate (fun q => { q with ce := ⟨q.ce.dir, .high⟩, oe := .high, we := .high }) s

/-- W5: `delay(T_WR_REC)`. -/
def stepW5 (s : State) : State := delay .writeRecovery s.params.wrRec s

/-- `writeByte(a, d)` (R142): one write cycle. -/
def writeByte (a : Addr) (d : Byte) (s : State) : State := stepW5 (stepW4 (stepW3 (stepW2 (stepW1 a d s))))

/-- R1: the address out on both address ports. -/
def stepR1 (a : Addr) (s : State) : State :=
  pinUpdate (fun q => { q with al := ⟨.out, addrLow a⟩, ah := ⟨.out, addrHigh a⟩ }) s

/-- R2: `CE.val <- 0 ; OE.val <- 0`. -/
def stepR2 (s : State) : State := pinUpdate (fun q => { q with ce := ⟨q.ce.dir, .low⟩, oe := .low }) s

/-- R3: `delay(T_RD_SETTLE)`. -/
def stepR3 (s : State) : State := delay .readSettle s.params.rdSettle s

/-- R4: `SMP <- sample(DQ)`. -/
def stepR4 (s : State) : State := sample s

/-- R5: `OE.val <- 1 ; CE.val <- 1`. -/
def stepR5 (s : State) : State := pinUpdate (fun q => { q with ce := ⟨q.ce.dir, .high⟩, oe := .high }) s

/-- R6: both address ports released. -/
def stepR6 (s : State) : State := pinUpdate (fun q => { q with al := Port8.released, ah := Port8.released }) s

/-- `readByte(a)` (R143): one read cycle; the byte is in SMP. -/
def readByte (a : Addr) (s : State) : State :=
  stepR6 (stepR5 (stepR4 (stepR3 (stepR2 (stepR1 a s)))))

/-- `v <- readByte(a) ; emit(v)` (R144, R164). -/
def readEmit (a : Addr) (s : State) : State := emit (readByte a s)

/-- RDBYTE (R144): accepted only while `OWN = CTRL`. -/
def execRdbyte (addr : Addr) (s : State) : Host.Outcome State Fault Refusal :=
  whenOwn .ctrl .notOwned (readEmit addr) s

end Sys2Proof.Machine
end

