-- ==== Sys2Proof/Machine/Sequencer.lean ====
section
/-! DEFINITION. The Page/Erase Sequencer: cmdSeq (R161), WRPAGE (R162), ERASE (R163), RDPAGE (R164), PBLOAD (R165), PBCLR (R166). -/

namespace Sys2Proof.Machine

/-- `cmdSeq(c)` (R161): one three-write command sequence. -/
def cmdSeq (c : Byte) (s : State) : State :=
  writeByte unlockA1 c (writeByte unlockA2 unlockD2 (writeByte unlockA1 unlockD1 s))

/-- The load of byte `i` of the page (R162): `writeByte((base + i) mod 2^16, PBUF[i])`. -/
def loadByte (base : Addr) (i : Nat) (s : State) : State := writeByte (addrAt base i) (bufByte s.pbuf i) s

/-- The wait of step (4) of a page write (R162). -/
def stepProgWait (s : State) : State := delay .program s.params.progWait s

/-- The wait of a chip erase (R163). -/
def stepEraseWait (s : State) : State := delay .erase s.params.eraseWait s

/-- `writePage(base, PBUF)` (R162). -/
def writePage (base : Addr) (s : State) : State :=
  setBusRel (stepProgWait (rounds (loadByte base) pageSize (cmdSeq cmdPageLoad (setBusOut s))))

/-- `chipErase()` (R163). -/
def eraseChip (s : State) : State :=
  setBusRel (stepEraseWait (cmdSeq cmdEraseConfirm (cmdSeq cmdEraseSetup (setBusOut s))))

/-- The page read (R164): 128 read cycles in ascending order. -/
def readPage (base : Addr) (s : State) : State := rounds (fun i => readEmit (addrAt base i)) pageSize s

/-- The one micro-step of PBLOAD (R165). -/
def bufLoad (idx : BufIdx) (data : Byte) (s : State) : State :=
  let s1 := passStep s
  { s1 with pbuf := s1.pbuf.setIfInBounds idx.toNat data }

/-- The one micro-step of PBCLR (R166). -/
def bufClear (s : State) : State :=
  let s1 := passStep s
  { s1 with pbuf := Vector.replicate 128 0x00#8 }

/-- RDPAGE (R164): accepted only while `OWN = CTRL`. -/
def execRdpage (base : Addr) (s : State) : Host.Outcome State Fault Refusal :=
  whenOwn .ctrl .notOwned (readPage base) s

/-- WRPAGE (R162): accepted only while `OWN = CTRL`. -/
def execWrpage (base : Addr) (s : State) : Host.Outcome State Fault Refusal :=
  whenOwn .ctrl .notOwned (writePage base) s

/-- ERASE (R163): accepted only while `OWN = CTRL`. -/
def execErase (s : State) : Host.Outcome State Fault Refusal := whenOwn .ctrl .notOwned eraseChip s

/-- PBLOAD (R165): legal in both modes. -/
def execPbload (idx : BufIdx) (data : Byte) (s : State) : Host.Outcome State Fault Refusal :=
  .next (operate (bufLoad idx data) s)

/-- PBCLR (R166): legal in both modes. -/
def execPbclr (s : State) : Host.Outcome State Fault Refusal := .next (operate bufClear s)

end Sys2Proof.Machine
end

