-- ==== Sys2Proof/Machine/Commands.lean ====
section
/-! DEFINITION. The composite commands: CMDW (R191), CMDD (R192), CMDE (R193). The inner operation and the release are not checked again: their preconditions hold by construction. -/

namespace Sys2Proof.Machine

/-- A capture, an inner operation, a release (R191 to R193). -/
def inWindow (inner : State → State) (s : State) : State := releaseBus (inner (captureBus s))

/-- CMDW (R191): accepted only while `OWN = EXT`. -/
def execCmdw (page : PageIdx) (s : State) : Host.Outcome State Fault Refusal :=
  whenOwn .ext .alreadyOwned (inWindow (writePage (pageBase page))) s

/-- CMDD (R192): accepted only while `OWN = EXT`. -/
def execCmdd (page : PageIdx) (s : State) : Host.Outcome State Fault Refusal :=
  whenOwn .ext .alreadyOwned (inWindow (readPage (pageBase page))) s

/-- CMDE (R193): accepted only while `OWN = EXT`. -/
def execCmde (s : State) : Host.Outcome State Fault Refusal :=
  whenOwn .ext .alreadyOwned (inWindow eraseChip) s

end Sys2Proof.Machine
end

