-- ==== Sys2Proof/Machine/Dispatch.lean ====
section
/-! DEFINITION. The dispatch of an instruction to its meaning. -/

namespace Sys2Proof.Machine

def exec (i : Instr) (s : State) : Host.Outcome State Fault Refusal :=
  match i with
  | .capture => Sys2Proof.Machine.execCapture s
  | .release => Sys2Proof.Machine.execRelease s
  | .rdbyte addr => Sys2Proof.Machine.execRdbyte addr s
  | .rdpage base => Sys2Proof.Machine.execRdpage base s
  | .wrpage base => Sys2Proof.Machine.execWrpage base s
  | .erase => Sys2Proof.Machine.execErase s
  | .pbload idx data => Sys2Proof.Machine.execPbload idx data s
  | .pbclr => Sys2Proof.Machine.execPbclr s
  | .cmdw page => Sys2Proof.Machine.execCmdw page s
  | .cmdd page => Sys2Proof.Machine.execCmdd page s
  | .cmde => Sys2Proof.Machine.execCmde s

end Sys2Proof.Machine
end

