-- ==== Sys2Proof/Machine/Micro.lean ====
section
/-! DEFINITION. The micro-step relation of a busy block (R190): which micro-step SEQ names, its effect, and where SEQ moves (R30). The effects are those the meanings are made of. -/

namespace Sys2Proof.Machine

/-- The operation begins with a capture and ends with a release (R191 to R193). -/
def Op.composite : Op → Bool
  | .cmdw => true
  | .cmdd => true
  | .cmde => true
  | .capture => false
  | .release => false
  | .rdbyte => false
  | .rdpage => false
  | .wrpage => false
  | .erase => false
  | .pbload => false
  | .pbclr => false

/-- The operation holds a page write. -/
def Op.writesPage : Op → Bool
  | .wrpage => true
  | .cmdw => true
  | .cmdd => false
  | .cmde => false
  | .capture => false
  | .release => false
  | .rdbyte => false
  | .rdpage => false
  | .erase => false
  | .pbload => false
  | .pbclr => false

/-- The operation holds a chip erase. -/
def Op.erases : Op → Bool
  | .erase => true
  | .cmde => true
  | .cmdw => false
  | .cmdd => false
  | .capture => false
  | .release => false
  | .rdbyte => false
  | .rdpage => false
  | .wrpage => false
  | .pbload => false
  | .pbclr => false

/-- How many bytes the operation reads (R144, R164, R192). -/
def Op.readCount : Op → Nat
  | .rdbyte => 1
  | .rdpage => pageSize
  | .cmdd => pageSize
  | .cmdw => 0
  | .cmde => 0
  | .capture => 0
  | .release => 0
  | .wrpage => 0
  | .erase => 0
  | .pbload => 0
  | .pbclr => 0

/-- The micro-step, with its byte counter, is one of the operation's list. -/
def Op.has (op : Op) (i : Nat) : Upc → Bool
  | .c1 => decide (op = .capture) || Op.composite op
  | .c2 => decide (op = .capture) || Op.composite op
  | .c3 => decide (op = .capture) || Op.composite op
  | .c4 => decide (op = .capture) || Op.composite op
  | .l1 => decide (op = .release) || Op.composite op
  | .l2 => decide (op = .release) || Op.composite op
  | .l3 => decide (op = .release) || Op.composite op
  | .l4 => decide (op = .release) || Op.composite op
  | .l5 => decide (op = .release) || Op.composite op
  | .b1 => Op.writesPage op || Op.erases op
  | .cmd k _ => decide (k < (cmdTable op).length)
  | .load .w1 => Op.writesPage op && decide (i = 0)
  | .load .w2 => Op.writesPage op && decide (i < pageSize)
  | .load .w3 => Op.writesPage op && decide (i < pageSize)
  | .load .w4 => Op.writesPage op && decide (i < pageSize)
  | .load .w5 => Op.writesPage op && decide (i < pageSize)
  | .loadNext => Op.writesPage op && decide (i + 1 < pageSize)
  | .progWait => Op.writesPage op
  | .eraseWait => Op.erases op
  | .b2 => Op.writesPage op || Op.erases op
  | .read _ => decide (i < Op.readCount op)
  | .emit => decide (i < Op.readCount op)
  | .pbload => decide (op = .pbload)
  | .pbclr => decide (op = .pbclr)

/-- The first micro-step of an operation. -/
def Op.first : Op → Upc
  | .capture => .c1
  | .release => .l1
  | .rdbyte => .read .r1
  | .rdpage => .read .r1
  | .wrpage => .b1
  | .erase => .b1
  | .pbload => .pbload
  | .pbclr => .pbclr
  | .cmdw => .c1
  | .cmdd => .c1
  | .cmde => .c1

/-- What follows a capture inside the operation: nothing for CAPTURE itself. -/
def Op.afterCapture : Op → Option Upc
  | .cmdw => some .b1
  | .cmde => some .b1
  | .cmdd => some (.read .r1)
  | .capture => none
  | .release => none
  | .rdbyte => none
  | .rdpage => none
  | .wrpage => none
  | .erase => none
  | .pbload => none
  | .pbclr => none

/-- What follows the inner operation: the release of a composite, else nothing. -/
def Op.afterInner (op : Op) : Option Upc := if Op.composite op then some .l1 else none

/-- The next micro-step of the list with its byte counter, or none after the last (R30, R190). In the load loop of a page write the
counter advances in W1 of the next `writeByte` (R162); as the loop is left it becomes 128 (R30), and in the read loop it advances
as SEQ moves to the next round. Before a loop, and in operations that have none, it stays at 0; after a loop it stays where the loop
left it (DESIGN CHOICE, log entry 17). -/
def Op.next (op : Op) (i : Nat) : Upc → Option (Upc × Nat)
  | .c1 => some (.c2, i)
  | .c2 => some (.c3, i)
  | .c3 => some (.c4, i)
  | .c4 => (Op.afterCapture op).map (·, 0)
  | .b1 => some (.cmd 0 .w1, 0)
  | .cmd k .w1 => some (.cmd k .w2, i)
  | .cmd k .w2 => some (.cmd k .w3, i)
  | .cmd k .w3 => some (.cmd k .w4, i)
  | .cmd k .w4 => some (.cmd k .w5, i)
  | .cmd k .w5 =>
    if k + 1 < (cmdTable op).length then some (.cmd (k + 1) .w1, i)
    else if Op.erases op then some (.eraseWait, i) else some (.load .w1, 0)
  | .load .w1 => some (.load .w2, i)
  | .load .w2 => some (.load .w3, i)
  | .load .w3 => some (.load .w4, i)
  | .load .w4 => some (.load .w5, i)
  | .load .w5 => if i + 1 < pageSize then some (.loadNext, i) else some (.progWait, i + 1)
  | .loadNext => some (.load .w2, i + 1)
  | .progWait => some (.b2, i)
  | .eraseWait => some (.b2, i)
  | .b2 => (Op.afterInner op).map (·, i)
  | .read .r1 => some (.read .r2, i)
  | .read .r2 => some (.read .r3, i)
  | .read .r3 => some (.read .r4, i)
  | .read .r4 => some (.read .r5, i)
  | .read .r5 => some (.read .r6, i)
  | .read .r6 => some (.emit, i)
  | .emit => if i + 1 < Op.readCount op then some (.read .r1, i + 1) else (Op.afterInner op).map (·, i + 1)
  | .l1 => some (.l2, i)
  | .l2 => some (.l3, i)
  | .l3 => some (.l4, i)
  | .l4 => some (.l5, i)
  | .l5 => none
  | .pbload => none
  | .pbclr => none

/-- The base address of the operation in progress, from the latch (R30, R31, R91). -/
def latchBase (op : Op) (s : State) : Addr :=
  if Op.composite op then pageBase (s.aReg.extractLsb' 0 9) else s.aReg

/-- One micro-step of `writeByte(a, d)` (R142). -/
def stepW (a : Addr) (d : Byte) (s : State) : WStep → State
  | .w1 => stepW1 a d s
  | .w2 => stepW2 s
  | .w3 => stepW3 s
  | .w4 => stepW4 s
  | .w5 => stepW5 s

/-- One micro-step of `readByte(a)` (R143). -/
def stepR (a : Addr) (s : State) : RStep → State
  | .r1 => stepR1 a s
  | .r2 => stepR2 s
  | .r3 => stepR3 s
  | .r4 => stepR4 s
  | .r5 => stepR5 s
  | .r6 => stepR6 s

/-- The effect of the micro-step `u` of operation `op` with byte counter `i`: operands from the latch and the buffer (R30, R31). -/
def microEffect (op : Op) (i : Nat) (s : State) : Upc → State
  | .c1 => stepC1 s
  | .c2 => stepC2 s
  | .c3 => stepC3 s
  | .c4 => stepC4 s
  | .b1 => setBusOut s
  | .cmd k w => stepW (cmdWrite op k).1 (cmdWrite op k).2 s w
  | .load w => stepW (addrAt (latchBase op s) i) (bufByte s.pbuf i) s w
  | .loadNext => stepW1 (addrAt (latchBase op s) (i + 1)) (bufByte s.pbuf (i + 1)) s
  | .progWait => stepProgWait s
  | .eraseWait => stepEraseWait s
  | .b2 => setBusRel s
  | .read r => stepR (addrAt (latchBase op s) i) s r
  | .emit => emit s
  | .l1 => stepL1 s
  | .l2 => stepL2 s
  | .l3 => stepL3 s
  | .l4 => stepL4 s
  | .l5 => stepL5 s
  | .pbload => bufLoad (s.aReg.extractLsb' 0 7) s.bReg s
  | .pbclr => bufClear s

/-- SEQ moves to the next micro-step or, after the last one, to IDLE with `BUSY <- 0` (R190). -/
def moveSeq (op : Op) (nxt : Option (Upc × Nat)) (s : State) : State :=
  match nxt with
  | some (u, i) => { s with seq := .run op u i }
  | none => finish s

/-- One step of a busy block (R190): the micro-step SEQ names. A state whose SEQ names none has no step (log entry 20). -/
def microStep (s : State) : Host.Outcome State Fault Refusal :=
  match s.seq with
  | .idle => .fault .noMicroStep
  | .run op u i =>
    if Op.has op i u then .next (moveSeq op (Op.next op i u) (microEffect op i s u)) else .fault .noMicroStep

/-- The acceptance of an operation, for the view that executes one micro-step at a time (R95, R190): BUSY set and SEQ at the
operation's first micro-step, on a state whose latch holds the word. That the byte counter is 0 from acceptance on, whether or not a
loop follows, is the model's choice (DESIGN CHOICE, log entry 17). -/
def startOp (op : Op) (s : State) : State := { begin s with seq := .run op (Op.first op) 0 }

/-- How many micro-steps an operation has (R120, R121, R144, R162 to R166, R191 to R193). -/
def Op.microCount : Op → Nat
  | .capture => 4
  | .release => 5
  | .rdbyte => 7
  | .rdpage => 896
  | .wrpage => 658
  | .erase => 33
  | .pbload => 1
  | .pbclr => 1
  | .cmdw => 667
  | .cmdd => 905
  | .cmde => 42

/-- `k` micro-steps on end (R190). -/
def microRun : Nat → State → Host.Outcome State Fault Refusal
  | 0, s => .next s
  | k + 1, s =>
    match microStep s with
    | .next t => microRun k t
    | .fault f => .fault f
    | .refused r => .refused r

end Sys2Proof.Machine
end

