-- ==== Sys2Proof/Machine/Port.lean ====
section
/-! DEFINITION. The command port (R95): taking a word, latching it, dropping a refused one (R93, R196); and the other things the outside does between operations, letting time pass (R194) and the external master's lines and reads (R72). -/

namespace Sys2Proof.Machine

/-- The command latch takes the three fields of the accepted word (R31, R95). -/
def latchWord (w : CmdWord) (s : State) : State :=
  { s with opReg := fieldOp w, aReg := fieldA w, bReg := fieldB w }

/-- A refused word is dropped: no state of the block changes; the model marks the refusal (R93, R196, log entry 2). -/
def dropWord (r : Refusal) (s : State) : State := { s with marks := s.marks ++ [r] }

/-- The refusal an illegal word is marked with (R93, R211). -/
def refusalOf : DecodeError → Refusal
  | .illegalOpcode => .illegalOpcode
  | .reservedBits => .reservedBits

/-- What the port makes of an operation's outcome on a block that stood in state `s`: completed, or dropped (R210, R196). -/
def portOutcome (s : State) : Host.Outcome State Fault Refusal → Host.Outcome State Fault Refusal
  | .next t => .next t
  | .fault f => .fault f
  | .refused r => if r.isWordRefusal then .next (dropWord r s) else .refused r

/-- The port takes a word while `BUSY = 0` (R95): illegal words are refused, then the operation decides. -/
def takeWord (w : CmdWord) (s : State) : Host.Outcome State Fault Refusal :=
  match decode w with
  | .error e => .next (dropWord (refusalOf e) s)
  | .ok i => portOutcome s (exec i (latchWord w s))

/-- An idle span of `ns` between operations (R194): no pin changes. -/
def idleSpan (ns : Nat) (s : State) : State := pass ns s

/-- A move of the external master (R12, R72): while `OWN = EXT` the address, data and chip enable it sets reach the bus, and a
read cycle begins where they newly assert one and goes on where the address and the chip enable stay (R61); while `OWN = CTRL` it
has no move. -/
def masterMove (a : Addr) (d : Option Byte) (ce : Level) (s : State) : State :=
  match s.own with
  | .ctrl => s
  | .ext =>
    let m : Master := { s.master with addr := a, data := d, ce := ce }
    { s with master := m, access := readNext s s.pins m s.now s.chip }

/-- The external master takes the byte on the data lines (R72): while `OWN = EXT`; while `OWN = CTRL` the buffer isolates it. -/
def masterSample (s : State) : State :=
  match s.own with
  | .ctrl => s
  | .ext =>
    { s with
      master := { s.master with seen := s.master.seen ++ [dataLines s s.draws] }
      draws := s.draws + 1 }

/-- One thing the outside does while the block is idle. -/
def takeInput (x : Input) (s : State) : Host.Outcome State Fault Refusal :=
  match x with
  | .word w => takeWord w s
  | .idle ns => .next (idleSpan ns s)
  | .master a d ce => .next (masterMove a d ce s)
  | .masterSample => .next (masterSample s)

/-- The step of the whole machine (R190): a busy block executes its next micro-step; an idle one takes the next input, and
with none it sits idle with its pins held (R221). -/
def stepOnce (s : State) : Host.Outcome State Fault Refusal :=
  if s.busy then microStep s
  else
    match s.inputs with
    | [] => .next s
    | x :: rest => takeInput x { s with inputs := rest }

/-- The state `s`, idle, with the word numbered `w` as the next input. -/
def presentWord (s : State) (nbits w : Nat) : State :=
  { s with
    busy := false
    seq := .idle
    inputs := .word (BitVec.ofNat 32 (w % 2 ^ nbits)) :: s.inputs }

end Sys2Proof.Machine
end

