-- ==== Sys2Proof/Machine/Program.lean ====
section
/-! DEFINITION. Programs: finite lists of operations or command words the host issues in order (R99, R198). -/

namespace Sys2Proof.Machine

/-- The operations of a list one after the other, each to its end (R194), stopping at the first that does not complete. -/
def execAll : List Instr → State → Host.Outcome State Fault Refusal
  | [], s => .next s
  | i :: rest, s =>
    match exec i s with
    | .next t => execAll rest t
    | .fault f => .fault f
    | .refused r => .refused r

/-- `s` with a program of command words as what the host presents next (R198). -/
def presentProgram (ws : List CmdWord) (s : State) : State := { s with inputs := ws.map .word ++ s.inputs }

end Sys2Proof.Machine
end

