-- ==== Sys2Proof/Machine/Trace.lean ====
section
/-! DEFINITION. Reading the bus cycles off the pin trace (R14): the write cycles (R60) and the read cycles (R61), in time order. -/

namespace Sys2Proof.Machine

/-- The pins make a read cycle of the block (R61): chip enable driven low, output enable low, write enable high, the address
driven. -/
def Pins.inReadCycle (q : Pins) : Bool :=
  decide (q.ce.dir = .out) && decide (q.ce.val = .low) && decide (q.oe = .low) && decide (q.we = .high) &&
    decide (q.al.dir = .out) && decide (q.ah.dir = .out)

/-- The write cycles of a trace, each with its time (R60), given the pins before its first entry. One is counted at each falling
edge with address and data driven: R98, R142 and R162 count one per `writeByte` whatever the chip, while R60 also asks that the
lines stay low for `T_WP_CHIP` with both held. That the trace does not look at the chip's `T_WP_CHIP` or at the rest of the pulse is
the model's reading (DEDUCED, log entry 14); the chip itself does (`chipSees`). -/
def writeCycles : Pins → List TraceEntry → List (Nat × Addr × Byte)
  | _, [] => []
  | prev, .pins t q :: rest =>
    if !prev.inWriteCycle && q.inWriteCycle then (t, q.addr, q.dq.val) :: writeCycles q rest else writeCycles q rest
  | prev, .delay _ _ _ :: rest => writeCycles prev rest
  | prev, .sample _ _ :: rest => writeCycles prev rest

/-- The read cycles of a trace, `RC(a) -> v` for every sample taken in a read cycle (R61), given the pins before its first
entry. That a read cycle is counted at its sample is the model's reading too (DEDUCED, log entry 14). -/
def readCycles : Pins → List TraceEntry → List (Addr × Byte)
  | _, [] => []
  | _, .pins _ q :: rest => readCycles q rest
  | prev, .delay _ _ _ :: rest => readCycles prev rest
  | prev, .sample _ v :: rest => if prev.inReadCycle then (prev.addr, v) :: readCycles prev rest else readCycles prev rest

/-- The snapshots of a trace (R13). -/
def snapshots : List TraceEntry → List Pins
  | [] => []
  | .pins _ q :: rest => q :: snapshots rest
  | .delay _ _ _ :: rest => snapshots rest
  | .sample _ _ :: rest => snapshots rest

/-- The delays of a trace, kind and duration (R13). -/
def delays : List TraceEntry → List (DelayKind × Nat)
  | [] => []
  | .pins _ _ :: rest => delays rest
  | .delay _ k d :: rest => (k, d) :: delays rest
  | .sample _ _ :: rest => delays rest

/-- The write cycles of a page write, address and data (R96). -/
def pageWriteCycles (base : Addr) (buf : Vector Byte 128) : List (Addr × Byte) :=
  cmdBytes cmdPageLoad ++ (List.range pageSize).map (fun i => (addrAt base i, bufByte buf i))

/-- The write cycles of a chip erase, address and data (R96). -/
def eraseWriteCycles : List (Addr × Byte) := cmdBytes cmdEraseSetup ++ cmdBytes cmdEraseConfirm

end Sys2Proof.Machine
end

