-- ==== Sys2Proof/Safety.lean ====
section
/-! DEFINITION. What counts as a safe state and a safe run: the pin states of the control-line FSM (R197), the mode and pins at rest (R36), no two drivers (R37, R38), the invariant that ties SEQ to the pins, and clean runs (R198). -/

namespace Sys2Proof.Safety

open Sys2Proof.Machine

/-- The named pin states of R197. -/
inductive PinState where
  | sExt | sCap1 | sCap2 | sHold | sWidle | sWpulse | sRaddr | sRact | sRel2 | sRel3
  deriving DecidableEq, Repr

/-- The three ports are released (R21). -/
def portsReleased (q : Pins) : Bool :=
  decide (q.al = Port8.released) && decide (q.ah = Port8.released) && decide (q.dq = Port8.released)

/-- The three ports drive. -/
def portsOut (q : Pins) : Bool :=
  decide (q.al.dir = .out) && decide (q.ah.dir = .out) && decide (q.dq.dir = .out)

/-- The address ports drive and the data port is released. -/
def portsRead (q : Pins) : Bool :=
  decide (q.al.dir = .out) && decide (q.ah.dir = .out) && decide (q.dq = Port8.released)

/-- The row of R197's table for a pin state: BOE, CE, OE, WE, the ports. A `?` of the table is left open. -/
def PinState.holds (q : Pins) : PinState → Bool
  | .sExt => decide (q.boe = .low) && decide (q.ce.dir = .inp) && decide (q.oe = .low) && decide (q.we = .high) && portsReleased q
  | .sCap1 => decide (q.boe = .high) && decide (q.ce.dir = .inp) && decide (q.oe = .low) && decide (q.we = .high) && portsReleased q
  | .sCap2 => decide (q.boe = .high) && decide (q.ce.dir = .out) && decide (q.oe = .low) && decide (q.we = .high) && portsReleased q
  | .sHold => decide (q.boe = .high) && decide (q.ce = ⟨.out, .high⟩) && decide (q.oe = .high) && decide (q.we = .high) && portsReleased q
  | .sWidle => decide (q.boe = .high) && decide (q.ce = ⟨.out, .high⟩) && decide (q.oe = .high) && decide (q.we = .high) && portsOut q
  | .sWpulse => decide (q.boe = .high) && decide (q.ce = ⟨.out, .low⟩) && decide (q.oe = .high) && decide (q.we = .low) && portsOut q
  | .sRaddr => decide (q.boe = .high) && decide (q.ce = ⟨.out, .high⟩) && decide (q.oe = .high) && decide (q.we = .high) && portsRead q
  | .sRact => decide (q.boe = .high) && decide (q.ce = ⟨.out, .low⟩) && decide (q.oe = .low) && decide (q.we = .high) && portsRead q
  | .sRel2 => decide (q.boe = .high) && decide (q.ce = ⟨.out, .high⟩) && decide (q.oe = .low) && decide (q.we = .high) && portsReleased q
  | .sRel3 => decide (q.boe = .high) && decide (q.ce.dir = .inp) && decide (q.oe = .low) && decide (q.we = .high) && portsReleased q

/-- The pins of a captured bus at rest: every pin is determined (R36, the CTRL column; R120, the post-state). -/
def capturedPins : Pins :=
  ⟨Port8.released, Port8.released, Port8.released, ⟨.out, .high⟩, .high, .high, .high⟩

/-- The pins while the ports drive address `a` and data `d` and the chip is deselected (S_WIDLE of R197). -/
def drivenPins (a : Addr) (d : Byte) : Pins :=
  ⟨⟨.out, addrLow a⟩, ⟨.out, addrHigh a⟩, ⟨.out, d⟩, ⟨.out, .high⟩, .high, .high, .high⟩

/-- The pins during the write pulse of `WC(a, d)` (S_WPULSE of R197). -/
def pulsePins (a : Addr) (d : Byte) : Pins :=
  ⟨⟨.out, addrLow a⟩, ⟨.out, addrHigh a⟩, ⟨.out, d⟩, ⟨.out, .low⟩, .high, .low, .high⟩

/-- The pins while a read drives address `a` (S_RADDR of R197). -/
def readAddrPins (a : Addr) : Pins :=
  ⟨⟨.out, addrLow a⟩, ⟨.out, addrHigh a⟩, Port8.released, ⟨.out, .high⟩, .high, .high, .high⟩

/-- The pins while the chip drives the data of a read at `a` (S_RACT of R197). -/
def readActivePins (a : Addr) : Pins :=
  ⟨⟨.out, addrLow a⟩, ⟨.out, addrHigh a⟩, Port8.released, ⟨.out, .low⟩, .low, .high, .high⟩

/-- The pins while the external master owns the bus (R36, the EXT column); the unspecified CE.val is `v`. -/
def releasedPins (v : Level) : Pins :=
  ⟨Port8.released, Port8.released, Port8.released, ⟨.inp, v⟩, .low, .high, .low⟩

/-- The pins at rest, by mode: the two columns of R36. -/
def restState : Own → PinState
  | .ext => .sExt
  | .ctrl => .sHold

/-- The block is idle and its pins are the column of R36 for its mode. -/
abbrev AtRest (s : State) : Prop :=
  s.busy = false ∧ s.seq = .idle ∧ (restState s.own).holds s.pins = true

/-- The pin state in which a micro-step starts (R197), given the mode. -/
def pinStateAt (own : Own) : Upc → PinState
  | .c1 => .sExt
  | .c2 => .sCap1
  | .c3 => .sCap2
  | .c4 => .sHold
  | .b1 => .sHold
  | .cmd _ .w1 => .sWidle
  | .cmd _ .w2 => .sWidle
  | .cmd _ .w3 => .sWpulse
  | .cmd _ .w4 => .sWpulse
  | .cmd _ .w5 => .sWidle
  | .load .w1 => .sWidle
  | .load .w2 => .sWidle
  | .load .w3 => .sWpulse
  | .load .w4 => .sWpulse
  | .load .w5 => .sWidle
  | .loadNext => .sWidle
  | .progWait => .sWidle
  | .eraseWait => .sWidle
  | .b2 => .sWidle
  | .read .r1 => .sHold
  | .read .r2 => .sRaddr
  | .read .r3 => .sRact
  | .read .r4 => .sRact
  | .read .r5 => .sRact
  | .read .r6 => .sRaddr
  | .emit => .sHold
  | .l1 => .sHold
  | .l2 => .sHold
  | .l3 => .sRel2
  | .l4 => .sRel3
  | .l5 => .sRel3
  | .pbload => restState own
  | .pbclr => restState own

/-- The mode in which a micro-step starts: CTRL inside a captured window (R122), EXT at C1, either for the buffer operations. -/
def ownAt (own : Own) : Upc → Bool
  | .c1 => decide (own = .ext)
  | .pbload => true
  | .pbclr => true
  | _ => decide (own = .ctrl)

/-- The pin-state invariant (R36, R197): an idle block is at rest; a busy one is at a micro-step of its operation, in the pin
state and mode in which that micro-step starts. -/
def PinsFollowSeq (s : State) : Prop :=
  match s.seq with
  | .idle => AtRest s
  | .run op u i =>
    s.busy = true ∧ Op.has op i u = true ∧ ownAt s.own u = true ∧ (pinStateAt s.own u).holds s.pins = true

/-- Output enable and write enable are never both asserted (R37, R246). -/
abbrev NoOeWeClash (q : Pins) : Prop := ¬ (q.oe = .low ∧ q.we = .low)

/-- No contention (R38, R247): with the buffer on, the block drives no port and no chip enable; with the data port driving,
output enable is high. -/
abbrev NoContention (q : Pins) : Prop :=
  (q.boe = .low → q.al.dir = .inp ∧ q.ah.dir = .inp ∧ q.dq.dir = .inp ∧ q.ce.dir = .inp) ∧
    (q.dq.dir = .out → q.oe = .high)

/-- Every snapshot of the pin trace is free of clash and contention. -/
abbrev TraceSafe (s : State) : Prop :=
  ∀ q ∈ snapshots s.trace, NoOeWeClash q ∧ NoContention q

/-- The table of R196: why an operation is refused in a mode, or none where it is accepted. -/
def refusedWhen : Own → Op → Option Refusal
  | .ctrl, .capture => some .alreadyOwned
  | .ctrl, .cmdw => some .alreadyOwned
  | .ctrl, .cmdd => some .alreadyOwned
  | .ctrl, .cmde => some .alreadyOwned
  | .ext, .release => some .notOwned
  | .ext, .rdbyte => some .notOwned
  | .ext, .rdpage => some .notOwned
  | .ext, .wrpage => some .notOwned
  | .ext, .erase => some .notOwned
  | .ext, .capture => none
  | .ext, .cmdw => none
  | .ext, .cmdd => none
  | .ext, .cmde => none
  | .ext, .pbload => none
  | .ext, .pbclr => none
  | .ctrl, .release => none
  | .ctrl, .rdbyte => none
  | .ctrl, .rdpage => none
  | .ctrl, .wrpage => none
  | .ctrl, .erase => none
  | .ctrl, .pbload => none
  | .ctrl, .pbclr => none

/-- The operation has ended: `BUSY = 0`, SEQ idle (R29, R30). -/
abbrev Ended (t : State) : Prop := t.busy = false ∧ t.seq = .idle

/-- The marks tell exactly whether the chip lost its meaning between `s` and `t` (R69, R211); no word was refused (R196). -/
abbrev MarksTellMeaning (s t : State) : Prop := t.marks = s.marks ++ lostMeaning s.chip.cs t.chip.cs

/-- What no operation writes: the command latch (the port does, R95), the external master (R72), the parameters (R6) and the
inputs; to the marks only the chip's loss of meaning is added (R211). -/
abbrev KeepsSurroundings (s t : State) : Prop :=
  t.opReg = s.opReg ∧ t.aReg = s.aReg ∧ t.bReg = s.bReg ∧ t.master = s.master ∧ t.params = s.params ∧
    MarksTellMeaning s t ∧ t.inputs = s.inputs

/-- Nothing of the block (R20) differs between `s` and `t`. -/
abbrev BlockKept (s t : State) : Prop :=
  t.pins = s.pins ∧ t.own = s.own ∧ t.busy = s.busy ∧ t.seq = s.seq ∧ t.opReg = s.opReg ∧ t.aReg = s.aReg ∧
    t.bReg = s.bReg ∧ t.pbuf = s.pbuf ∧ t.smp = s.smp ∧ t.rsp = s.rsp ∧ t.dly = s.dly

/-- The passing of time up to and including `T` does not move a chip in this state: no cycle runs in it, no load window runs out by
then, and its cells are determined (R66, R67, R69). -/
def StillUntil (T : Nat) : ChipState → Prop
  | .load (some _) _ tLast => T ≤ tLast + loadGapMax
  | .load none _ _ => True
  | .idle => True
  | .u1 => True
  | .u2 => True
  | .e3 => True
  | .e4 => True
  | .e5 => True
  | .prog _ _ _ _ _ => False
  | .erase _ _ _ => False
  | .noMeaning => False

/-- The chip after instants at which nothing but the passing of time is seen, each with its draw (R66, R67). -/
def chipAged (p : Params) (instants : List (Nat × Nat)) (c : Chip) : Chip :=
  instants.foldl (fun c x => chipElapse p x.1 x.2 c) c

/-- The cell at address `a` as the chip stands at NOW (R63): a free value where the spec says any value (R66, R67, R69). -/
def cell (s : State) (a : Nat) : Byte := Memory.read s.params (chipNow s).flash a

/-- Captured and at rest: the CTRL column of R36 between operations. -/
abbrev Held (s : State) : Prop := s.own = .ctrl ∧ s.pins = capturedPins

/-- Given back and at rest: the EXT column of R36 between operations. -/
abbrev Free (s : State) : Prop := s.own = .ext ∧ ∃ v, s.pins = releasedPins v

/-- The read cycle in progress is the one the lines assert, begun at NOW or before (R61): none where the chip does not drive the
data lines or nobody drives an address. -/
def AccessFollowsLines (s : State) : Prop :=
  match s.access with
  | none => chipDrives s.pins s.master = false ∨ addrDriven s.pins s.master = none
  | some r => chipDrives s.pins s.master = true ∧ addrDriven s.pins s.master = some r.addr ∧ r.since ≤ s.now

/-- The delay a parameter gives a kind of delay, and the source's floor for it (R5, R6). -/
def delayBounds (p : Params) : DelayKind → Nat × Nat
  | .writePulse => (wpMin, p.wp)
  | .writeRecovery => (wrRecMin, p.wrRec)
  | .readSettle => (rdSettleMin, p.rdSettle)
  | .program => (progWaitMin, p.progWait)
  | .erase => (eraseWaitMin, p.eraseWait)

/-- The delays of an operation, added up from its parameters (R162 to R164, R253). -/
def nominalTime (p : Params) : Op → Nat
  | .capture => 0
  | .release => 0
  | .pbload => 0
  | .pbclr => 0
  | .rdbyte => p.rdSettle
  | .rdpage => 128 * p.rdSettle
  | .cmdd => 128 * p.rdSettle
  | .wrpage => 131 * (p.wp + p.wrRec) + p.progWait
  | .cmdw => 131 * (p.wp + p.wrRec) + p.progWait
  | .erase => 6 * (p.wp + p.wrRec) + p.eraseWait
  | .cmde => 6 * (p.wp + p.wrRec) + p.eraseWait

/-- A run from `s` to `t` is clean (R198): no word was refused on the way and the bus is given back. -/
abbrev CleanRun (s t : State) : Prop :=
  t.marks.filter Refusal.isWordRefusal = s.marks.filter Refusal.isWordRefusal ∧ t.own = .ext

end Sys2Proof.Safety
end

