-- ==== Sys2Proof/Certificates/Slice0/Obligations.lean ====
section
/-! DEFINITION. The statements for the provers. -/

open Sys2Proof Sys2Proof.Machine Sys2Proof.Safety

/-! ### Encoding -/

/-- Decoding the canonical word of an instruction gives it back, every operand at every value (R90 to R92). -/
def Obligations.DecodeInvertsEncode : Prop :=
  ∀ i : Instr, decode (encode i) = .ok i

/-- A field that is ignored may hold any value (R94): words that agree in the bits the operation looks at select the same
instruction, and with zeros in the ignored bits they are its canonical word. -/
def Obligations.IgnoredBitsDoNotMatter : Prop :=
  ∀ (w w' : CmdWord) (i : Instr),
    decode w = .ok i → w &&& i.op.usedBits = w' &&& i.op.usedBits →
      decode w' = .ok i ∧ w' &&& i.op.usedBits = encode i

/-- The decoder refuses exactly the illegal words, the opcode checked before the reserved bits (R93, R211, R214). -/
def Obligations.DecodeRefusesExactlyIllegalWords : Prop :=
  ∀ w : CmdWord,
    (decode w = .error .illegalOpcode ↔ CmdWord.opcodeAssigned w = false) ∧
    (decode w = .error .reservedBits ↔ CmdWord.opcodeAssigned w = true ∧ CmdWord.reservedZero w = false) ∧
    ((∃ i, decode w = .ok i) ↔ CmdWord.legal w = true)

/-- Words written out in the spec (95_test_vectors.md V-X1, V-X2) decode as it says. -/
def Obligations.SpecWordsDecode : Prop :=
  decode 0x01FFFFFF#32 = .ok .capture ∧ decode 0x0200AB00#32 = .ok .release ∧
  decode 0x035555FF#32 = .ok (.rdbyte 0x5555#16) ∧ decode 0x04FFC000#32 = .ok (.rdpage 0xFFC0#16) ∧
  decode 0x05018000#32 = .ok (.wrpage 0x0180#16) ∧ decode 0x06123456#32 = .ok .erase ∧
  decode 0x07007F12#32 = .ok (.pbload 127#7 0x12#8) ∧ decode 0x08000000#32 = .ok .pbclr ∧
  decode 0x0901FF00#32 = .ok (.cmdw 511#9) ∧ decode 0x0A000900#32 = .ok (.cmdd 9#9) ∧
  decode 0x0B000000#32 = .ok .cmde ∧ decode 0x00000000#32 = .error .illegalOpcode ∧
  decode 0x0C000000#32 = .error .illegalOpcode ∧ decode 0x07008000#32 = .error .reservedBits ∧
  decode 0x09020000#32 = .error .reservedBits ∧ decode 0x0A800000#32 = .error .reservedBits

/-- The page and buffer address arithmetic (R51, R53, R56): `addr(i) = (base + i) mod 2^16`, `base(p) = p * 128`, the page and
offset of an address, and its two halves. -/
def Obligations.AddressArithmetic : Prop :=
  (∀ (base : Addr) (i : Nat), (addrAt base i).toNat = (base.toNat + i) % 2 ^ 16) ∧
  (∀ p : PageIdx, (pageBase p).toNat = p.toNat * 128) ∧
  (∀ a : Addr, (pageOf a).toNat = a.toNat / 128 ∧ offsetOf a = a.toNat % 128) ∧
  (∀ a : Addr, (addrHigh a).toNat * 256 + (addrLow a).toNat = a.toNat)

/-! ### The step and the command port -/

/-- An idle block whose next input is a word that decodes runs that instruction: the word is taken off the inputs, its fields go
into the latch, and the step is `exec`, but for a refusal, after which the word is dropped and nothing has changed (R95, R196). -/
def Obligations.StepRunsDecodedInstruction : Prop :=
  ∀ (s : State) (w : CmdWord) (rest : List Input) (i : Instr),
    s.busy = false → s.inputs = .word w :: rest → decode w = .ok i →
      step s =
        match exec i { s with inputs := rest, opReg := fieldOp w, aReg := fieldA w, bReg := fieldB w } with
        | .next t => .next t
        | .fault f => .fault f
        | .refused r =>
          if r.isWordRefusal then .next { s with inputs := rest, marks := s.marks ++ [r] } else .refused r

/-- An illegal word is dropped: no state of the block changes; the model's mark says why, the opcode before the reserved bits
(R93, R214). -/
def Obligations.IllegalWordIsDropped : Prop :=
  ∀ (s : State) (w : CmdWord) (rest : List Input),
    s.busy = false → s.inputs = .word w :: rest → CmdWord.legal w = false →
      step s = .next { s with
        inputs := rest
        marks := s.marks ++ [if CmdWord.opcodeAssigned w then .reservedBits else .illegalOpcode] }

/-- Which word is accepted in which mode (R196): an illegal word never, a legal one exactly where R196's table accepts it. A
refused word is dropped and nothing of the block changes (the mark is the model's, log entry 2); an accepted operation completes,
the block is idle, the latch holds the word's fields (R31, R95), and nothing is marked but a loss of the chip's meaning (R211). -/
def Obligations.LegalityByMode : Prop :=
  ∀ (s : State) (w : CmdWord) (rest : List Input), s.busy = false → s.inputs = .word w :: rest →
    match decode w with
    | .error _ => ∃ r, step s = .next { s with inputs := rest, marks := s.marks ++ [r] }
    | .ok i =>
      match refusedWhen s.own i.op with
      | some r => step s = .next { s with inputs := rest, marks := s.marks ++ [r] }
      | none => ∃ t, step s = .next t ∧ Ended t ∧ MarksTellMeaning s t ∧ t.inputs = rest ∧
          t.opReg = fieldOp w ∧ t.aReg = fieldA w ∧ t.bReg = fieldB w

/-- While `BUSY = 1` the port takes no word: the step is the next micro-step, inputs and latch stay, no word is refused (R95, R190);
the marks, the model's own list (log entry 2), tell only a loss of the chip's meaning (R211). -/
def Obligations.BusyBlockTakesNoWord : Prop :=
  ∀ s : State, s.busy = true →
    step s = microStep s ∧
    ∀ t, step s = .next t → t.inputs = s.inputs ∧ t.opReg = s.opReg ∧ t.aReg = s.aReg ∧ t.bReg = s.bReg ∧ MarksTellMeaning s t

/-- With nothing presented an idle block sits with its pins held (R221; R194: no pin changes in an idle span). That such a step
changes nothing at all, NOW among it, is the model's choice (log entry 12): time passes between operations by the idle spans of the
inputs. -/
def Obligations.IdleBlockSits : Prop :=
  ∀ s : State, s.busy = false → s.inputs = [] → step s = .next s

/-- An idle span changes no pin (R194), and nothing else of the block; the chip and the read cycle in progress are what time makes of
them, and a chip in a state that time does not move stays as it is. -/
def Obligations.IdleSpanChangesNoPin : Prop :=
  ∀ (s : State) (ns : Nat) (rest : List Input), s.busy = false → s.inputs = .idle ns :: rest →
    ∃ t, step s = .next t ∧ t.now = s.now + ns ∧ BlockKept s t ∧ t.trace = s.trace ∧ t.master = s.master ∧
      t.marks = s.marks ∧ t.params = s.params ∧ t.inputs = rest ∧ t.access = s.access ∧
      (∃ n, t.chip = chipElapse s.params n t.now s.chip) ∧ (StillUntil t.now s.chip.cs → t.chip = s.chip)

/-- The external master (R71, R72): while it owns the bus it sets its address, data and chip enable, and takes the byte on the data
lines; while the block owns the bus it has no move. It changes no state of the block or of the chip in any case. From a bus given
back and an idle chip a read that it newly asserts gives the cell at its address, if it waits longer than the access time before it
takes the byte; a move that leaves address and chip enable as they were leaves the read cycle in progress as it is (R61). That it
takes the byte in an input of its own, and how the model keeps the read cycle in progress, are log
entries 13 and 15; that the chip's access time is to be below the settle for the cell to show (R70, R143) is log entry 25. -/
def Obligations.MasterReadsThroughTheBuffer : Prop :=
  (∀ (s : State) (a : Addr) (d : Option Byte) (ce : Level) (rest : List Input),
    s.busy = false → s.inputs = .master a d ce :: rest →
      (s.own = .ctrl → step s = .next { s with inputs := rest }) ∧
      (s.own = .ext → ∃ t, step s = .next t ∧ BlockKept s t ∧ t.chip = s.chip ∧ t.now = s.now ∧ t.trace = s.trace ∧
        t.marks = s.marks ∧ t.params = s.params ∧ t.inputs = rest ∧ t.master = ⟨a, d, ce, s.master.seen⟩ ∧
        t.access = readNext s s.pins t.master s.now s.chip ∧
        (AccessFollowsLines s → a = s.master.addr → ce = s.master.ce → t.access = s.access))) ∧
  (∀ (s : State) (rest : List Input), s.busy = false → s.inputs = .masterSample :: rest →
      (s.own = .ctrl → step s = .next { s with inputs := rest }) ∧
      (s.own = .ext → ∃ t, step s = .next t ∧ BlockKept s t ∧ t.chip = s.chip ∧ t.now = s.now ∧ t.trace = s.trace ∧
        t.marks = s.marks ∧ t.params = s.params ∧ t.inputs = rest ∧ t.access = s.access ∧
        t.master = { s.master with seen := s.master.seen ++ [dataLines s s.draws] })) ∧
  (∀ (s : State) (a : Addr) (ns : Nat) (rest : List Input),
    s.busy = false → Free s → s.chip.cs = .idle → s.params.accChip < ns → s.params.accChip < s.params.rdSettle → (s.master.ce = .high ∨ s.master.addr ≠ a) →
    s.inputs = .master a none .low :: .idle ns :: .masterSample :: rest →
      ∃ t1 t2 t3, step s = .next t1 ∧ step t1 = .next t2 ∧ step t2 = .next t3 ∧
        t3.master.seen = s.master.seen ++ [cell s a.toNat] ∧ t3.chip = s.chip ∧ t3.pins = s.pins ∧ t3.inputs = rest)

/-! ### The Bus Arbiter -/

/-- CAPTURE (R120): accepted while `OWN = EXT`, whatever the pins hold; four snapshots in order, no delay; the post-state is the
CTRL column of R36; no bus cycle is made, nothing else is written; with write enable high before, the chip is what the passing of
time alone makes of it, and where time does not move it, it is as it was. Refused while `OWN = CTRL`. -/
def Obligations.CaptureTakesTheBus : Prop :=
  ∀ s : State, (s.own = .ctrl → exec .capture s = .refused .alreadyOwned) ∧
    (s.own = .ext → ∃ t n1 n2 n3, exec .capture s = .next t ∧
      t.trace = s.trace ++
        [.pins n1 { s.pins with boe := .high },
          .pins n2 { s.pins with boe := .high, ce := ⟨.out, s.pins.ce.val⟩ },
          .pins n3 { s.pins with boe := .high, ce := ⟨.out, .high⟩, we := .high, oe := .high },
          .pins t.now capturedPins] ∧
      s.now ≤ n1 ∧ n1 ≤ n2 ∧ n2 ≤ n3 ∧ n3 ≤ t.now ∧ t.now ≤ s.now + 4 * s.params.stepMax ∧
      Held t ∧ Ended t ∧ KeepsSurroundings s t ∧ t.pbuf = s.pbuf ∧ t.smp = s.smp ∧ t.rsp = s.rsp ∧ t.dly = s.dly ∧
      (s.pins.we = .high → writeCycles s.pins (t.trace.drop s.trace.length) = []) ∧
      readCycles s.pins (t.trace.drop s.trace.length) = [] ∧
      (s.pins.we = .high →
        (∃ l, (∀ x ∈ l, s.now ≤ x.2 ∧ x.2 ≤ t.now) ∧ t.chip = chipAged s.params l s.chip) ∧
        (StillUntil t.now s.chip.cs → t.chip = s.chip)))

/-- RELEASE (R121): accepted while `OWN = CTRL`; write enable up before output enable down, the buffer on last; the post-state is
the EXT column of R36; CE.val is any value from L3 on; no bus cycle is made, nothing else is written; with write enable high before,
the chip is what the passing of time alone makes of it, and where time does not move it, it is as it was. Refused while
`OWN = EXT`. -/
def Obligations.ReleaseGivesTheBusBack : Prop :=
  ∀ s : State, (s.own = .ext → exec .release s = .refused .notOwned) ∧
    (s.own = .ctrl → ∃ t v n1 n2 n3 n4, exec .release s = .next t ∧
      t.trace = s.trace ++
        [.pins n1 { s.pins with we := .high },
          .pins n2 { s.pins with we := .high, oe := .low },
          .pins n3 { s.pins with we := .high, oe := .low, ce := ⟨.inp, v⟩ },
          .pins n4 { releasedPins v with boe := s.pins.boe },
          .pins t.now (releasedPins v)] ∧
      s.now ≤ n1 ∧ n1 ≤ n2 ∧ n2 ≤ n3 ∧ n3 ≤ n4 ∧ n4 ≤ t.now ∧ t.now ≤ s.now + 5 * s.params.stepMax ∧
      t.own = .ext ∧ t.pins = releasedPins v ∧ Ended t ∧ KeepsSurroundings s t ∧ t.pbuf = s.pbuf ∧ t.smp = s.smp ∧
      t.rsp = s.rsp ∧ t.dly = s.dly ∧
      (s.pins.we = .high → writeCycles s.pins (t.trace.drop s.trace.length) = []) ∧
      readCycles s.pins (t.trace.drop s.trace.length) = [] ∧
      (s.pins.we = .high →
        (∃ l, (∀ x ∈ l, s.now ≤ x.2 ∧ x.2 ≤ t.now) ∧ t.chip = chipAged s.params l s.chip) ∧
        (StillUntil t.now s.chip.cs → t.chip = s.chip)))

/-! ### The Byte-Level Transactor -/

/-- `writeByte(a, d)` from driving ports (R142, R240, R241): one write cycle, at the falling edge; address and data are driven
before it and held over it; the pulse and the recovery last at least their floors. (That the trace counts the cycle at the falling
edge is the reading of log entry 14.) -/
def Obligations.WriteByteMakesOneWriteCycle : Prop :=
  ∀ (s : State) (a : Addr) (d : Byte), s.params.Legal → PinState.sWidle.holds s.pins = true →
    ∃ n1 n2 n3 n4 d3 d5,
      (writeByte a d s).trace = s.trace ++
        [.pins n1 (drivenPins a d), .pins n2 (pulsePins a d), .delay n3 .writePulse d3, .pins n4 (drivenPins a d),
          .delay (writeByte a d s).now .writeRecovery d5] ∧
      s.now ≤ n1 ∧ n1 ≤ n2 ∧ n2 + wpMin ≤ n3 ∧ n3 ≤ n4 ∧ n4 + wrRecMin ≤ (writeByte a d s).now ∧
      wpMin ≤ d3 ∧ wrRecMin ≤ d5 ∧ (writeByte a d s).pins = drivenPins a d ∧
      (∃ e, (writeByte a d s).trace = s.trace ++ e ∧ writeCycles s.pins e = [(n2, a, d)])

/-- RDBYTE (R143, R144): the six micro-steps of `readByte` in the trace, one read cycle at the address, the sample at least the
settle after the lines fell; one byte appended to RSP. From an idle chip whose access time is below the settle it is the cell, the
command addresses among them. The pins end as they were. Refused while `OWN = EXT`. In any command state the read does not touch the
chip (R68): it is what the passing of time alone makes of it, and where time does not move it, it is as it was; from a state other
than idle that time does not move the byte is any value (R61), and so it is from a chip whose access time is not below the
settle (R143). -/
def Obligations.RdbyteReadsOneByte : Prop :=
  ∀ (s : State) (a : Addr), (s.own = .ext → exec (.rdbyte a) s = .refused .notOwned) ∧
    (Held s → ∃ t e d n1 n2 n3 n4 n5 n6, exec (.rdbyte a) s = .next t ∧ t.trace = s.trace ++ e ∧
      e = [.pins n1 (readAddrPins a), .pins n2 (readActivePins a), .delay n3 .readSettle d, .sample n4 t.smp,
        .pins n5 (readAddrPins a), .pins n6 capturedPins] ∧
      s.now ≤ n1 ∧ n1 ≤ n2 ∧ n2 + s.params.rdSettle ≤ n3 ∧ n3 ≤ n4 ∧ n4 ≤ n5 ∧ n5 ≤ n6 ∧ n6 ≤ t.now ∧
      s.params.rdSettle ≤ d ∧ d ≤ s.params.rdSettle + s.params.stepMax ∧
      readCycles s.pins e = [(a, t.smp)] ∧ writeCycles s.pins e = [] ∧ t.rsp = s.rsp ++ [t.smp] ∧
      Held t ∧ Ended t ∧ KeepsSurroundings s t ∧ t.pbuf = s.pbuf ∧
      (∃ l, (∀ x ∈ l, s.now ≤ x.2 ∧ x.2 ≤ t.now) ∧ t.chip = chipAged s.params l s.chip) ∧
      (StillUntil t.now s.chip.cs → t.chip = s.chip ∧ (s.chip.cs ≠ .idle → ∃ k, t.smp = Config.freeByte k)) ∧
      (s.params.rdSettle ≤ s.params.accChip → ∃ k, t.smp = Config.freeByte k) ∧
      (s.chip.cs = .idle → s.params.accChip < s.params.rdSettle → t.smp = cell s a.toNat))

/-! ### The Page/Erase Sequencer -/

/-- RDPAGE (R164): 128 read cycles at ascending addresses, each byte appended to RSP in order, those of the page if the chip is
idle, whatever the alignment of the base; the very same as 128 RDBYTE; no write cycle; the pins end as they were. Refused while
`OWN = EXT`. In any command state the reads do not touch the chip (R68): it is what the passing of time alone makes of it, and where
time does not move it, it is as it was. -/
def Obligations.RdpageReads128Bytes : Prop :=
  ∀ (s : State) (base : Addr), (s.own = .ext → exec (.rdpage base) s = .refused .notOwned) ∧
    exec (.rdpage base) s = execAll ((List.range 128).map fun i => .rdbyte (addrAt base i)) s ∧
    (Held s → ∃ t e bytes, exec (.rdpage base) s = .next t ∧ t.trace = s.trace ++ e ∧ bytes.length = 128 ∧
      readCycles s.pins e = ((List.range 128).map (addrAt base)).zip bytes ∧ writeCycles s.pins e = [] ∧
      t.rsp = s.rsp ++ bytes ∧ bytes.getLast? = some t.smp ∧ Held t ∧ Ended t ∧ KeepsSurroundings s t ∧
      t.pbuf = s.pbuf ∧
      (∃ l, (∀ x ∈ l, s.now ≤ x.2 ∧ x.2 ≤ t.now) ∧ t.chip = chipAged s.params l s.chip) ∧
      (StillUntil t.now s.chip.cs → t.chip = s.chip) ∧
      (s.chip.cs = .idle → s.params.accChip < s.params.rdSettle →
        bytes = (List.range 128).map fun i => cell s (addrAt base i).toNat))

/-- WRPAGE (R96, R98, R162): exactly 131 write cycles, the command sequence and then the buffer at ascending addresses, no read
cycle, then the program wait as the last delay; the pins end as they were, PBUF, SMP, RSP and the surroundings are not changed.
Any base. (What DLY holds is a statement of its own, DelayTimerHoldsTheLastDelay.) -/
def Obligations.WrpageEmitsThePageWrite : Prop :=
  ∀ (s : State) (base : Addr), Held s →
    ∃ t e d, exec (.wrpage base) s = .next t ∧ t.trace = s.trace ++ e ∧
      (writeCycles s.pins e).map Prod.snd = pageWriteCycles base s.pbuf ∧ readCycles s.pins e = [] ∧
      (delays e).getLast? = some (.program, d) ∧ s.params.progWait ≤ d ∧
      Held t ∧ Ended t ∧ KeepsSurroundings s t ∧ t.pbuf = s.pbuf ∧ t.smp = s.smp ∧ t.rsp = s.rsp

/-- The effect on the chip of a page write with an aligned base (R66, R162): under the constraints on the parameters and the
premise about the chip, the page holds the buffer when the operation ends, every other cell is unchanged, the chip is idle. -/
def Obligations.WrpageProgramsThePage : Prop :=
  ∀ (s : State) (base : Addr), Held s → s.params.Legal → s.params.ChipTimingOK → s.chip.cs = .idle →
    Memory.wf s.params s.chip.flash = true → base.toNat % 128 = 0 →
    ∃ t, exec (.wrpage base) s = .next t ∧ t.chip.cs = .idle ∧ Memory.wf t.params t.chip.flash = true ∧
      ∀ a, a < 65536 →
        cell t a = if a / 128 = base.toNat / 128 then bufByte s.pbuf (a % 128) else cell s a

/-- A page write whose base is not a multiple of 128 completes at the pins all the same, and leaves the chip with no meaning: its
loads reach a second page (R55, R65, R69). The model marks it once (R211), and the cells are free values. -/
def Obligations.UnalignedWrpageHasNoChipMeaning : Prop :=
  ∀ (s : State) (base : Addr), Held s → s.params.Legal → s.params.ChipTimingOK → s.chip.cs = .idle →
    base.toNat % 128 ≠ 0 →
    ∃ t, exec (.wrpage base) s = .next t ∧ t.chip.cs = .noMeaning ∧ (∃ k, t.chip.flash = openFlash s.params k) ∧
      t.marks = s.marks ++ [.chipNoMeaning] ∧ Held t ∧ Ended t

/-- Between the first entry of a page write or an erase and the end of its wait no port changes its direction: every snapshot but
that of the final release drives all three ports (R169, R250). -/
def Obligations.NoDirectionChangeInsideASequence : Prop :=
  ∀ (s : State) (base : Addr), Held s →
    (∃ t e, exec (.wrpage base) s = .next t ∧ t.trace = s.trace ++ e ∧
      ∀ q ∈ snapshots e.dropLast, portsOut q = true) ∧
    (∃ t e, exec .erase s = .next t ∧ t.trace = s.trace ++ e ∧ ∀ q ∈ snapshots e.dropLast, portsOut q = true)

/-- ERASE (R96, R98, R163): exactly six write cycles, no read cycle, then the erase wait as the last delay; the pins end as they
were, PBUF, SMP, RSP and the surroundings are not changed. (What DLY holds is a statement of its own, DelayTimerHoldsTheLastDelay.) -/
def Obligations.EraseEmitsSixWrites : Prop :=
  ∀ s : State, Held s →
    ∃ t e d, exec .erase s = .next t ∧ t.trace = s.trace ++ e ∧
      (writeCycles s.pins e).map Prod.snd =
        [(0x5555#16, 0xAA#8), (0x2AAA#16, 0x55#8), (0x5555#16, 0x80#8),
          (0x5555#16, 0xAA#8), (0x2AAA#16, 0x55#8), (0x5555#16, 0x10#8)] ∧
      readCycles s.pins e = [] ∧ (delays e).getLast? = some (.erase, d) ∧ s.params.eraseWait ≤ d ∧
      Held t ∧ Ended t ∧ KeepsSurroundings s t ∧ t.pbuf = s.pbuf ∧ t.smp = s.smp ∧ t.rsp = s.rsp

/-- The effect on the chip of an erase (R67, R163): every cell holds ERASED_BYTE when the operation ends, whatever the
parameter is. -/
def Obligations.EraseErasesEveryCell : Prop :=
  ∀ s : State, Held s → s.params.Legal → s.params.ChipTimingOK → s.chip.cs = .idle →
    ∃ t, exec .erase s = .next t ∧ t.chip.cs = .idle ∧ ∀ a, cell t a = s.params.erasedByte

/-- PBLOAD (R165): one byte of the buffer, in either mode; no pin, no trace entry, no bus cycle, nothing else: a read cycle in
progress goes on, and the chip is what the passing of time makes of it. -/
def Obligations.PbloadWritesOneByte : Prop :=
  ∀ (s : State) (idx : BufIdx) (data : Byte),
    ∃ t, exec (.pbload idx data) s = .next t ∧
      (∀ k, k < 128 → bufByte t.pbuf k = if k = idx.toNat then data else bufByte s.pbuf k) ∧
      t.pins = s.pins ∧ t.own = s.own ∧ Ended t ∧ KeepsSurroundings s t ∧ t.smp = s.smp ∧ t.rsp = s.rsp ∧ t.dly = s.dly ∧
      t.trace = s.trace ∧ t.access = s.access ∧ s.now ≤ t.now ∧ t.now ≤ s.now + s.params.stepMax ∧
      (∃ n, t.chip = chipElapse s.params n t.now s.chip) ∧ (StillUntil t.now s.chip.cs → t.chip = s.chip)

/-- PBCLR (R166): every byte of the buffer is zero, in either mode; one micro-step, no pin, no trace entry, no bus cycle, nothing
else: a read cycle in progress goes on, and the chip is what the passing of time makes of it. -/
def Obligations.PbclrZeroesTheBuffer : Prop :=
  ∀ s : State,
    microRun 1 (startOp .pbclr s) = exec .pbclr s ∧
    ∃ t, exec .pbclr s = .next t ∧ (∀ k, bufByte t.pbuf k = 0x00#8) ∧
      t.pins = s.pins ∧ t.own = s.own ∧ Ended t ∧ KeepsSurroundings s t ∧ t.smp = s.smp ∧ t.rsp = s.rsp ∧ t.dly = s.dly ∧
      t.trace = s.trace ∧ t.access = s.access ∧ s.now ≤ t.now ∧ t.now ≤ s.now + s.params.stepMax ∧
      (∃ n, t.chip = chipElapse s.params n t.now s.chip) ∧ (StillUntil t.now s.chip.cs → t.chip = s.chip)

/-- `PBFILL b0, ..., bk` with `0 <= k <= 127` (R100): PBCLR, then one PBLOAD for each byte in order; the buffer then holds the bytes
from index 0, and zero beyond them; no pin changes. -/
def Obligations.PbfillFillsAndZeroPads : Prop :=
  ∀ (bs : List Byte) (s : State),
    (1 ≤ bs.length ∧ bs.length ≤ 128 →
      pbfill bs = some (.pbclr :: (List.range bs.length).map fun i => .pbload (BitVec.ofNat 7 i) (bs.getD i 0x00#8))) ∧
    (¬ (1 ≤ bs.length ∧ bs.length ≤ 128) → pbfill bs = none) ∧
    ∀ prog, pbfill bs = some prog →
      ∃ t, execAll prog s = .next t ∧ t.pins = s.pins ∧ t.own = s.own ∧
        ∀ k, k < 128 → bufByte t.pbuf k = bs.getD k 0x00#8

/-! ### Composite commands -/

/-- CMDW (R191): accepted while `OWN = EXT`; the write cycles of the page write, and the bus given back at the end. -/
def Obligations.CmdwEmitsThePageWrite : Prop :=
  ∀ (s : State) (page : PageIdx), Free s →
    ∃ t e, exec (.cmdw page) s = .next t ∧ t.trace = s.trace ++ e ∧
      (writeCycles s.pins e).map Prod.snd = pageWriteCycles (pageBase page) s.pbuf ∧ readCycles s.pins e = [] ∧
      Free t ∧ Ended t ∧ KeepsSurroundings s t ∧ t.pbuf = s.pbuf ∧ t.smp = s.smp ∧ t.rsp = s.rsp

/-- The effect on the chip of CMDW (R191): page `p` holds the buffer, every other cell is unchanged. -/
def Obligations.CmdwProgramsThePage : Prop :=
  ∀ (s : State) (page : PageIdx), Free s → s.params.Legal → s.params.ChipTimingOK → s.chip.cs = .idle →
    Memory.wf s.params s.chip.flash = true →
    ∃ t, exec (.cmdw page) s = .next t ∧ t.chip.cs = .idle ∧ Memory.wf t.params t.chip.flash = true ∧
      ∀ a, a < 65536 → cell t a = if a / 128 = page.toNat then bufByte s.pbuf (a % 128) else cell s a

/-- CMDD (R192): accepted while `OWN = EXT`; 128 bytes appended to RSP, those of the page if the chip is idle; the bus given back;
in any command state the chip is what the passing of time alone makes of it (R68). -/
def Obligations.CmddDumpsThePage : Prop :=
  ∀ (s : State) (page : PageIdx), Free s →
    ∃ t bytes, exec (.cmdd page) s = .next t ∧ t.rsp = s.rsp ++ bytes ∧ bytes.length = 128 ∧
      Free t ∧ Ended t ∧ KeepsSurroundings s t ∧ t.pbuf = s.pbuf ∧
      (∃ l, (∀ x ∈ l, s.now ≤ x.2 ∧ x.2 ≤ t.now) ∧ t.chip = chipAged s.params l s.chip) ∧
      (StillUntil t.now s.chip.cs → t.chip = s.chip) ∧
      (s.chip.cs = .idle → s.params.accChip < s.params.rdSettle →
        bytes = (List.range 128).map (fun i => cell s (128 * page.toNat + i)))

/-- CMDE (R193): accepted while `OWN = EXT`; the six write cycles, the bus given back, every cell ERASED_BYTE. -/
def Obligations.CmdeErasesTheChip : Prop :=
  ∀ s : State, Free s →
    ∃ t e, exec .cmde s = .next t ∧ t.trace = s.trace ++ e ∧ (writeCycles s.pins e).map Prod.snd = eraseWriteCycles ∧
      readCycles s.pins e = [] ∧ Free t ∧ Ended t ∧ KeepsSurroundings s t ∧ t.pbuf = s.pbuf ∧ t.smp = s.smp ∧
      t.rsp = s.rsp ∧
      (s.params.Legal → s.params.ChipTimingOK → s.chip.cs = .idle →
        t.chip.cs = .idle ∧ ∀ a, cell t a = s.params.erasedByte)

/-- Composite and primitive forms agree in every state, to the last field (R195). -/
def Obligations.CompositeEqualsPrimitives : Prop :=
  ∀ (s : State) (page : PageIdx),
    exec (.cmdw page) s = execAll [.capture, .wrpage (pageBase page), .release] s ∧
    exec (.cmdd page) s = execAll [.capture, .rdpage (pageBase page), .release] s ∧
    exec .cmde s = execAll [.capture, .erase, .release] s

/-- The round-trip law (R77): a page write and then a page read of the same aligned base append exactly the buffer to RSP. -/
def Obligations.RoundTrip : Prop :=
  ∀ (s : State) (base : Addr), Held s → s.params.Legal → s.params.ChipTimingOK → s.chip.cs = .idle →
    Memory.wf s.params s.chip.flash = true → base.toNat % 128 = 0 →
    ∃ t, execAll [.wrpage base, .rdpage base] s = .next t ∧ t.rsp = s.rsp ++ s.pbuf.toList

/-! ### The micro-step relation -/

/-- One big step and the micro-steps agree (R30, R190): on a state whose latch holds a word of the operation, executing its
micro-steps one by one, as many as the spec counts, ends in the very state `exec` gives, and until the last one the block is
busy (R29). -/
def Obligations.MicroStepsGiveExec : Prop :=
  ∀ (s : State) (w : CmdWord) (i : Instr), decode w = .ok i → s.aReg = fieldA w → s.bReg = fieldB w →
    refusedWhen s.own i.op = none →
      microRun (Op.microCount i.op) (startOp i.op s) = exec i s ∧
      ∀ k, k < Op.microCount i.op → ∃ u, microRun k (startOp i.op s) = .next u ∧ u.busy = true

/-! ### Invariants and whole-machine rules -/

/-- The FSM of the control lines (R36, R197): every step of every state that follows it, micro-step or whole operation, gives
a state that follows it. -/
def Obligations.StepKeepsPinsFollowSeq : Prop :=
  ∀ s t : State, PinsFollowSeq s → step s = .next t → PinsFollowSeq t

/-- The reset state follows the FSM, whatever the parameters and the chip's contents (R231). -/
def Obligations.ResetFollowsSeq : Prop :=
  ∀ (p : Params) (f : List Host.Cell), PinsFollowSeq (State.resetWith p f)

/-- A state that follows the FSM has no clash and no contention, owns the bus exactly while the buffer is off, and is at rest
whenever it is not busy (R28, R36, R37, R38). -/
def Obligations.FollowingSeqIsSafe : Prop :=
  ∀ s : State, PinsFollowSeq s →
    NoOeWeClash s.pins ∧ NoContention s.pins ∧ (s.own = .ext ↔ s.pins.boe = .low) ∧ (s.busy = false → AtRest s)

/-- The recorder never sees a clash or a contention: a step of a state that follows the FSM appends safe snapshots only, those
of a whole operation included (R37, R38, R246, R247). -/
def Obligations.StepKeepsTraceSafe : Prop :=
  ∀ s t : State, PinsFollowSeq s → TraceSafe s → step s = .next t → TraceSafe t

/-- The machine never stops from a state that follows the FSM (R210: a word completes or is refused before it starts). -/
def Obligations.StepAlwaysAnswers : Prop :=
  ∀ s : State, PinsFollowSeq s → ∃ t, step s = .next t

/-- The only stop: a busy state whose SEQ names no micro-step, which no rule gives a step (the model's choice, log entry 20). -/
def Obligations.FaultsOnlyWithoutMicroStep : Prop :=
  ∀ s : State,
    (step s = .fault .noMicroStep ↔
      s.busy = true ∧ (s.seq = .idle ∨ ∃ op u i, s.seq = .run op u i ∧ Op.has op i u = false)) ∧
    ∀ r, step s ≠ .refused r

/-- The flash cells keep their canonical form at every step (the model's own form of R50). -/
def Obligations.StepKeepsMemoryCanonical : Prop :=
  ∀ s t : State, Memory.wf s.params s.chip.flash = true → step s = .next t → Memory.wf t.params t.chip.flash = true

/-- The cells of the reset state are in canonical form. -/
def Obligations.ResetMemoryCanonical : Prop :=
  Memory.wf State.reset.params State.reset.chip.flash = true

/-- The parameters are constants: no step changes them, so their constraints hold throughout (R6), as they do at reset. -/
def Obligations.ParametersAreConstant : Prop :=
  (∀ s t : State, step s = .next t → t.params = s.params) ∧
    State.reset.params.Legal ∧ State.reset.params.ChipTimingOK

/-- Ownership changes only by a capture or a release (R28, R122): at C1 or L5 of a busy block, or by a CAPTURE or RELEASE word. -/
def Obligations.OwnershipChangesOnlyByCaptureRelease : Prop :=
  ∀ s t : State, step s = .next t → t.own ≠ s.own →
    (s.busy = true ∧ ((∃ op i, s.seq = .run op .c1 i ∧ t.own = .ctrl) ∨ ∃ op i, s.seq = .run op .l5 i ∧ t.own = .ext)) ∨
    (s.busy = false ∧ ∃ w rest, s.inputs = .word w :: rest ∧
      ((decode w = .ok .capture ∧ s.own = .ext) ∨ (decode w = .ok .release ∧ s.own = .ctrl)))

/-- RSP and the pin trace are only appended to, and NOW never decreases (R11, R13, R33); nor is a refusal that was marked (R196)
ever unmarked: the list of marks is the model's own (log entry 2). -/
def Obligations.RecordsOnlyGrow : Prop :=
  ∀ s t : State, step s = .next t →
    (∃ l, t.rsp = s.rsp ++ l) ∧ (∃ l, t.trace = s.trace ++ l) ∧ (∃ l, t.marks = s.marks ++ l) ∧ s.now ≤ t.now

/-- The page buffer is written by PBLOAD and PBCLR only (R32, R249). -/
def Obligations.BufferWrittenOnlyByLoadAndClear : Prop :=
  ∀ s t : State, step s = .next t → t.pbuf ≠ s.pbuf →
    (s.busy = true ∧ ∃ op u i, s.seq = .run op u i ∧ (u = .pbload ∨ u = .pbclr)) ∨
    (s.busy = false ∧ ∃ w rest i, s.inputs = .word w :: rest ∧ decode w = .ok i ∧ (i.op = .pbload ∨ i.op = .pbclr))

/-! ### Time -/

/-- Delays are floors (R240 to R244, R251): every delay a step appends lasts at least the source's floor and its parameter, and at
most `T_STEP_MAX` more (R11). -/
def Obligations.DelaysKeepTheirFloors : Prop :=
  ∀ s t : State, s.params.Legal → step s = .next t →
    ∃ e, t.trace = s.trace ++ e ∧
      ∀ k d, (k, d) ∈ delays e →
        (delayBounds s.params k).1 ≤ d ∧ (delayBounds s.params k).2 ≤ d ∧
          d ≤ (delayBounds s.params k).2 + s.params.stepMax

/-- The load gap (R167, R245): consecutive write cycles of a page write are at most `T_WP + T_WR_REC + 5 * T_STEP_MAX` apart,
falling edge to falling edge, hence at most `T_LOAD_GAP_MAX`, and at least the dwell and the recovery. -/
def Obligations.LoadGapHolds : Prop :=
  ∀ (s : State) (base : Addr), Held s → s.params.Legal →
    ∃ t e, exec (.wrpage base) s = .next t ∧ t.trace = s.trace ++ e ∧
      ∀ k x y, (writeCycles s.pins e)[k]? = some x → (writeCycles s.pins e)[k + 1]? = some y →
        y.1 ≤ x.1 + (s.params.wp + s.params.wrRec + 5 * s.params.stepMax) ∧ y.1 ≤ x.1 + loadGapMax ∧
          x.1 + s.params.wp + s.params.wrRec ≤ y.1

/-- How long an operation lasts (R11, R253): its delays, and at most one `T_STEP_MAX` more for each of its micro-steps. -/
def Obligations.DurationsWithinBounds : Prop :=
  ∀ (s t : State) (i : Instr), exec i s = .next t →
    s.now + nominalTime s.params i.op ≤ t.now ∧
      t.now ≤ s.now + nominalTime s.params i.op + Op.microCount i.op * s.params.stepMax

/-! ### The chip and the lines -/

/-- The unlock transitions (R64). -/
def Obligations.ChipUnlocks : Prop :=
  ∀ (p : Params) (n t : Nat),
    chipDecode p n 0x5555#16 0xAA#8 t .idle = .u1 ∧ chipDecode p n 0x2AAA#16 0x55#8 t .u1 = .u2 ∧
    chipDecode p n 0x5555#16 0xA0#8 t .u2 = .load none PageLatch.empty t ∧ chipDecode p n 0x5555#16 0x80#8 t .u2 = .e3

/-- The erase transitions (R67): the confirming write starts an erase cycle that ends at most `T_EC_CHIP` later; when it has
ended the chip is idle and every cell is `ERASED_BYTE`. From the confirming write on, and at every instant at which the cycle runs,
every cell is a free value. Of a chip slower than assumed (R70, U6) every cell is one after the cycle too, and
keeps it: the value depends on the cycle alone (log entry 25). -/
def Obligations.ChipErases : Prop :=
  ∀ (p : Params) (n t : Nat),
    chipDecode p n 0x5555#16 0xAA#8 t .e3 = .e4 ∧ chipDecode p n 0x2AAA#16 0x55#8 t .e4 = .e5 ∧
    (∃ td dr, chipDecode p n 0x5555#16 0x10#8 t .e5 = .erase t td dr ∧ t ≤ td ∧ td ≤ t + p.ecChip) ∧
    (∀ c : Chip, c.cs = .e5 → (chipWrite p n 0x5555#16 0x10#8 t c).flash = openFlash p n) ∧
    ∀ (c : Chip) (td dr t' : Nat), c.cs = .erase t td dr → td ≤ t + p.ecChip →
      (t' < td → chipSettle p t' (chipElapse p n t' c) = { c with flash := openFlash p n }) ∧
      (td ≤ t' → (chipSettle p t' (chipElapse p n t' c)).cs = .idle ∧
        (p.ChipTimingOK → ∀ a, Memory.read p (chipSettle p t' (chipElapse p n t' c)).flash a = p.erasedByte) ∧
        (¬ p.ChipTimingOK → (chipSettle p t' (chipElapse p n t' c)).flash = leftCells p dr))

/-- A load (R65): within the gap, the first one fixes the page, later ones go to its latch, a load to another page has no
meaning; after the gap no load has one. -/
def Obligations.ChipLoads : Prop :=
  ∀ (p : Params) (n : Nat) (a : Addr) (d : Byte) (t tLast : Nat) (lb : PageLatch) (q : PageIdx),
    (t ≤ tLast + 200000 →
      chipDecode p n a d t (.load none PageLatch.empty tLast) =
        .load (some (pageOf a)) (PageLatch.put PageLatch.empty (offsetOf a) d) t ∧
      (q = pageOf a →
        chipDecode p n a d t (.load (some q) lb tLast) = .load (some q) (PageLatch.put lb (offsetOf a) d) t) ∧
      (q ≠ pageOf a → chipDecode p n a d t (.load (some q) lb tLast) = .noMeaning)) ∧
    (tLast + 200000 < t →
      chipDecode p n a d t (.load (some q) lb tLast) = .noMeaning ∧ chipDecode p n a d t (.load none lb tLast) = .noMeaning)

/-- In each command state, every write cycle R64, R65 and R67 do not list has no meaning (R69): in `C_LOAD` those are a load to a
second page and a load after the gap. From then on every cell is a free value, and neither a later write, nor any change of the
pins, nor time gives the chip a meaning again (that it never regains one is the model's choice, log entry 3). -/
def Obligations.ChipGivesNothingElseAMeaning : Prop :=
  ∀ (p : Params) (n : Nat) (a : Addr) (d : Byte) (t : Nat),
    (chipDecode p n a d t .idle = .noMeaning ↔ ¬ (a = 0x5555#16 ∧ d = 0xAA#8)) ∧
    (chipDecode p n a d t .u1 = .noMeaning ↔ ¬ (a = 0x2AAA#16 ∧ d = 0x55#8)) ∧
    (chipDecode p n a d t .u2 = .noMeaning ↔ ¬ (a = 0x5555#16 ∧ (d = 0xA0#8 ∨ d = 0x80#8))) ∧
    (chipDecode p n a d t .e3 = .noMeaning ↔ ¬ (a = 0x5555#16 ∧ d = 0xAA#8)) ∧
    (chipDecode p n a d t .e4 = .noMeaning ↔ ¬ (a = 0x2AAA#16 ∧ d = 0x55#8)) ∧
    (chipDecode p n a d t .e5 = .noMeaning ↔ ¬ (a = 0x5555#16 ∧ d = 0x10#8)) ∧
    (∀ pg lb tl, chipDecode p n a d t (.load pg lb tl) = .noMeaning ↔
      tl + 200000 < t ∨ ∃ q, pg = some q ∧ q ≠ pageOf a) ∧
    (∀ pg lb tl td dr, chipDecode p n a d t (.prog pg lb tl td dr) = .noMeaning) ∧
    (∀ ts td dr, chipDecode p n a d t (.erase ts td dr) = .noMeaning) ∧
    chipDecode p n a d t .noMeaning = .noMeaning ∧
    (∀ c : Chip, (chipWrite p n a d t c).cs = .noMeaning → (chipWrite p n a d t c).flash = openFlash p n) ∧
    ∀ c : Chip, c.cs = .noMeaning →
      (chipElapse p n t c).cs = .noMeaning ∧ (chipElapse p n t c).flash = openFlash p n ∧
        (chipSettle p t c).cs = .noMeaning ∧ ∀ old new, (chipSees p n old new t c).cs = .noMeaning

/-- The program cycle (R66): it starts when the load window has run out, ends between then and `t_last + T_WC_CHIP`; while it runs the
cells of the page are free values and every other cell holds what it held; when it has ended the chip is idle, the page holds its
loads, every other cell what it held. Of a chip slower than assumed (R70, U6) every cell is a free value from the start of the cycle
on, after its end too, where it keeps it (log entry 25). -/
def Obligations.ChipCommitsThePage : Prop :=
  ∀ (p : Params) (n t tLast : Nat) (pg : PageIdx) (lb : PageLatch) (c : Chip),
    Memory.wf p c.flash = true → loadGapMax < p.wcChip → c.cs = .load (some pg) lb tLast →
      (t ≤ tLast + loadGapMax → chipElapse p n t c = c) ∧
      (tLast + loadGapMax < t → t < tLast + p.wcChip →
        ∃ td dr, (chipElapse p n t c).cs = .prog pg lb tLast td dr ∧
          tLast + loadGapMax ≤ td ∧ td ≤ tLast + p.wcChip ∧
          (p.ChipTimingOK → ∀ a, Memory.read p (chipElapse p n t c).flash a =
            if a / 128 = pg.toNat then Config.freePage n (a % 128) else Memory.read p c.flash a) ∧
          (¬ p.ChipTimingOK → (chipElapse p n t c).flash = openFlash p n) ∧
          ∀ t', td ≤ t' →
            (chipSettle p t' (chipElapse p n t c)).cs = .idle ∧
            (p.ChipTimingOK → ∀ a, Memory.read p (chipSettle p t' (chipElapse p n t c)).flash a =
              if a / 128 = pg.toNat then latchByte dr lb (a % 128) else Memory.read p c.flash a) ∧
            (¬ p.ChipTimingOK → (chipSettle p t' (chipElapse p n t c)).flash = leftCells p dr)) ∧
      (tLast + p.wcChip ≤ t →
        (chipElapse p n t c).cs = .idle ∧
        (p.ChipTimingOK → ∀ a, Memory.read p (chipElapse p n t c).flash a =
          if a / 128 = pg.toNat then latchByte n lb (a % 128) else Memory.read p c.flash a) ∧
        (¬ p.ChipTimingOK → (chipElapse p n t c).flash = leftCells p n))

/-- The levels, the address and the data on the shared bus (R27, R71): the block's where it drives, the external master's through the
buffer where it does not. -/
def Obligations.LevelsTheChipSees : Prop :=
  ∀ (s : State) (n : Nat),
    (s.pins.ce.dir = .out → ceLevel s n = s.pins.ce.val) ∧
    (s.pins.ce.dir = .inp → s.pins.boe = .low → ceLevel s n = s.master.ce) ∧
    (s.pins.al.dir = .out → s.pins.ah.dir = .out → addrSeen s n = joinAddr s.pins.ah.val s.pins.al.val) ∧
    (s.pins.al.dir = .inp → s.pins.ah.dir = .inp → s.pins.boe = .low → addrSeen s n = s.master.addr) ∧
    (s.pins.dq.dir = .out → dataLines s n = s.pins.dq.val) ∧
    (s.pins.dq.dir = .inp → s.pins.boe = .low → chipDrives s.pins s.master = false →
      ∀ d, s.master.data = some d → dataLines s n = d)

/-- What reset leaves (R39, R231), for every parameter and every contents of the chip, which reset does not touch. -/
def Obligations.ResetState : Prop :=
  (∀ (p : Params) (f : List Host.Cell),
    let s := State.resetWith p f
    s.pins.al = ⟨.inp, 0x00#8⟩ ∧ s.pins.ah = ⟨.inp, 0x00#8⟩ ∧ s.pins.dq = ⟨.inp, 0x00#8⟩ ∧ s.pins.ce.dir = .inp ∧
      s.pins.oe = .low ∧ s.pins.we = .high ∧ s.pins.boe = .low ∧ s.own = .ext ∧ s.busy = false ∧ s.seq = .idle ∧
      s.rsp = [] ∧ s.chip.flash = f ∧ s.chip.cs = .idle) ∧
    ∃ (p : Params) (f : List Host.Cell), State.reset = State.resetWith p f

/-! ### The read cycle in progress and the delay timer -/

/-- What a read cycle shows (R61): newly asserted at time `t`, it holds the cell of an idle chip as it is at that moment, and nothing
of a chip that is not idle; it goes on unchanged while the lines assert it at the same address, and ends when they assert none. On
the data lines stands that cell once the access time has passed since the assertion, and any value before. (That it is not shown yet at the very instant the access time ends is the model's choice, log entry 15. A chip whose access time is not below the
settle shows any value at all times: R70 and R143, log entry 25.) -/
def Obligations.ReadShowsTheCellOfTheAssertion : Prop :=
  (∀ (s : State) (q : Pins) (m : Master) (t : Nat) (c : Chip),
    (readAddr q m = none → readNext s q m t c = none) ∧
    ∀ a, chipDrives q m = true → addrDriven q m = some a →
      (readAddr s.pins s.master = some a → readNext s q m t c = s.access) ∧
      (readAddr s.pins s.master ≠ some a → (chipSettle s.params t c).cs = .idle →
        readNext s q m t c = some ⟨a, t, some (Memory.read s.params (chipSettle s.params t c).flash a.toNat)⟩) ∧
      (readAddr s.pins s.master ≠ some a → (chipSettle s.params t c).cs ≠ .idle →
        readNext s q m t c = some ⟨a, t, none⟩)) ∧
  (∀ (s : State) (n : Nat) (r : ReadAccess), s.pins.dq.dir = .inp → chipDrives s.pins s.master = true →
    masterDrives s.pins s.master = none → s.access = some r →
      (∀ v, r.data = some v → s.params.accChip < s.params.rdSettle → r.since + s.params.accChip < s.now →
        dataLines s n = v) ∧
      (s.now ≤ r.since + s.params.accChip ∨ s.params.rdSettle ≤ s.params.accChip ∨ r.data = none →
        dataLines s n = Config.freeByte n))

/-- The read cycle in progress is always the one the lines assert (R61): every step keeps it so, whatever the step is. (The field
that holds it is the model's own, log entry 15.) -/
def Obligations.StepKeepsAccessFollowingLines : Prop :=
  ∀ s t : State, AccessFollowsLines s → step s = .next t → AccessFollowsLines t

/-- At reset no read cycle is in progress, and the lines assert none (the external master's chip enable is high there, a choice of
the model, log entry 13). -/
def Obligations.ResetAccessFollowsLines : Prop :=
  ∀ (p : Params) (f : List Host.Cell), AccessFollowsLines (State.resetWith p f)

/-- What DLY holds after an operation: the duration of its last delay, and what it held before where the operation has none. R34
leaves DLY to the implementation and R143, R144, R162 and R163 do not name it among the state they write: this is the model's choice
(log entry 18). -/
def Obligations.DelayTimerHoldsTheLastDelay : Prop :=
  ∀ (s t : State) (i : Instr), exec i s = .next t →
    ∃ e, t.trace = s.trace ++ e ∧ t.dly = ((delays e).getLast?.map Prod.snd).getD s.dly

/-! ### The write pulse -/

/-- The write pulse (R60, U10): the chip takes the cycle at the falling edge, from the address and data driven then, if all its lines
are driven; a rising edge at least `T_WP_CHIP` later changes nothing; an earlier one, a falling edge without all lines driven and a
change of the pins during the pulse take its meaning away. So a `writeByte` whose pulse is shorter than the chip needs has no meaning,
and one that is long enough is exactly one write cycle. (That the chip is moved at the edges is the reading of log entry 14; the state
without meaning is log entry 3.) -/
def Obligations.ChipJudgesTheWritePulse : Prop :=
  (∀ (p : Params) (n t : Nat) (old new : Pins) (c : Chip),
    (old.mayWrite = false → new.inWriteCycle = true →
      chipSees p n old new t c = chipWrite p n new.addr new.dq.val t c ∧ (chipSees p n old new t c).tFall = t) ∧
    (old.mayWrite = false → new.mayWrite = true → new.inWriteCycle = false → chipSees p n old new t c = chipLost p n c) ∧
    (old.mayWrite = true → new.mayWrite = false → c.tFall + p.wpChip ≤ t → chipSees p n old new t c = c) ∧
    (old.mayWrite = true → new.mayWrite = false → t < c.tFall + p.wpChip → chipSees p n old new t c = chipLost p n c) ∧
    (old.mayWrite = true → new.mayWrite = true → old ≠ new → chipSees p n old new t c = chipLost p n c) ∧
    (old.mayWrite = true → old = new → chipSees p n old new t c = c) ∧
    (old.mayWrite = false → new.mayWrite = false → chipSees p n old new t c = c)) ∧
  ∀ (s : State) (a : Addr) (d : Byte), PinState.sWidle.holds s.pins = true →
    ∃ n1 n2 n3 n4 n5 d3 d5 k l1 l2,
      (writeByte a d s).trace = s.trace ++
        [.pins n1 (drivenPins a d), .pins n2 (pulsePins a d), .delay n3 .writePulse d3, .pins n4 (drivenPins a d),
          .delay n5 .writeRecovery d5] ∧
      (∀ x ∈ l1, s.now ≤ x.2 ∧ x.2 ≤ n2) ∧ (∀ x ∈ l2, n2 ≤ x.2 ∧ x.2 ≤ n5) ∧
      (n2 + s.params.wpChip ≤ n4 → (writeByte a d s).chip =
        chipAged s.params l2 (chipWrite s.params k a d n2 (chipAged s.params l1 s.chip))) ∧
      (n4 < n2 + s.params.wpChip → (writeByte a d s).chip.cs = .noMeaning)
end

