-- ==== Sys2Proof/Laws/Memory.lean ====
section
/-! SUPPORT. The laws of the flash cells: read after write, and that every memory operation keeps the canonical form. -/

namespace Sys2Proof.Machine

@[simp] theorem Memory.read_nil (p : Params) (a : Nat) : Memory.read p [] a = Memory.unlisted p := rfl

/-- Below the bound of a canonical list every cell is unlisted. -/
theorem Memory.read_below (p : Params) : ∀ (m : List Host.Cell) (lo a : Nat),
    Memory.wfFrom p lo m = true → a < lo → Memory.read p m a = Memory.unlisted p
  | [], _, _, _, _ => rfl
  | (k, v) :: rest, lo, a, h, ha => by
    simp only [Memory.wfFrom, Bool.and_eq_true, decide_eq_true_eq] at h
    have hk : k ≠ a := by omega
    simp only [Memory.read, if_neg hk]
    exact Memory.read_below p rest (k + 1) a h.2 (by omega)

theorem Memory.wfFrom_weaken (p : Params) (m : List Host.Cell) (lo lo' : Nat) (hle : lo' ≤ lo)
    (h : Memory.wfFrom p lo m = true) : Memory.wfFrom p lo' m = true := by
  cases m with
  | nil => rfl
  | cons c rest =>
    obtain ⟨k, v⟩ := c
    simp only [Memory.wfFrom, Bool.and_eq_true, decide_eq_true_eq] at h ⊢
    exact ⟨⟨⟨by omega, h.1.1.2⟩, h.1.2⟩, h.2⟩

/-- A read after a write, in a canonical list: the value written there, every other cell as before. -/
theorem Memory.read_write (p : Params) : ∀ (m : List Host.Cell) (lo a b : Nat) (v : Byte),
    Memory.wfFrom p lo m = true → Memory.read p (Memory.write p m a v) b = if a = b then v else Memory.read p m b
  | [], _, a, b, v, _ => by
    by_cases hv : v = Memory.unlisted p <;> simp [Memory.write, Memory.read, hv]
  | (k, w) :: rest, lo, a, b, v, h => by
    simp only [Memory.wfFrom, Bool.and_eq_true, decide_eq_true_eq] at h
    have below := Memory.read_below p rest (k + 1)
    by_cases h1 : a < k
    · by_cases hv : v = Memory.unlisted p
      · by_cases hab : a = b
        · subst hab
          have hk : k ≠ a := by omega
          simp [Memory.write, h1, hv, Memory.read, hk, below a h.2 (by omega)]
        · simp [Memory.write, h1, hv, hab]
      · simp [Memory.write, h1, hv, Memory.read]
    · by_cases h2 : a = k
      · subst h2
        by_cases hv : v = Memory.unlisted p
        · by_cases hab : a = b
          · subst hab
            simp [Memory.write, hv, below a h.2 (by omega)]
          · simp [Memory.write, hv, hab, Memory.read]
        · by_cases hab : a = b <;> simp [Memory.write, hv, hab, Memory.read]
      · simp only [Memory.write, if_neg h1, if_neg h2, Memory.read]
        rw [Memory.read_write p rest (k + 1) a b v h.2]
        by_cases hkb : k = b
        · have : a ≠ b := by omega
          simp [hkb, this]
        · simp [hkb]

/-- A write keeps the canonical form. -/
theorem Memory.wfFrom_write (p : Params) : ∀ (m : List Host.Cell) (lo a : Nat) (v : Byte),
    Memory.wfFrom p lo m = true → lo ≤ a → a < flashSize → Memory.wfFrom p lo (Memory.write p m a v) = true
  | [], lo, a, v, _, hlo, ha => by
    by_cases hv : v = Memory.unlisted p <;> simp [Memory.write, Memory.wfFrom, hv, hlo, ha]
  | (k, w) :: rest, lo, a, v, h, hlo, ha => by
    have h' := h
    simp only [Memory.wfFrom, Bool.and_eq_true, decide_eq_true_eq] at h
    by_cases h1 : a < k
    · by_cases hv : v = Memory.unlisted p
      · simpa [Memory.write, h1, hv] using h'
      · simp only [Memory.write, if_pos h1, if_neg hv, Memory.wfFrom, Bool.and_eq_true, decide_eq_true_eq]
        exact ⟨⟨⟨hlo, ha⟩, hv⟩, ⟨⟨by omega, h.1.1.2⟩, h.1.2⟩, h.2⟩
    · by_cases h2 : a = k
      · subst h2
        by_cases hv : v = Memory.unlisted p
        · simp only [Memory.write, if_neg h1, if_pos hv, if_true]
          exact Memory.wfFrom_weaken p rest (a + 1) lo (by omega) h.2
        · simp only [Memory.write, if_neg h1, if_neg hv, if_true, Memory.wfFrom, Bool.and_eq_true, decide_eq_true_eq]
          exact ⟨⟨⟨hlo, ha⟩, hv⟩, h.2⟩
      · simp only [Memory.write, if_neg h1, if_neg h2, Memory.wfFrom, Bool.and_eq_true, decide_eq_true_eq]
        exact ⟨h.1, Memory.wfFrom_write p rest (k + 1) a v h.2 (by omega) ha⟩

theorem Memory.wf_write (p : Params) (m : List Host.Cell) (a : Nat) (v : Byte) (h : Memory.wf p m = true)
    (ha : a < flashSize) : Memory.wf p (Memory.write p m a v) = true :=
  Memory.wfFrom_write p m 0 a v h (Nat.zero_le a) ha

/-- Every offset of every page is an address of the flash. -/
theorem page_offset_lt (pg : PageIdx) (k : Nat) (hk : k < pageSize) : pageSize * pg.toNat + k < flashSize := by
  have := pg.isLt
  simp only [pageSize, flashSize] at *
  omega

/-- A list of any kind is made canonical. -/
theorem Memory.wf_ofCells (p : Params) : ∀ l : List Host.Cell, Memory.wf p (Memory.ofCells p l) = true
  | [] => rfl
  | (a, v) :: rest => Memory.wf_write p _ _ v (Memory.wf_ofCells p rest) (Nat.mod_lt a (by decide))

theorem wf_openFlash (p : Params) (n : Nat) : Memory.wf p (openFlash p n) = true :=
  Memory.wf_ofCells p (Config.freeFlash n)

theorem wf_leftCells (p : Params) (n : Nat) : Memory.wf p (leftCells p n) = true :=
  Memory.wf_ofCells p (Config.leftFlash n)

theorem Memory.wf_fillFirst (p : Params) (pg : PageIdx) (f : Nat → Byte) : ∀ (k : Nat) (m : List Host.Cell),
    k ≤ pageSize → Memory.wf p m = true → Memory.wf p (fillFirst p pg f k m) = true
  | 0, _, _, h => h
  | k + 1, _, hk, h =>
    Memory.wf_fillFirst p pg f k _ (by omega) (Memory.wf_write p _ _ _ h (page_offset_lt pg k (by omega)))

/-- The commit of a page keeps the canonical form. -/
theorem Memory.wf_commitPage (p : Params) (n : Nat) (pg : PageIdx) (lb : PageLatch) (m : List Host.Cell)
    (h : Memory.wf p m = true) : Memory.wf p (commitPage p n pg lb m) = true :=
  Memory.wf_fillFirst p pg (latchByte n lb) pageSize m (le_refl _) h

theorem wf_openPage (p : Params) (n : Nat) (pg : PageIdx) (m : List Host.Cell) (h : Memory.wf p m = true) :
    Memory.wf p (openPage p n pg m) = true :=
  Memory.wf_fillFirst p pg (Config.freePage n) pageSize m (le_refl _) h

theorem read_fillFirst (p : Params) (pg : PageIdx) (f : Nat → Byte) (b : Nat) : ∀ (k : Nat) (m : List Host.Cell),
    k ≤ pageSize → Memory.wf p m = true →
      Memory.read p (fillFirst p pg f k m) b =
        if pageSize * pg.toNat ≤ b ∧ b < pageSize * pg.toNat + k then f (b - pageSize * pg.toNat)
        else Memory.read p m b
  | 0, m, _, _ => by
    have : ¬(pageSize * pg.toNat ≤ b ∧ b < pageSize * pg.toNat + 0) := by omega
    simp only [fillFirst, if_neg this]
  | k + 1, m, hk, h => by
    have hw := Memory.wf_write p m (pageSize * pg.toNat + k) (f k) h (page_offset_lt pg k (by omega))
    rw [fillFirst, read_fillFirst p pg f b k _ (by omega) hw, Memory.read_write p m 0 _ b _ h]
    by_cases h1 : pageSize * pg.toNat ≤ b ∧ b < pageSize * pg.toNat + k
    · have h2 : pageSize * pg.toNat ≤ b ∧ b < pageSize * pg.toNat + (k + 1) := by omega
      rw [if_pos h1, if_pos h2]
    · rw [if_neg h1]
      by_cases h3 : pageSize * pg.toNat + k = b
      · have h2 : pageSize * pg.toNat ≤ b ∧ b < pageSize * pg.toNat + (k + 1) := by omega
        rw [if_pos h3, if_pos h2]
        congr 1
        omega
      · have h2 : ¬(pageSize * pg.toNat ≤ b ∧ b < pageSize * pg.toNat + (k + 1)) := by omega
        rw [if_neg h3, if_neg h2]

/-- A filled page holds the bytes it was given, and every other cell what it held. -/
theorem read_fillPage (p : Params) (pg : PageIdx) (f : Nat → Byte) (m : List Host.Cell) (b : Nat)
    (h : Memory.wf p m = true) :
    Memory.read p (fillFirst p pg f pageSize m) b =
      if b / pageSize = pg.toNat then f (b % pageSize) else Memory.read p m b := by
  rw [read_fillFirst p pg f b pageSize m (le_refl _) h]
  have hiff : (pageSize * pg.toNat ≤ b ∧ b < pageSize * pg.toNat + pageSize) ↔ b / pageSize = pg.toNat := by
    simp only [pageSize]
    omega
  by_cases hb : b / pageSize = pg.toNat
  · rw [if_pos (hiff.mpr hb), if_pos hb]
    congr 1
    simp only [pageSize] at *
    omega
  · rw [if_neg (fun hc => hb (hiff.mp hc)), if_neg hb]

/-- After the commit a cell of the page holds its latched byte, and every other cell what it held (R66). -/
theorem read_commitPage (p : Params) (n : Nat) (pg : PageIdx) (lb : PageLatch) (m : List Host.Cell) (b : Nat)
    (h : Memory.wf p m = true) :
    Memory.read p (commitPage p n pg lb m) b =
      if b / pageSize = pg.toNat then latchByte n lb (b % pageSize) else Memory.read p m b :=
  read_fillPage p pg (latchByte n lb) m b h

/-- While the page is being programmed its cells are free values, and every other cell holds what it held (R66). -/
theorem read_openPage (p : Params) (n : Nat) (pg : PageIdx) (m : List Host.Cell) (b : Nat) (h : Memory.wf p m = true) :
    Memory.read p (openPage p n pg m) b =
      if b / pageSize = pg.toNat then Config.freePage n (b % pageSize) else Memory.read p m b :=
  read_fillPage p pg (Config.freePage n) m b h

end Sys2Proof.Machine
end

