-- ==== Sys2Proof/Laws/State.lean ====
section
/-! SUPPORT. One lemma per field per shared update, true by rfl, so that no later proof unfolds a record update; and which of its three moves a step makes. -/

namespace Sys2Proof.Machine

variable (s : State)

@[simp] theorem pass_pins (d : Nat) : (pass d s).pins = s.pins := rfl
@[simp] theorem pass_own (d : Nat) : (pass d s).own = s.own := rfl
@[simp] theorem pass_busy (d : Nat) : (pass d s).busy = s.busy := rfl
@[simp] theorem pass_seq (d : Nat) : (pass d s).seq = s.seq := rfl
@[simp] theorem pass_opReg (d : Nat) : (pass d s).opReg = s.opReg := rfl
@[simp] theorem pass_aReg (d : Nat) : (pass d s).aReg = s.aReg := rfl
@[simp] theorem pass_bReg (d : Nat) : (pass d s).bReg = s.bReg := rfl
@[simp] theorem pass_pbuf (d : Nat) : (pass d s).pbuf = s.pbuf := rfl
@[simp] theorem pass_smp (d : Nat) : (pass d s).smp = s.smp := rfl
@[simp] theorem pass_rsp (d : Nat) : (pass d s).rsp = s.rsp := rfl
@[simp] theorem pass_dly (d : Nat) : (pass d s).dly = s.dly := rfl
@[simp] theorem pass_chip (d : Nat) : (pass d s).chip = chipElapse s.params s.draws (s.now + d) s.chip := rfl
@[simp] theorem pass_access (d : Nat) : (pass d s).access = s.access := rfl
@[simp] theorem pass_master (d : Nat) : (pass d s).master = s.master := rfl
@[simp] theorem pass_params (d : Nat) : (pass d s).params = s.params := rfl
@[simp] theorem pass_now (d : Nat) : (pass d s).now = s.now + d := rfl
@[simp] theorem pass_draws (d : Nat) : (pass d s).draws = s.draws + 1 := rfl
@[simp] theorem pass_trace (d : Nat) : (pass d s).trace = s.trace := rfl
@[simp] theorem pass_marks (d : Nat) : (pass d s).marks = s.marks := rfl
@[simp] theorem pass_inputs (d : Nat) : (pass d s).inputs = s.inputs := rfl

@[simp] theorem passStep_pins : (passStep s).pins = s.pins := rfl
@[simp] theorem passStep_own : (passStep s).own = s.own := rfl
@[simp] theorem passStep_busy : (passStep s).busy = s.busy := rfl
@[simp] theorem passStep_seq : (passStep s).seq = s.seq := rfl
@[simp] theorem passStep_opReg : (passStep s).opReg = s.opReg := rfl
@[simp] theorem passStep_aReg : (passStep s).aReg = s.aReg := rfl
@[simp] theorem passStep_bReg : (passStep s).bReg = s.bReg := rfl
@[simp] theorem passStep_pbuf : (passStep s).pbuf = s.pbuf := rfl
@[simp] theorem passStep_smp : (passStep s).smp = s.smp := rfl
@[simp] theorem passStep_rsp : (passStep s).rsp = s.rsp := rfl
@[simp] theorem passStep_dly : (passStep s).dly = s.dly := rfl
@[simp] theorem passStep_chip : (passStep s).chip = chipElapse s.params s.draws (s.now + s.params.slack s.draws) s.chip := rfl
@[simp] theorem passStep_access : (passStep s).access = s.access := rfl
@[simp] theorem passStep_master : (passStep s).master = s.master := rfl
@[simp] theorem passStep_params : (passStep s).params = s.params := rfl
@[simp] theorem passStep_now : (passStep s).now = s.now + s.params.slack s.draws := rfl
@[simp] theorem passStep_draws : (passStep s).draws = s.draws + 1 := rfl
@[simp] theorem passStep_trace : (passStep s).trace = s.trace := rfl
@[simp] theorem passStep_marks : (passStep s).marks = s.marks := rfl
@[simp] theorem passStep_inputs : (passStep s).inputs = s.inputs := rfl

@[simp] theorem pinUpdate_pins (f : Pins → Pins) : (pinUpdate f s).pins = f s.pins := rfl
@[simp] theorem pinUpdate_own (f : Pins → Pins) : (pinUpdate f s).own = s.own := rfl
@[simp] theorem pinUpdate_busy (f : Pins → Pins) : (pinUpdate f s).busy = s.busy := rfl
@[simp] theorem pinUpdate_seq (f : Pins → Pins) : (pinUpdate f s).seq = s.seq := rfl
@[simp] theorem pinUpdate_opReg (f : Pins → Pins) : (pinUpdate f s).opReg = s.opReg := rfl
@[simp] theorem pinUpdate_aReg (f : Pins → Pins) : (pinUpdate f s).aReg = s.aReg := rfl
@[simp] theorem pinUpdate_bReg (f : Pins → Pins) : (pinUpdate f s).bReg = s.bReg := rfl
@[simp] theorem pinUpdate_pbuf (f : Pins → Pins) : (pinUpdate f s).pbuf = s.pbuf := rfl
@[simp] theorem pinUpdate_smp (f : Pins → Pins) : (pinUpdate f s).smp = s.smp := rfl
@[simp] theorem pinUpdate_rsp (f : Pins → Pins) : (pinUpdate f s).rsp = s.rsp := rfl
@[simp] theorem pinUpdate_dly (f : Pins → Pins) : (pinUpdate f s).dly = s.dly := rfl
@[simp] theorem pinUpdate_chip (f : Pins → Pins) : (pinUpdate f s).chip = chipSees s.params s.draws s.pins (f s.pins) (s.now + s.params.slack s.draws) (passStep s).chip := rfl
@[simp] theorem pinUpdate_access (f : Pins → Pins) : (pinUpdate f s).access = readNext s (f s.pins) s.master (s.now + s.params.slack s.draws) (pinUpdate f s).chip := rfl
@[simp] theorem pinUpdate_master (f : Pins → Pins) : (pinUpdate f s).master = s.master := rfl
@[simp] theorem pinUpdate_params (f : Pins → Pins) : (pinUpdate f s).params = s.params := rfl
@[simp] theorem pinUpdate_now (f : Pins → Pins) : (pinUpdate f s).now = s.now + s.params.slack s.draws := rfl
@[simp] theorem pinUpdate_draws (f : Pins → Pins) : (pinUpdate f s).draws = s.draws + 1 := rfl
@[simp] theorem pinUpdate_trace (f : Pins → Pins) : (pinUpdate f s).trace = s.trace ++ [.pins (s.now + s.params.slack s.draws) (f s.pins)] := rfl
@[simp] theorem pinUpdate_marks (f : Pins → Pins) : (pinUpdate f s).marks = s.marks ++ lostMeaning (passStep s).chip.cs (pinUpdate f s).chip.cs := rfl
@[simp] theorem pinUpdate_inputs (f : Pins → Pins) : (pinUpdate f s).inputs = s.inputs := rfl

@[simp] theorem delay_pins (k : DelayKind) (T : Nat) : (delay k T s).pins = s.pins := rfl
@[simp] theorem delay_own (k : DelayKind) (T : Nat) : (delay k T s).own = s.own := rfl
@[simp] theorem delay_busy (k : DelayKind) (T : Nat) : (delay k T s).busy = s.busy := rfl
@[simp] theorem delay_seq (k : DelayKind) (T : Nat) : (delay k T s).seq = s.seq := rfl
@[simp] theorem delay_opReg (k : DelayKind) (T : Nat) : (delay k T s).opReg = s.opReg := rfl
@[simp] theorem delay_aReg (k : DelayKind) (T : Nat) : (delay k T s).aReg = s.aReg := rfl
@[simp] theorem delay_bReg (k : DelayKind) (T : Nat) : (delay k T s).bReg = s.bReg := rfl
@[simp] theorem delay_pbuf (k : DelayKind) (T : Nat) : (delay k T s).pbuf = s.pbuf := rfl
@[simp] theorem delay_smp (k : DelayKind) (T : Nat) : (delay k T s).smp = s.smp := rfl
@[simp] theorem delay_rsp (k : DelayKind) (T : Nat) : (delay k T s).rsp = s.rsp := rfl
@[simp] theorem delay_dly (k : DelayKind) (T : Nat) : (delay k T s).dly = T + s.params.slack s.draws := rfl
@[simp] theorem delay_chip (k : DelayKind) (T : Nat) : (delay k T s).chip = chipElapse s.params s.draws (s.now + (T + s.params.slack s.draws)) s.chip := rfl
@[simp] theorem delay_access (k : DelayKind) (T : Nat) : (delay k T s).access = s.access := rfl
@[simp] theorem delay_master (k : DelayKind) (T : Nat) : (delay k T s).master = s.master := rfl
@[simp] theorem delay_params (k : DelayKind) (T : Nat) : (delay k T s).params = s.params := rfl
@[simp] theorem delay_now (k : DelayKind) (T : Nat) : (delay k T s).now = s.now + (T + s.params.slack s.draws) := rfl
@[simp] theorem delay_draws (k : DelayKind) (T : Nat) : (delay k T s).draws = s.draws + 1 := rfl
@[simp] theorem delay_trace (k : DelayKind) (T : Nat) : (delay k T s).trace = s.trace ++ [.delay (s.now + (T + s.params.slack s.draws)) k (T + s.params.slack s.draws)] := rfl
@[simp] theorem delay_marks (k : DelayKind) (T : Nat) : (delay k T s).marks = s.marks := rfl
@[simp] theorem delay_inputs (k : DelayKind) (T : Nat) : (delay k T s).inputs = s.inputs := rfl

@[simp] theorem sample_pins : (sample s).pins = s.pins := rfl
@[simp] theorem sample_own : (sample s).own = s.own := rfl
@[simp] theorem sample_busy : (sample s).busy = s.busy := rfl
@[simp] theorem sample_seq : (sample s).seq = s.seq := rfl
@[simp] theorem sample_opReg : (sample s).opReg = s.opReg := rfl
@[simp] theorem sample_aReg : (sample s).aReg = s.aReg := rfl
@[simp] theorem sample_bReg : (sample s).bReg = s.bReg := rfl
@[simp] theorem sample_pbuf : (sample s).pbuf = s.pbuf := rfl
@[simp] theorem sample_smp : (sample s).smp = dataLines (passStep s) s.draws := rfl
@[simp] theorem sample_rsp : (sample s).rsp = s.rsp := rfl
@[simp] theorem sample_dly : (sample s).dly = s.dly := rfl
@[simp] theorem sample_chip : (sample s).chip = (passStep s).chip := rfl
@[simp] theorem sample_access : (sample s).access = s.access := rfl
@[simp] theorem sample_master : (sample s).master = s.master := rfl
@[simp] theorem sample_params : (sample s).params = s.params := rfl
@[simp] theorem sample_now : (sample s).now = s.now + s.params.slack s.draws := rfl
@[simp] theorem sample_draws : (sample s).draws = s.draws + 1 := rfl
@[simp] theorem sample_trace : (sample s).trace = s.trace ++ [.sample (s.now + s.params.slack s.draws) (sample s).smp] := rfl
@[simp] theorem sample_marks : (sample s).marks = s.marks := rfl
@[simp] theorem sample_inputs : (sample s).inputs = s.inputs := rfl

@[simp] theorem emit_pins : (emit s).pins = s.pins := rfl
@[simp] theorem emit_own : (emit s).own = s.own := rfl
@[simp] theorem emit_busy : (emit s).busy = s.busy := rfl
@[simp] theorem emit_seq : (emit s).seq = s.seq := rfl
@[simp] theorem emit_opReg : (emit s).opReg = s.opReg := rfl
@[simp] theorem emit_aReg : (emit s).aReg = s.aReg := rfl
@[simp] theorem emit_bReg : (emit s).bReg = s.bReg := rfl
@[simp] theorem emit_pbuf : (emit s).pbuf = s.pbuf := rfl
@[simp] theorem emit_smp : (emit s).smp = s.smp := rfl
@[simp] theorem emit_rsp : (emit s).rsp = s.rsp ++ [s.smp] := rfl
@[simp] theorem emit_dly : (emit s).dly = s.dly := rfl
@[simp] theorem emit_chip : (emit s).chip = (passStep s).chip := rfl
@[simp] theorem emit_access : (emit s).access = s.access := rfl
@[simp] theorem emit_master : (emit s).master = s.master := rfl
@[simp] theorem emit_params : (emit s).params = s.params := rfl
@[simp] theorem emit_now : (emit s).now = s.now + s.params.slack s.draws := rfl
@[simp] theorem emit_draws : (emit s).draws = s.draws + 1 := rfl
@[simp] theorem emit_trace : (emit s).trace = s.trace := rfl
@[simp] theorem emit_marks : (emit s).marks = s.marks := rfl
@[simp] theorem emit_inputs : (emit s).inputs = s.inputs := rfl

@[simp] theorem begin_pins : (begin s).pins = s.pins := rfl
@[simp] theorem begin_own : (begin s).own = s.own := rfl
@[simp] theorem begin_busy : (begin s).busy = true := rfl
@[simp] theorem begin_seq : (begin s).seq = s.seq := rfl
@[simp] theorem begin_opReg : (begin s).opReg = s.opReg := rfl
@[simp] theorem begin_aReg : (begin s).aReg = s.aReg := rfl
@[simp] theorem begin_bReg : (begin s).bReg = s.bReg := rfl
@[simp] theorem begin_pbuf : (begin s).pbuf = s.pbuf := rfl
@[simp] theorem begin_smp : (begin s).smp = s.smp := rfl
@[simp] theorem begin_rsp : (begin s).rsp = s.rsp := rfl
@[simp] theorem begin_dly : (begin s).dly = s.dly := rfl
@[simp] theorem begin_chip : (begin s).chip = s.chip := rfl
@[simp] theorem begin_access : (begin s).access = s.access := rfl
@[simp] theorem begin_master : (begin s).master = s.master := rfl
@[simp] theorem begin_params : (begin s).params = s.params := rfl
@[simp] theorem begin_now : (begin s).now = s.now := rfl
@[simp] theorem begin_draws : (begin s).draws = s.draws := rfl
@[simp] theorem begin_trace : (begin s).trace = s.trace := rfl
@[simp] theorem begin_marks : (begin s).marks = s.marks := rfl
@[simp] theorem begin_inputs : (begin s).inputs = s.inputs := rfl

@[simp] theorem finish_pins : (finish s).pins = s.pins := rfl
@[simp] theorem finish_own : (finish s).own = s.own := rfl
@[simp] theorem finish_busy : (finish s).busy = false := rfl
@[simp] theorem finish_seq : (finish s).seq = .idle := rfl
@[simp] theorem finish_opReg : (finish s).opReg = s.opReg := rfl
@[simp] theorem finish_aReg : (finish s).aReg = s.aReg := rfl
@[simp] theorem finish_bReg : (finish s).bReg = s.bReg := rfl
@[simp] theorem finish_pbuf : (finish s).pbuf = s.pbuf := rfl
@[simp] theorem finish_smp : (finish s).smp = s.smp := rfl
@[simp] theorem finish_rsp : (finish s).rsp = s.rsp := rfl
@[simp] theorem finish_dly : (finish s).dly = s.dly := rfl
@[simp] theorem finish_chip : (finish s).chip = s.chip := rfl
@[simp] theorem finish_access : (finish s).access = s.access := rfl
@[simp] theorem finish_master : (finish s).master = s.master := rfl
@[simp] theorem finish_params : (finish s).params = s.params := rfl
@[simp] theorem finish_now : (finish s).now = s.now := rfl
@[simp] theorem finish_draws : (finish s).draws = s.draws := rfl
@[simp] theorem finish_trace : (finish s).trace = s.trace := rfl
@[simp] theorem finish_marks : (finish s).marks = s.marks := rfl
@[simp] theorem finish_inputs : (finish s).inputs = s.inputs := rfl

@[simp] theorem latchWord_pins (w : CmdWord) : (latchWord w s).pins = s.pins := rfl
@[simp] theorem latchWord_own (w : CmdWord) : (latchWord w s).own = s.own := rfl
@[simp] theorem latchWord_busy (w : CmdWord) : (latchWord w s).busy = s.busy := rfl
@[simp] theorem latchWord_seq (w : CmdWord) : (latchWord w s).seq = s.seq := rfl
@[simp] theorem latchWord_opReg (w : CmdWord) : (latchWord w s).opReg = fieldOp w := rfl
@[simp] theorem latchWord_aReg (w : CmdWord) : (latchWord w s).aReg = fieldA w := rfl
@[simp] theorem latchWord_bReg (w : CmdWord) : (latchWord w s).bReg = fieldB w := rfl
@[simp] theorem latchWord_pbuf (w : CmdWord) : (latchWord w s).pbuf = s.pbuf := rfl
@[simp] theorem latchWord_smp (w : CmdWord) : (latchWord w s).smp = s.smp := rfl
@[simp] theorem latchWord_rsp (w : CmdWord) : (latchWord w s).rsp = s.rsp := rfl
@[simp] theorem latchWord_dly (w : CmdWord) : (latchWord w s).dly = s.dly := rfl
@[simp] theorem latchWord_chip (w : CmdWord) : (latchWord w s).chip = s.chip := rfl
@[simp] theorem latchWord_access (w : CmdWord) : (latchWord w s).access = s.access := rfl
@[simp] theorem latchWord_master (w : CmdWord) : (latchWord w s).master = s.master := rfl
@[simp] theorem latchWord_params (w : CmdWord) : (latchWord w s).params = s.params := rfl
@[simp] theorem latchWord_now (w : CmdWord) : (latchWord w s).now = s.now := rfl
@[simp] theorem latchWord_draws (w : CmdWord) : (latchWord w s).draws = s.draws := rfl
@[simp] theorem latchWord_trace (w : CmdWord) : (latchWord w s).trace = s.trace := rfl
@[simp] theorem latchWord_marks (w : CmdWord) : (latchWord w s).marks = s.marks := rfl
@[simp] theorem latchWord_inputs (w : CmdWord) : (latchWord w s).inputs = s.inputs := rfl

@[simp] theorem dropWord_pins (r : Refusal) : (dropWord r s).pins = s.pins := rfl
@[simp] theorem dropWord_own (r : Refusal) : (dropWord r s).own = s.own := rfl
@[simp] theorem dropWord_busy (r : Refusal) : (dropWord r s).busy = s.busy := rfl
@[simp] theorem dropWord_seq (r : Refusal) : (dropWord r s).seq = s.seq := rfl
@[simp] theorem dropWord_opReg (r : Refusal) : (dropWord r s).opReg = s.opReg := rfl
@[simp] theorem dropWord_aReg (r : Refusal) : (dropWord r s).aReg = s.aReg := rfl
@[simp] theorem dropWord_bReg (r : Refusal) : (dropWord r s).bReg = s.bReg := rfl
@[simp] theorem dropWord_pbuf (r : Refusal) : (dropWord r s).pbuf = s.pbuf := rfl
@[simp] theorem dropWord_smp (r : Refusal) : (dropWord r s).smp = s.smp := rfl
@[simp] theorem dropWord_rsp (r : Refusal) : (dropWord r s).rsp = s.rsp := rfl
@[simp] theorem dropWord_dly (r : Refusal) : (dropWord r s).dly = s.dly := rfl
@[simp] theorem dropWord_chip (r : Refusal) : (dropWord r s).chip = s.chip := rfl
@[simp] theorem dropWord_access (r : Refusal) : (dropWord r s).access = s.access := rfl
@[simp] theorem dropWord_master (r : Refusal) : (dropWord r s).master = s.master := rfl
@[simp] theorem dropWord_params (r : Refusal) : (dropWord r s).params = s.params := rfl
@[simp] theorem dropWord_now (r : Refusal) : (dropWord r s).now = s.now := rfl
@[simp] theorem dropWord_draws (r : Refusal) : (dropWord r s).draws = s.draws := rfl
@[simp] theorem dropWord_trace (r : Refusal) : (dropWord r s).trace = s.trace := rfl
@[simp] theorem dropWord_marks (r : Refusal) : (dropWord r s).marks = s.marks ++ [r] := rfl
@[simp] theorem dropWord_inputs (r : Refusal) : (dropWord r s).inputs = s.inputs := rfl

@[simp] theorem bufLoad_pins (idx : BufIdx) (data : Byte) : (bufLoad idx data s).pins = s.pins := rfl
@[simp] theorem bufLoad_own (idx : BufIdx) (data : Byte) : (bufLoad idx data s).own = s.own := rfl
@[simp] theorem bufLoad_busy (idx : BufIdx) (data : Byte) : (bufLoad idx data s).busy = s.busy := rfl
@[simp] theorem bufLoad_seq (idx : BufIdx) (data : Byte) : (bufLoad idx data s).seq = s.seq := rfl
@[simp] theorem bufLoad_opReg (idx : BufIdx) (data : Byte) : (bufLoad idx data s).opReg = s.opReg := rfl
@[simp] theorem bufLoad_aReg (idx : BufIdx) (data : Byte) : (bufLoad idx data s).aReg = s.aReg := rfl
@[simp] theorem bufLoad_bReg (idx : BufIdx) (data : Byte) : (bufLoad idx data s).bReg = s.bReg := rfl
@[simp] theorem bufLoad_pbuf (idx : BufIdx) (data : Byte) : (bufLoad idx data s).pbuf = s.pbuf.setIfInBounds idx.toNat data := rfl
@[simp] theorem bufLoad_smp (idx : BufIdx) (data : Byte) : (bufLoad idx data s).smp = s.smp := rfl
@[simp] theorem bufLoad_rsp (idx : BufIdx) (data : Byte) : (bufLoad idx data s).rsp = s.rsp := rfl
@[simp] theorem bufLoad_dly (idx : BufIdx) (data : Byte) : (bufLoad idx data s).dly = s.dly := rfl
@[simp] theorem bufLoad_chip (idx : BufIdx) (data : Byte) : (bufLoad idx data s).chip = (passStep s).chip := rfl
@[simp] theorem bufLoad_access (idx : BufIdx) (data : Byte) : (bufLoad idx data s).access = s.access := rfl
@[simp] theorem bufLoad_master (idx : BufIdx) (data : Byte) : (bufLoad idx data s).master = s.master := rfl
@[simp] theorem bufLoad_params (idx : BufIdx) (data : Byte) : (bufLoad idx data s).params = s.params := rfl
@[simp] theorem bufLoad_now (idx : BufIdx) (data : Byte) : (bufLoad idx data s).now = s.now + s.params.slack s.draws := rfl
@[simp] theorem bufLoad_draws (idx : BufIdx) (data : Byte) : (bufLoad idx data s).draws = s.draws + 1 := rfl
@[simp] theorem bufLoad_trace (idx : BufIdx) (data : Byte) : (bufLoad idx data s).trace = s.trace := rfl
@[simp] theorem bufLoad_marks (idx : BufIdx) (data : Byte) : (bufLoad idx data s).marks = s.marks := rfl
@[simp] theorem bufLoad_inputs (idx : BufIdx) (data : Byte) : (bufLoad idx data s).inputs = s.inputs := rfl

@[simp] theorem bufClear_pins : (bufClear s).pins = s.pins := rfl
@[simp] theorem bufClear_own : (bufClear s).own = s.own := rfl
@[simp] theorem bufClear_busy : (bufClear s).busy = s.busy := rfl
@[simp] theorem bufClear_seq : (bufClear s).seq = s.seq := rfl
@[simp] theorem bufClear_opReg : (bufClear s).opReg = s.opReg := rfl
@[simp] theorem bufClear_aReg : (bufClear s).aReg = s.aReg := rfl
@[simp] theorem bufClear_bReg : (bufClear s).bReg = s.bReg := rfl
@[simp] theorem bufClear_pbuf : (bufClear s).pbuf = Vector.replicate 128 0x00#8 := rfl
@[simp] theorem bufClear_smp : (bufClear s).smp = s.smp := rfl
@[simp] theorem bufClear_rsp : (bufClear s).rsp = s.rsp := rfl
@[simp] theorem bufClear_dly : (bufClear s).dly = s.dly := rfl
@[simp] theorem bufClear_chip : (bufClear s).chip = (passStep s).chip := rfl
@[simp] theorem bufClear_access : (bufClear s).access = s.access := rfl
@[simp] theorem bufClear_master : (bufClear s).master = s.master := rfl
@[simp] theorem bufClear_params : (bufClear s).params = s.params := rfl
@[simp] theorem bufClear_now : (bufClear s).now = s.now + s.params.slack s.draws := rfl
@[simp] theorem bufClear_draws : (bufClear s).draws = s.draws + 1 := rfl
@[simp] theorem bufClear_trace : (bufClear s).trace = s.trace := rfl
@[simp] theorem bufClear_marks : (bufClear s).marks = s.marks := rfl
@[simp] theorem bufClear_inputs : (bufClear s).inputs = s.inputs := rfl

variable {s}

/-- The step of a busy block is its next micro-step (R190). -/
theorem step_busy (h : s.busy = true) : step s = microStep s := by
  simp only [step, stepOnce, h, if_true]

/-- The step of an idle block takes the next thing the outside does (R95, R194). -/
theorem step_input {x : Input} {rest : List Input} (hb : s.busy = false) (hi : s.inputs = x :: rest) :
    step s = takeInput x { s with inputs := rest } := by
  simp only [step, stepOnce, hb, Bool.false_eq_true, if_false, hi]

/-- With nothing to take an idle block sits (R221). -/
theorem step_sits (hb : s.busy = false) (hi : s.inputs = []) : step s = .next s := by
  simp only [step, stepOnce, hb, Bool.false_eq_true, if_false, hi]

end Sys2Proof.Machine
end

