-- ==== Sys2Proof/Laws/Chip.lean ====
section
/-! SUPPORT. What the reference chip's operations can do: which states time does not move, that a lost meaning stays lost and is marked once, that every operation keeps the canonical form of the cells, and when a change of the pins means nothing to the chip. -/

namespace Sys2Proof.Machine

open Sys2Proof.Safety

theorem bounded_le (k x : Nat) : bounded k x ≤ k := by
  cases k with
  | zero => exact le_refl _
  | succ k => exact Nat.le_of_lt_succ (Nat.mod_lt x (by omega))

@[simp] theorem chipCommitted_tFall (p : Params) (pg : PageIdx) (lb : PageLatch) (dr : Nat) (c : Chip) :
    (chipCommitted p pg lb dr c).tFall = c.tFall := by
  simp only [chipCommitted]

@[simp] theorem chipCommitted_cs (p : Params) (pg : PageIdx) (lb : PageLatch) (dr : Nat) (c : Chip) :
    (chipCommitted p pg lb dr c).cs = .idle := by
  simp only [chipCommitted]

@[simp] theorem chipCommitted_flash (p : Params) (pg : PageIdx) (lb : PageLatch) (dr : Nat) (c : Chip) :
    (chipCommitted p pg lb dr c).flash = programmedCells p dr pg lb c.flash := by
  simp only [chipCommitted]

@[simp] theorem chipErased_tFall (p : Params) (dr : Nat) (c : Chip) : (chipErased p dr c).tFall = c.tFall := rfl

@[simp] theorem chipErased_cs (p : Params) (dr : Nat) (c : Chip) : (chipErased p dr c).cs = .idle := rfl

@[simp] theorem chipErased_flash (p : Params) (dr : Nat) (c : Chip) : (chipErased p dr c).flash = erasedCells p dr := rfl

/-- A chip as fast as assumed is left committed (R66). -/
theorem programmedCells_ok {p : Params} (h : p.ChipTimingOK) (n : Nat) (pg : PageIdx) (lb : PageLatch) (m : List Host.Cell) :
    programmedCells p n pg lb m = commitPage p n pg lb m := if_pos h

/-- A chip as fast as assumed is left erased (R67). -/
theorem erasedCells_ok {p : Params} (h : p.ChipTimingOK) (n : Nat) : erasedCells p n = [] := if_pos h

/-- In a chip as fast as assumed only the page being programmed is open (R66). -/
theorem runningCells_ok {p : Params} (h : p.ChipTimingOK) (n : Nat) (pg : PageIdx) (m : List Host.Cell) :
    runningCells p n pg m = openPage p n pg m := if_pos h

theorem wf_programmedCells {p : Params} (n : Nat) (pg : PageIdx) (lb : PageLatch) {m : List Host.Cell}
    (h : Memory.wf p m = true) : Memory.wf p (programmedCells p n pg lb m) = true := by
  unfold programmedCells
  split
  · exact Memory.wf_commitPage p n pg lb m h
  · exact wf_leftCells p n

theorem wf_runningCells {p : Params} (n : Nat) (pg : PageIdx) {m : List Host.Cell} (h : Memory.wf p m = true) :
    Memory.wf p (runningCells p n pg m) = true := by
  unfold runningCells
  split
  · exact wf_openPage p n pg m h
  · exact wf_openFlash p n

theorem wf_erasedCells (p : Params) (n : Nat) : Memory.wf p (erasedCells p n) = true := by
  unfold erasedCells
  split
  · rfl
  · exact wf_leftCells p n

/-- A micro-step exceeds its lower bound by at most `T_STEP_MAX` (R11). -/
theorem slack_le (p : Params) (n : Nat) : p.slack n ≤ p.stepMax := bounded_le _ _

theorem stillUntil_mono {T T' : Nat} {cs : ChipState} (h : StillUntil T cs) (hle : T' ≤ T) : StillUntil T' cs := by
  cases cs with
  | load pg lb tl =>
    cases pg with
    | none => exact h
    | some q => exact Nat.le_trans hle h
  | _ => exact h

theorem stillUntil_idle {c : Chip} (h : c.cs = .idle) (T : Nat) : StillUntil T c.cs := by
  simp [StillUntil, h]

/-- Time up to `T` does not move a chip in a still state. -/
theorem chipElapse_still {p : Params} {n T t : Nat} {c : Chip} (h : StillUntil T c.cs) (ht : t ≤ T) :
    chipElapse p n t c = c := by
  unfold StillUntil at h
  unfold chipElapse
  split at h <;> simp_all
  intro hlt
  omega

theorem chipSettle_still {p : Params} {T t : Nat} {c : Chip} (h : StillUntil T c.cs) : chipSettle p t c = c := by
  unfold StillUntil at h
  unfold chipSettle
  split at h <;> simp_all

/-- The chip after instants that a still chip outlasts is as it was. -/
theorem chipAged_still {p : Params} {T : Nat} {c : Chip} (h : StillUntil T c.cs) : ∀ l : List (Nat × Nat),
    (∀ x ∈ l, x.2 ≤ T) → chipAged p l c = c
  | [], _ => rfl
  | x :: rest, hx => by
    rw [chipAged, List.foldl_cons, chipElapse_still h (hx x (by simp))]
    exact chipAged_still h rest fun y hy => hx y (by simp [hy])

@[simp] theorem chipElapse_idle {p : Params} {n t : Nat} {c : Chip} (h : c.cs = .idle) : chipElapse p n t c = c :=
  chipElapse_still (stillUntil_idle h t) (le_refl t)

@[simp] theorem chipSettle_idle {p : Params} {t : Nat} {c : Chip} (h : c.cs = .idle) : chipSettle p t c = c :=
  chipSettle_still (stillUntil_idle h t)

/-- While write enable is high before and after, a change of the pins means nothing to the chip (R60, R68). -/
theorem chipSees_of_we_high {p : Params} {n t : Nat} {old new : Pins} {c : Chip} (h1 : old.we = .high)
    (h2 : new.we = .high) : chipSees p n old new t c = c := by
  simp [chipSees, Pins.mayWrite, h1, h2]

/-- Pins that make a write cycle may write (R60). -/
theorem mayWrite_of_inWriteCycle {q : Pins} (h : q.inWriteCycle = true) : q.mayWrite = true := by
  simp only [Pins.inWriteCycle, Bool.and_eq_true, decide_eq_true_eq] at h
  simp [Pins.mayWrite, h]

/-- What time can make of the chip: nothing; a program cycle running; one ended; an erase cycle ended; or, with the command state as
it was, every cell open (R66, R67, R69). -/
theorem chipElapse_cases (p : Params) (n t : Nat) (c : Chip) :
    chipElapse p n t c = c ∨
      (c.cs.hasMeaning = true ∧
        ∃ pg lb tl td dr, chipElapse p n t c = { c with flash := runningCells p n pg c.flash, cs := .prog pg lb tl td dr }) ∨
      (c.cs.hasMeaning = true ∧ ∃ pg lb dr, chipElapse p n t c = chipCommitted p pg lb dr c) ∨
      (c.cs.hasMeaning = true ∧ ∃ dr, chipElapse p n t c = chipErased p dr c) ∨
      chipElapse p n t c = { c with flash := openFlash p n } := by
  unfold chipElapse
  split
  · rename_i pg lb tLast hc
    have hm : c.cs.hasMeaning = true := by rw [hc]; rfl
    split
    · unfold chipProg
      split
      · exact .inr (.inr (.inl ⟨hm, pg, lb, n, rfl⟩))
      · exact .inr (.inl ⟨hm, pg, lb, _, _, n, rfl⟩)
    · exact .inl rfl
  · rename_i pg lb tl td dr hc
    have hm : c.cs.hasMeaning = true := by rw [hc]; rfl
    unfold chipProg
    split
    · exact .inr (.inr (.inl ⟨hm, pg, lb, dr, rfl⟩))
    · exact .inr (.inl ⟨hm, pg, lb, tl, td, dr, rfl⟩)
  · rename_i hc
    have hm : c.cs.hasMeaning = true := by rw [hc]; rfl
    split
    · exact .inr (.inr (.inr (.inl ⟨hm, _, rfl⟩)))
    · exact .inr (.inr (.inr (.inr rfl)))
  all_goals first
    | exact .inl rfl
    | skip
  rename_i hc
  refine .inr (.inr (.inr (.inr ?_)))
  rw [chipLost, ← hc]

/-- What bringing the chip up to date can do. -/
theorem chipSettle_cases (p : Params) (t : Nat) (c : Chip) :
    chipSettle p t c = c ∨
      (∃ pg lb dr, chipSettle p t c = chipCommitted p pg lb dr c) ∨
        ∃ dr, chipSettle p t c = chipErased p dr c := by
  unfold chipSettle
  split
  · split
    · exact .inr (.inl ⟨_, _, _, rfl⟩)
    · exact .inl rfl
  · split
    · exact .inr (.inr ⟨_, rfl⟩)
    · exact .inl rfl
  all_goals exact .inl rfl

/-- Time never moves the instant of the last falling edge. -/
@[simp] theorem chipElapse_tFall (p : Params) (n t : Nat) (c : Chip) : (chipElapse p n t c).tFall = c.tFall := by
  obtain he | ⟨-, pg, lb, tl, td, dr, he⟩ | ⟨-, pg, lb, dr, he⟩ | ⟨-, dr, he⟩ | he := chipElapse_cases p n t c <;> rw [he]
  · exact chipCommitted_tFall p pg lb dr c
  · exact chipErased_tFall p dr c

/-- Time neither takes the chip's meaning nor gives it back (R66, R67, R69). -/
@[simp] theorem chipElapse_hasMeaning (p : Params) (n t : Nat) (c : Chip) :
    (chipElapse p n t c).cs.hasMeaning = c.cs.hasMeaning := by
  obtain he | ⟨hm, pg, lb, tl, td, dr, he⟩ | ⟨hm, pg, lb, dr, he⟩ | ⟨hm, dr, he⟩ | he := chipElapse_cases p n t c <;> rw [he]
  · exact hm.symm
  · rw [chipCommitted_cs]
    exact hm.symm
  · exact hm.symm

theorem hasMeaning_false {cs : ChipState} : cs.hasMeaning = false ↔ cs = .noMeaning := by
  cases cs <;> simp [ChipState.hasMeaning]

/-- The passing of time leaves a chip without meaning so, its cells any value anew (R69). -/
theorem chipElapse_noMeaning {p : Params} {n t : Nat} {c : Chip} (h : c.cs = .noMeaning) :
    chipElapse p n t c = chipLost p n c := by
  unfold chipElapse
  rw [h]

@[simp] theorem chipLost_hasMeaning (p : Params) (n : Nat) (c : Chip) : (chipLost p n c).cs.hasMeaning = false := rfl

/-- A chip that has lost its meaning stays so, whatever the pins do (R69). -/
theorem chipSees_hasMeaning {p : Params} {n t : Nat} {old new : Pins} {c : Chip}
    (h : (chipSees p n old new t c).cs.hasMeaning = true) : c.cs.hasMeaning = true := by
  cases hc : c.cs with
  | noMeaning =>
    exfalso
    have hw : (chipWrite p n new.addr new.dq.val t c).cs.hasMeaning = false := by
      simp [chipWrite, chipSettle, hc, chipDecode, ChipState.hasMeaning]
    revert h
    unfold chipSees
    repeat' split
    all_goals first
      | (intro h; rw [hc] at h; cases h)
      | (intro h; rw [hw] at h; cases h)
      | (intro h; rw [chipLost_hasMeaning] at h; cases h)
  | _ => rfl

/-- The mark of a lost meaning (R211). -/
theorem lostMeaning_congr {a b a' b' : ChipState} (h1 : a.hasMeaning = a'.hasMeaning) (h2 : b.hasMeaning = b'.hasMeaning) :
    lostMeaning a b = lostMeaning a' b' := by
  unfold lostMeaning
  rw [h1, h2]

@[simp] theorem lostMeaning_self (a : ChipState) : lostMeaning a a = [] := by
  unfold lostMeaning
  generalize a.hasMeaning = x
  cases x <;> rfl

/-- Over two stretches the meaning is lost once at most, and marked once. -/
theorem lostMeaning_trans {a b c : ChipState} (h1 : b.hasMeaning = true → a.hasMeaning = true)
    (h2 : c.hasMeaning = true → b.hasMeaning = true) : lostMeaning a b ++ lostMeaning b c = lostMeaning a c := by
  unfold lostMeaning
  generalize a.hasMeaning = x at *
  generalize b.hasMeaning = y at *
  generalize c.hasMeaning = z at *
  cases x <;> cases y <;> cases z <;> first | rfl | exact absurd (h1 rfl) (by decide) | exact absurd (h2 rfl) (by decide)

/-- No mark where the chip still has its meaning. -/
theorem lostMeaning_of_meaning {a b : ChipState} (h : b.hasMeaning = true) : lostMeaning a b = [] := by
  unfold lostMeaning
  rw [h, Bool.not_true, Bool.and_false]
  rfl

theorem wf_chipElapse {p : Params} {c : Chip} (n t : Nat) (h : Memory.wf p c.flash = true) :
    Memory.wf p (chipElapse p n t c).flash = true := by
  obtain he | ⟨-, pg, lb, tl, td, dr, he⟩ | ⟨-, pg, lb, dr, he⟩ | ⟨-, dr, he⟩ | he := chipElapse_cases p n t c <;> rw [he]
  · exact h
  · simp only
    exact wf_runningCells n pg h
  · rw [chipCommitted_flash]
    exact wf_programmedCells dr pg lb h
  · rw [chipErased_flash]
    exact wf_erasedCells p dr
  · simp only
    exact wf_openFlash p n

theorem wf_chipSettle {p : Params} {c : Chip} (t : Nat) (h : Memory.wf p c.flash = true) :
    Memory.wf p (chipSettle p t c).flash = true := by
  obtain he | ⟨pg, lb, dr, he⟩ | ⟨dr, he⟩ := chipSettle_cases p t c <;> rw [he]
  · exact h
  · rw [chipCommitted_flash]
    exact wf_programmedCells dr pg lb h
  · rw [chipErased_flash]
    exact wf_erasedCells p dr

/-- A write whose command state leaves the cells determined does not change them. -/
theorem cellsAfter_still {p : Params} {n T : Nat} {cs : ChipState} {m : List Host.Cell} (h : StillUntil T cs) :
    cellsAfter p n cs m = m := by
  cases cs <;> first | rfl | exact absurd h (by simp [StillUntil])

theorem wf_cellsAfter {p : Params} (n : Nat) (cs : ChipState) {m : List Host.Cell} (h : Memory.wf p m = true) :
    Memory.wf p (cellsAfter p n cs m) = true := by
  cases cs <;> first | exact h | exact wf_openFlash p n

theorem wf_chipWrite {p : Params} {c : Chip} (n : Nat) (a : Addr) (d : Byte) (t : Nat)
    (h : Memory.wf p c.flash = true) : Memory.wf p (chipWrite p n a d t c).flash = true :=
  wf_cellsAfter n _ (wf_chipSettle t h)

theorem wf_chipSees {p : Params} {c : Chip} (n t : Nat) (old new : Pins) (h : Memory.wf p c.flash = true) :
    Memory.wf p (chipSees p n old new t c).flash = true := by
  have hw := wf_chipWrite n new.addr new.dq.val t h
  have hl : Memory.wf p (chipLost p n c).flash = true := wf_openFlash p n
  simp only [chipSees]
  repeat' split
  all_goals assumption

end Sys2Proof.Machine
end

