-- ==== Sys2Proof/Laws/Pins.lean ====
section
/-! SUPPORT. The rows of the FSM table (R197) as explicit pins. -/

namespace Sys2Proof.Safety

open Sys2Proof.Machine

theorem sHold_iff (q : Pins) : PinState.sHold.holds q = true ↔ q = capturedPins := by
  obtain ⟨al, ah, dq, ce, oe, we, boe⟩ := q
  simp [PinState.holds, portsReleased, capturedPins]
  tauto

theorem sExt_iff (q : Pins) : PinState.sExt.holds q = true ↔ ∃ v, q = releasedPins v := by
  obtain ⟨al, ah, dq, ⟨dir, val⟩, oe, we, boe⟩ := q
  simp [PinState.holds, portsReleased, releasedPins]
  tauto

/-- An address is put together again from its halves (R53). -/
theorem addr_halves (h l : Byte) : addrHigh (joinAddr h l) = h ∧ addrLow (joinAddr h l) = l := by
  constructor
  · apply BitVec.eq_of_getLsbD_eq
    intro i hi
    simp only [joinAddr, addrHigh, BitVec.getLsbD_extractLsb', BitVec.getLsbD_cast, BitVec.getLsbD_append]
    simp [hi]
  · apply BitVec.eq_of_getLsbD_eq
    intro i hi
    simp only [joinAddr, addrLow, BitVec.getLsbD_extractLsb', BitVec.getLsbD_cast, BitVec.getLsbD_append]
    simp [hi]

/-- The halves of an address put together are the address (R53). -/
theorem halves_addr (a : Addr) : joinAddr (addrHigh a) (addrLow a) = a := by
  apply BitVec.eq_of_getLsbD_eq
  intro i hi
  simp only [joinAddr, addrHigh, addrLow, BitVec.getLsbD_extractLsb', BitVec.getLsbD_cast, BitVec.getLsbD_append]
  by_cases h : i < 8
  · simp [h]
  · have h8 : i - 8 < 8 := by omega
    have : 8 + (i - 8) = i := by omega
    simp [h, h8, this]

@[simp] theorem drivenPins_addr (a : Addr) (d : Byte) : (drivenPins a d).addr = a := halves_addr a

@[simp] theorem pulsePins_addr (a : Addr) (d : Byte) : (pulsePins a d).addr = a := halves_addr a

@[simp] theorem readActivePins_addr (a : Addr) : (readActivePins a).addr = a := halves_addr a

theorem sWidle_iff (q : Pins) : PinState.sWidle.holds q = true ↔ ∃ a d, q = drivenPins a d := by
  obtain ⟨⟨ad, av⟩, ⟨hd, hv⟩, ⟨dd, dv⟩, ⟨cd, cv⟩, oe, we, boe⟩ := q
  constructor
  · intro h
    simp [PinState.holds, portsOut] at h
    refine ⟨joinAddr hv av, dv, ?_⟩
    simp [drivenPins, (addr_halves hv av).1, (addr_halves hv av).2]
    tauto
  · rintro ⟨a, d, h⟩
    rw [h]
    simp [PinState.holds, portsOut, drivenPins]

theorem sWpulse_iff (q : Pins) : PinState.sWpulse.holds q = true ↔ ∃ a d, q = pulsePins a d := by
  obtain ⟨⟨ad, av⟩, ⟨hd, hv⟩, ⟨dd, dv⟩, ⟨cd, cv⟩, oe, we, boe⟩ := q
  constructor
  · intro h
    simp [PinState.holds, portsOut] at h
    refine ⟨joinAddr hv av, dv, ?_⟩
    simp [pulsePins, (addr_halves hv av).1, (addr_halves hv av).2]
    tauto
  · rintro ⟨a, d, h⟩
    rw [h]
    simp [PinState.holds, portsOut, pulsePins]

end Sys2Proof.Safety
end

