-- ==== Sys2Proof/Laws/Trace.lean ====
section
/-! SUPPORT. Reading cycles, snapshots and delays off a trace that was appended to. -/

namespace Sys2Proof.Machine

/-- The pins after the entries of a trace, given the pins before. -/
def lastPins : Pins → List TraceEntry → Pins
  | prev, [] => prev
  | _, .pins _ q :: rest => lastPins q rest
  | prev, .delay _ _ _ :: rest => lastPins prev rest
  | prev, .sample _ _ :: rest => lastPins prev rest

theorem lastPins_append : ∀ (l1 l2 : List TraceEntry) (q : Pins), lastPins q (l1 ++ l2) = lastPins (lastPins q l1) l2
  | [], _, _ => rfl
  | .pins _ q' :: rest, l2, _ => lastPins_append rest l2 q'
  | .delay _ _ _ :: rest, l2, q => lastPins_append rest l2 q
  | .sample _ _ :: rest, l2, q => lastPins_append rest l2 q

theorem writeCycles_append : ∀ (l1 l2 : List TraceEntry) (q : Pins),
    writeCycles q (l1 ++ l2) = writeCycles q l1 ++ writeCycles (lastPins q l1) l2
  | [], _, _ => rfl
  | .pins t q' :: rest, l2, q => by
    simp only [List.cons_append, writeCycles, lastPins, writeCycles_append rest l2 q']
    split <;> simp
  | .delay _ _ _ :: rest, l2, q => writeCycles_append rest l2 q
  | .sample _ _ :: rest, l2, q => writeCycles_append rest l2 q

theorem readCycles_append : ∀ (l1 l2 : List TraceEntry) (q : Pins),
    readCycles q (l1 ++ l2) = readCycles q l1 ++ readCycles (lastPins q l1) l2
  | [], _, _ => rfl
  | .pins _ q' :: rest, l2, _ => readCycles_append rest l2 q'
  | .delay _ _ _ :: rest, l2, q => readCycles_append rest l2 q
  | .sample _ v :: rest, l2, q => by
    simp only [List.cons_append, readCycles, lastPins, readCycles_append rest l2 q]
    split <;> simp

theorem snapshots_append : ∀ (l1 l2 : List TraceEntry), snapshots (l1 ++ l2) = snapshots l1 ++ snapshots l2
  | [], _ => rfl
  | .pins _ q :: rest, l2 => congrArg (q :: ·) (snapshots_append rest l2)
  | .delay _ _ _ :: rest, l2 => snapshots_append rest l2
  | .sample _ _ :: rest, l2 => snapshots_append rest l2

theorem delays_append : ∀ (l1 l2 : List TraceEntry), delays (l1 ++ l2) = delays l1 ++ delays l2
  | [], _ => rfl
  | .pins _ _ :: rest, l2 => delays_append rest l2
  | .delay _ k d :: rest, l2 => congrArg ((k, d) :: ·) (delays_append rest l2)
  | .sample _ _ :: rest, l2 => delays_append rest l2

end Sys2Proof.Machine
end

