-- ==== Sys2Proof/Laws/Procedures.lean ====
section
/-! SUPPORT. What the procedures do once and for all: which fields they leave alone, what they mark, where the chip only ages, and the pins, the trace and the times of `writeByte` and `readByte` from the pins of R197. -/

namespace Sys2Proof.Machine

open Sys2Proof.Safety

/-- What any operation does to the chip's meaning and to the marks: a lost meaning is never regained (R69), and exactly its loss is
marked (R211). -/
structure Marked (s t : State) : Prop where
  meaning : t.chip.cs.hasMeaning = true → s.chip.cs.hasMeaning = true
  marks : MarksTellMeaning s t

/-- Where the meaning of the chip is what it was, nothing is marked. -/
theorem marked_of_same {s t : State} (h : t.chip.cs.hasMeaning = s.chip.cs.hasMeaning) (hm : t.marks = s.marks) :
    Marked s t := by
  refine ⟨fun ht => h ▸ ht, ?_⟩
  rw [MarksTellMeaning, hm, lostMeaning_congr rfl h, lostMeaning_self, List.append_nil]

theorem Marked.refl (s : State) : Marked s s := marked_of_same rfl rfl

theorem Marked.trans {s t u : State} (h1 : Marked s t) (h2 : Marked t u) : Marked s u := by
  refine ⟨fun h => h1.meaning (h2.meaning h), ?_⟩
  rw [MarksTellMeaning, h2.marks, h1.marks, List.append_assoc, lostMeaning_trans h1.meaning h2.meaning]

/-- The other fields of the two states do not matter. -/
theorem Marked.of_eq {s t u : State} (h : Marked s t) (hc : u.chip = t.chip) (hm : u.marks = t.marks) : Marked s u :=
  ⟨fun ht => h.meaning (hc ▸ ht), by rw [MarksTellMeaning, hm, hc, h.marks]⟩

/-- A pin update never gives the chip a meaning back (R69). -/
theorem pinUpdate_meaning (f : Pins → Pins) (s : State) (h : (pinUpdate f s).chip.cs.hasMeaning = true) :
    s.chip.cs.hasMeaning = true := by
  rw [pinUpdate_chip] at h
  rw [← chipElapse_hasMeaning s.params s.draws (s.now + s.params.slack s.draws) s.chip]
  exact chipSees_hasMeaning h

/-- A pin update marks exactly the loss of the chip's meaning (R211). -/
theorem pinUpdate_marked (f : Pins → Pins) (s : State) : Marked s (pinUpdate f s) := by
  refine ⟨pinUpdate_meaning f s, ?_⟩
  rw [MarksTellMeaning, pinUpdate_marks, lostMeaning_congr (a' := s.chip.cs) ?_ rfl]
  exact chipElapse_hasMeaning _ _ _ _

/-- What only lets the chip age marks nothing. -/
theorem pass_marked (d : Nat) (s : State) : Marked s (pass d s) :=
  marked_of_same (chipElapse_hasMeaning s.params s.draws (s.now + d) s.chip) rfl

theorem passStep_marked (s : State) : Marked s (passStep s) := pass_marked (s.params.slack s.draws) s

theorem delay_marked (k : DelayKind) (T : Nat) (s : State) : Marked s (delay k T s) :=
  (pass_marked (T + s.params.slack s.draws) s).of_eq (delay_chip s k T) (delay_marks s k T)

theorem sample_marked (s : State) : Marked s (sample s) := (passStep_marked s).of_eq (sample_chip s) (sample_marks s)

theorem emit_marked (s : State) : Marked s (emit s) := (passStep_marked s).of_eq (emit_chip s) (emit_marks s)

theorem bufLoad_marked (idx : BufIdx) (data : Byte) (s : State) : Marked s (bufLoad idx data s) :=
  (passStep_marked s).of_eq (bufLoad_chip s idx data) (bufLoad_marks s idx data)

theorem bufClear_marked (s : State) : Marked s (bufClear s) :=
  (passStep_marked s).of_eq (bufClear_chip s) (bufClear_marks s)

theorem stepC1_marked (s : State) : Marked s (stepC1 s) := (pinUpdate_marked (fun q => { q with boe := .high }) s).of_eq rfl rfl

theorem stepL5_marked (s : State) : Marked s (stepL5 s) := (pinUpdate_marked (fun q => { q with boe := .low }) s).of_eq rfl rfl

theorem captureBus_marked (s : State) : Marked s (captureBus s) :=
  (stepC1_marked s).trans <| (pinUpdate_marked _ (stepC1 s)).trans <|
    (pinUpdate_marked _ (stepC2 (stepC1 s))).trans (pinUpdate_marked _ (stepC3 (stepC2 (stepC1 s))))

theorem releaseBus_marked (s : State) : Marked s (releaseBus s) :=
  (pinUpdate_marked _ s).trans <| (pinUpdate_marked _ (stepL1 s)).trans <| (pinUpdate_marked _ (stepL2 (stepL1 s))).trans <|
    (pinUpdate_marked _ (stepL3 (stepL2 (stepL1 s)))).trans (stepL5_marked _)

/-! The read cycle in progress. -/

/-- The read cycle in progress follows the lines exactly where it is none without an assertion, and begun by NOW at the address
asserted with one (R61). -/
theorem accessFollowsLines_iff (s : State) :
    AccessFollowsLines s ↔ s.access.map ReadAccess.addr = readAddr s.pins s.master ∧ ∀ r ∈ s.access, r.since ≤ s.now := by
  unfold AccessFollowsLines readAddr
  cases s.access with
  | none => cases h : chipDrives s.pins s.master <;> simp [eq_comm]
  | some r => cases h : chipDrives s.pins s.master <;> simp [eq_comm]

/-- Lines that assert no read leave none in progress. -/
theorem readNext_none {s : State} {q : Pins} {m : Master} (h : readAddr q m = none) (t : Nat) (c : Chip) :
    readNext s q m t c = none := by
  simp [readNext, readAsserted, h]

/-- Lines that newly assert a read begin one (R61). -/
theorem readNext_fresh {s : State} {q : Pins} {m : Master} {a : Addr} (h : readAddr q m = some a)
    (hn : readAddr s.pins s.master ≠ some a) (t : Nat) (c : Chip) :
    readNext s q m t c = some ⟨a, t, chipCell s.params t c a⟩ := by
  simp [readNext, readAsserted, h, hn]

/-- Lines that assert the read they asserted leave it as it is (R61). -/
theorem readNext_kept {s : State} {q : Pins} {m : Master} {a : Addr} (h : readAddr q m = some a)
    (hn : readAddr s.pins s.master = some a) (t : Nat) (c : Chip) : readNext s q m t c = s.access := by
  simp [readNext, h, hn]

/-- Whatever becomes of the lines, the read cycle in progress then follows them (R61). -/
theorem readNext_follows {s t : State} (h : AccessFollowsLines s) {c : Chip} (hn : s.now ≤ t.now)
    (ha : t.access = readNext s t.pins t.master t.now c) : AccessFollowsLines t := by
  rw [accessFollowsLines_iff] at h ⊢
  rw [ha]
  cases hr : readAddr t.pins t.master with
  | none => simp [readNext_none hr]
  | some a =>
    by_cases hs : readAddr s.pins s.master = some a
    · rw [readNext_kept hr hs]
      exact ⟨h.1.trans hs, fun r hm => (h.2 r hm).trans hn⟩
    · simp [readNext_fresh hr hs]

/-- A pin update keeps the read cycle in progress the one the lines assert (R61). -/
theorem pinUpdate_follows (f : Pins → Pins) {s : State} (h : AccessFollowsLines s) : AccessFollowsLines (pinUpdate f s) :=
  readNext_follows h (Nat.le_add_right _ _) rfl

/-- What moves no line keeps the read cycle in progress (R61). -/
theorem follows_of_lines {s t : State} (h : AccessFollowsLines s) (ha : t.access = s.access) (hp : t.pins = s.pins)
    (hm : t.master.addr = s.master.addr ∧ t.master.ce = s.master.ce) (hn : s.now ≤ t.now) : AccessFollowsLines t := by
  unfold AccessFollowsLines at *
  have e0 : ceDriven t.pins t.master = ceDriven s.pins s.master := by rw [ceDriven, ceDriven, hp, hm.2]
  have e1 : chipDrives t.pins t.master = chipDrives s.pins s.master := by rw [chipDrives, chipDrives, e0, hp]
  have e2 : addrDriven t.pins t.master = addrDriven s.pins s.master := by rw [addrDriven, addrDriven, hp, hm.1]
  rw [ha, e1, e2]
  cases hs : s.access with
  | none =>
    rw [hs] at h
    exact h
  | some r =>
    rw [hs] at h
    exact ⟨h.1, h.2.1, Nat.le_trans h.2.2 hn⟩

/-- The passing of time keeps the read cycle in progress (R61). -/
theorem pass_follows (d : Nat) {s : State} (h : AccessFollowsLines s) : AccessFollowsLines (pass d s) :=
  follows_of_lines h rfl rfl ⟨rfl, rfl⟩ (Nat.le_add_right _ _)

theorem captureBus_follows {s : State} (h : AccessFollowsLines s) : AccessFollowsLines (captureBus s) :=
  have h1 : AccessFollowsLines (stepC1 s) := pinUpdate_follows (fun q => { q with boe := .high }) h
  pinUpdate_follows _ (pinUpdate_follows _ (pinUpdate_follows _ h1))

theorem releaseBus_follows {s : State} (h : AccessFollowsLines s) : AccessFollowsLines (releaseBus s) :=
  pinUpdate_follows (fun q => { q with boe := .low })
    (pinUpdate_follows _ (pinUpdate_follows _ (pinUpdate_follows _ (pinUpdate_follows _ h))))

/-! What no procedure writes. -/

/-- The fields no procedure of the transactor or sequencer writes: mode, busy flag, SEQ, latch, page buffer, external master,
parameters, inputs; that the marks tell the chip's loss of meaning, which it never regains; and that the read cycle in progress
keeps following the lines. -/
structure SameContext (s t : State) : Prop where
  own : t.own = s.own
  busy : t.busy = s.busy
  seq : t.seq = s.seq
  opReg : t.opReg = s.opReg
  aReg : t.aReg = s.aReg
  bReg : t.bReg = s.bReg
  pbuf : t.pbuf = s.pbuf
  master : t.master = s.master
  params : t.params = s.params
  inputs : t.inputs = s.inputs
  marked : Marked s t
  follows : AccessFollowsLines s → AccessFollowsLines t

theorem SameContext.refl (s : State) : SameContext s s :=
  ⟨rfl, rfl, rfl, rfl, rfl, rfl, rfl, rfl, rfl, rfl, .refl s, id⟩

theorem SameContext.trans {s t u : State} (h1 : SameContext s t) (h2 : SameContext t u) : SameContext s u :=
  ⟨h2.own.trans h1.own, h2.busy.trans h1.busy, h2.seq.trans h1.seq, h2.opReg.trans h1.opReg, h2.aReg.trans h1.aReg,
    h2.bReg.trans h1.bReg, h2.pbuf.trans h1.pbuf, h2.master.trans h1.master, h2.params.trans h1.params,
    h2.inputs.trans h1.inputs, h1.marked.trans h2.marked, fun h => h2.follows (h1.follows h)⟩

theorem pinUpdate_context (f : Pins → Pins) (s : State) : SameContext s (pinUpdate f s) :=
  ⟨rfl, rfl, rfl, rfl, rfl, rfl, rfl, rfl, rfl, rfl, pinUpdate_marked f s, pinUpdate_follows f⟩

theorem delay_context (k : DelayKind) (T : Nat) (s : State) : SameContext s (delay k T s) :=
  ⟨rfl, rfl, rfl, rfl, rfl, rfl, rfl, rfl, rfl, rfl, delay_marked k T s, pass_follows _⟩

theorem sample_context (s : State) : SameContext s (sample s) :=
  ⟨rfl, rfl, rfl, rfl, rfl, rfl, rfl, rfl, rfl, rfl, sample_marked s, pass_follows _⟩

theorem emit_context (s : State) : SameContext s (emit s) :=
  ⟨rfl, rfl, rfl, rfl, rfl, rfl, rfl, rfl, rfl, rfl, emit_marked s, pass_follows _⟩

/-! Where the chip only ages. -/

/-- From `s` to `t` the chip sees nothing but the passing of time (R66 to R68). -/
structure Aged (s t : State) : Prop where
  params : t.params = s.params
  now : s.now ≤ t.now
  chip : ∃ l, (∀ x ∈ l, s.now ≤ x.2 ∧ x.2 ≤ t.now) ∧ t.chip = chipAged s.params l s.chip

theorem Aged.refl (s : State) : Aged s s := ⟨rfl, le_refl _, [], by simp, rfl⟩

theorem Aged.trans {s t u : State} (h1 : Aged s t) (h2 : Aged t u) : Aged s u := by
  obtain ⟨p1, n1, l1, b1, c1⟩ := h1
  obtain ⟨p2, n2, l2, b2, c2⟩ := h2
  refine ⟨p2.trans p1, n1.trans n2, l1 ++ l2, fun x hx => ?_, ?_⟩
  · rcases List.mem_append.mp hx with hx | hx
    · have := b1 x hx
      omega
    · have := b2 x hx
      omega
  · rw [c2, c1, p1, chipAged, chipAged, chipAged, List.foldl_append]

/-- A chip in a state that time does not move is as it was. -/
theorem Aged.still {s t : State} (h : Aged s t) (hs : StillUntil t.now s.chip.cs) : t.chip = s.chip := by
  obtain ⟨l, b, c⟩ := h.chip
  rw [c]
  exact chipAged_still hs l fun x hx => (b x hx).2

/-- One instant. -/
theorem aged_one {s t : State} {n : Nat} (hp : t.params = s.params) (hn : s.now ≤ t.now)
    (hc : t.chip = chipElapse s.params n t.now s.chip) : Aged s t :=
  ⟨hp, hn, [(n, t.now)], by simpa using hn, hc⟩

theorem pass_aged (d : Nat) (s : State) : Aged s (pass d s) := aged_one rfl (Nat.le_add_right _ _) rfl

theorem delay_aged (k : DelayKind) (T : Nat) (s : State) : Aged s (delay k T s) :=
  aged_one rfl (Nat.le_add_right _ _) rfl

theorem sample_aged (s : State) : Aged s (sample s) := aged_one rfl (Nat.le_add_right _ _) rfl

theorem emit_aged (s : State) : Aged s (emit s) := aged_one rfl (Nat.le_add_right _ _) rfl

/-- A pin update with write enable high before and after means nothing to the chip but the time it takes (R60, R68). -/
theorem pinUpdate_aged {f : Pins → Pins} {s : State} (h1 : s.pins.we = .high) (h2 : (f s.pins).we = .high) :
    Aged s (pinUpdate f s) :=
  aged_one rfl (Nat.le_add_right _ _) (chipSees_of_we_high h1 h2)

theorem writeByte_context (a : Addr) (d : Byte) (s : State) : SameContext s (writeByte a d s) :=
  (pinUpdate_context _ s).trans <| (pinUpdate_context _ _).trans <| (delay_context _ _ _).trans <|
    (pinUpdate_context _ _).trans (delay_context _ _ _)

theorem readByte_context (a : Addr) (s : State) : SameContext s (readByte a s) := by
  unfold readByte stepR1 stepR2 stepR3 stepR4 stepR5 stepR6
  exact (pinUpdate_context _ s).trans <| (pinUpdate_context _ _).trans <| (delay_context _ _ _).trans <|
    (sample_context _).trans <| (pinUpdate_context _ _).trans (pinUpdate_context _ _)

theorem readEmit_context (a : Addr) (s : State) : SameContext s (readEmit a s) :=
  (readByte_context a s).trans (emit_context _)

theorem cmdSeq_context (c : Byte) (s : State) : SameContext s (cmdSeq c s) :=
  (writeByte_context _ _ s).trans <| (writeByte_context _ _ _).trans (writeByte_context _ _ _)

theorem rounds_context {f : Nat → State → State} (h : ∀ i s, SameContext s (f i s)) :
    ∀ (k : Nat) (s : State), SameContext s (rounds f k s)
  | 0, s => .refl s
  | k + 1, s => (rounds_context h k s).trans (h k _)

theorem writePage_context (base : Addr) (s : State) : SameContext s (writePage base s) :=
  (pinUpdate_context _ s).trans <| (cmdSeq_context _ _).trans <|
    (rounds_context (fun _ s => writeByte_context _ _ s) pageSize _).trans <|
    (delay_context _ _ _).trans (pinUpdate_context _ _)

theorem eraseChip_context (s : State) : SameContext s (eraseChip s) :=
  (pinUpdate_context _ s).trans <| (cmdSeq_context _ _).trans <| (cmdSeq_context _ _).trans <|
    (delay_context _ _ _).trans (pinUpdate_context _ _)

theorem readPage_context (base : Addr) (s : State) : SameContext s (readPage base s) :=
  rounds_context (fun _ s => readEmit_context _ s) pageSize s

/-! A write. -/

/-- The entries `writeByte(a, d)` appends, from the driving pins. -/
def writeEntries (a : Addr) (d : Byte) (s : State) : List TraceEntry :=
  [.pins (stepW1 a d s).now (drivenPins a d),
    .pins (stepW2 (stepW1 a d s)).now (pulsePins a d),
    .delay (stepW3 (stepW2 (stepW1 a d s))).now .writePulse (s.params.wp + s.params.slack (s.draws + 2)),
    .pins (stepW4 (stepW3 (stepW2 (stepW1 a d s)))).now (drivenPins a d),
    .delay (writeByte a d s).now .writeRecovery (s.params.wrRec + s.params.slack (s.draws + 4))]

theorem writeByte_pins {s : State} (h : PinState.sWidle.holds s.pins = true) (a : Addr) (d : Byte) :
    (writeByte a d s).pins = drivenPins a d := by
  obtain ⟨a', d', hq⟩ := (sWidle_iff _).mp h
  simp [writeByte, stepW1, stepW2, stepW3, stepW4, stepW5, hq, drivenPins]

theorem writeByte_trace {s : State} (h : PinState.sWidle.holds s.pins = true) (a : Addr) (d : Byte) :
    (writeByte a d s).trace = s.trace ++ writeEntries a d s := by
  obtain ⟨a', d', hq⟩ := (sWidle_iff _).mp h
  simp [writeByte, writeEntries, stepW1, stepW2, stepW3, stepW4, stepW5, hq, drivenPins, pulsePins]

@[simp] theorem writeByte_rsp (a : Addr) (d : Byte) (s : State) : (writeByte a d s).rsp = s.rsp := rfl

@[simp] theorem writeByte_smp (a : Addr) (d : Byte) (s : State) : (writeByte a d s).smp = s.smp := rfl

/-- The instant of the write cycle: the falling edge at the end of W2 (R60, R142). -/
def writeTime (s : State) : Nat := s.now + s.params.slack s.draws + s.params.slack (s.draws + 1)

theorem writeTime_bounds (s : State) : s.now ≤ writeTime s ∧ writeTime s ≤ s.now + 2 * s.params.stepMax := by
  have h1 := slack_le s.params s.draws
  have h2 := slack_le s.params (s.draws + 1)
  simp only [writeTime]
  omega

/-- From the falling edge to the end of the procedure pass the dwell, the recovery, and at most three overshoots (R167). -/
theorem writeByte_now (a : Addr) (d : Byte) (s : State) :
    writeTime s + s.params.wp + s.params.wrRec ≤ (writeByte a d s).now ∧
      (writeByte a d s).now ≤ writeTime s + s.params.wp + s.params.wrRec + 3 * s.params.stepMax := by
  have h1 := slack_le s.params (s.draws + 2)
  have h2 := slack_le s.params (s.draws + 3)
  have h3 := slack_le s.params (s.draws + 4)
  simp [writeByte, stepW1, stepW2, stepW3, stepW4, stepW5, writeTime, Nat.add_assoc]
  omega

/-- The falling edge of a write reaches a chip that time does not move before it (R60): it decodes the cycle. -/
theorem writeByte_fall {s : State} (h : PinState.sWidle.holds s.pins = true) (a : Addr) (d : Byte)
    (hq1 : StillUntil (writeTime s) s.chip.cs) :
    (stepW2 (stepW1 a d s)).chip = chipWrite s.params (s.draws + 1) a d (writeTime s) s.chip ∧
      (stepW2 (stepW1 a d s)).pins = pulsePins a d := by
  obtain ⟨a', d', hq⟩ := (sWidle_iff _).mp h
  have e1 : chipElapse s.params s.draws (s.now + s.params.slack s.draws) s.chip = s.chip :=
    chipElapse_still hq1 (by simp only [writeTime]; omega)
  have hs1 : (stepW1 a d s).chip = s.chip := by
    rw [stepW1, pinUpdate_chip, passStep_chip, e1]
    exact chipSees_of_we_high (by rw [hq]; rfl) (by rw [hq]; rfl)
  have hp1 : (stepW1 a d s).pins = drivenPins a d := by simp [stepW1, hq, drivenPins]
  have e2 : chipElapse s.params (s.draws + 1) (writeTime s) s.chip = s.chip := chipElapse_still hq1 (le_refl _)
  constructor
  · have : (passStep (stepW1 a d s)).chip = s.chip := by
      rw [passStep_chip, hs1]
      exact e2
    rw [stepW2, pinUpdate_chip, this, hp1]
    have hw : ({ drivenPins a d with ce := ⟨(drivenPins a d).ce.dir, .low⟩, we := .low } : Pins) = pulsePins a d := rfl
    rw [hw]
    simp only [chipSees, Pins.mayWrite, Pins.inWriteCycle, pulsePins_addr]
    rfl
  · simp [stepW2, hp1, drivenPins, pulsePins]

/-- A write cycle reaches a chip that time does not move before it, and does not move after it until the procedure ends. -/
theorem writeByte_chip {s : State} (h : PinState.sWidle.holds s.pins = true) (a : Addr) (d : Byte)
    (hwp : s.params.wpChip ≤ s.params.wp) (hq1 : StillUntil (writeTime s) s.chip.cs)
    (hq2 : StillUntil (writeByte a d s).now (chipWrite s.params (s.draws + 1) a d (writeTime s) s.chip).cs) :
    (writeByte a d s).chip = chipWrite s.params (s.draws + 1) a d (writeTime s) s.chip := by
  have hn := writeByte_now a d s
  obtain ⟨hs2, hp2⟩ := writeByte_fall h a d hq1
  generalize hc : chipWrite s.params (s.draws + 1) a d (writeTime s) s.chip = c at *
  have hfall : c.tFall = writeTime s := by rw [← hc]; rfl
  have hs3 : (stepW3 (stepW2 (stepW1 a d s))).chip = c := by
    rw [stepW3, delay_chip, hs2]
    refine chipElapse_still hq2 ?_
    simp [writeByte, stepW1, stepW2, stepW3, stepW4, stepW5]
    omega
  have hp3 : (stepW3 (stepW2 (stepW1 a d s))).pins = pulsePins a d := hp2
  have hs4 : (stepW4 (stepW3 (stepW2 (stepW1 a d s)))).chip = c := by
    have : (passStep (stepW3 (stepW2 (stepW1 a d s)))).chip = c := by
      rw [passStep_chip, hs3]
      refine chipElapse_still hq2 ?_
      simp [writeByte, stepW1, stepW2, stepW3, stepW4, stepW5]
    rw [stepW4, pinUpdate_chip, this, hp3]
    have hw : ({ pulsePins a d with ce := ⟨(pulsePins a d).ce.dir, .high⟩, oe := .high, we := .high } : Pins) = drivenPins a d := rfl
    rw [hw]
    have hlong : c.tFall + s.params.wpChip ≤
        (stepW3 (stepW2 (stepW1 a d s))).now + s.params.slack (s.draws + 3) := by
      rw [hfall]
      simp [stepW1, stepW2, stepW3, writeTime]
      omega
    have hshort : ¬ (stepW3 (stepW2 (stepW1 a d s))).now + s.params.slack (s.draws + 3) < c.tFall + s.params.wpChip := by
      omega
    simp only [chipSees, Pins.mayWrite, pulsePins, drivenPins]
    simp
    intro hlt
    exact absurd hlt hshort
  rw [writeByte, stepW5, delay_chip, hs4]
  refine chipElapse_still hq2 ?_
  simp [writeByte, stepW1, stepW2, stepW3, stepW4, stepW5]

/-! A read. -/

/-- The entries `readByte(a)` appends, from the pins at rest. -/
def readEntries (a : Addr) (s : State) : List TraceEntry :=
  [.pins (stepR1 a s).now (readAddrPins a),
    .pins (stepR2 (stepR1 a s)).now (readActivePins a),
    .delay (stepR3 (stepR2 (stepR1 a s))).now .readSettle (s.params.rdSettle + s.params.slack (s.draws + 2)),
    .sample (stepR4 (stepR3 (stepR2 (stepR1 a s)))).now (readByte a s).smp,
    .pins (stepR5 (stepR4 (stepR3 (stepR2 (stepR1 a s))))).now (readAddrPins a),
    .pins (readByte a s).now capturedPins]

theorem readByte_pins {s : State} (h : s.pins = capturedPins) (a : Addr) : (readByte a s).pins = capturedPins := by
  simp [readByte, stepR1, stepR2, stepR3, stepR4, stepR5, stepR6, h, capturedPins]

theorem readByte_trace {s : State} (h : s.pins = capturedPins) (a : Addr) :
    (readByte a s).trace = s.trace ++ readEntries a s := by
  simp [readByte, readEntries, stepR1, stepR2, stepR3, stepR4, stepR5, stepR6, h, capturedPins, readAddrPins,
    readActivePins]

theorem readEmit_pins {s : State} (h : s.pins = capturedPins) (a : Addr) : (readEmit a s).pins = capturedPins :=
  readByte_pins h a

theorem readEmit_trace {s : State} (h : s.pins = capturedPins) (a : Addr) :
    (readEmit a s).trace = s.trace ++ readEntries a s := readByte_trace h a

/-- One byte is emitted: the one just sampled (R144). -/
theorem readEmit_rsp (a : Addr) (s : State) : (readEmit a s).rsp = s.rsp ++ [(readEmit a s).smp] := rfl

/-- A read takes at least the settle and at most seven overshoots more (R242, R253). -/
theorem readEmit_now (a : Addr) (s : State) :
    s.now + s.params.rdSettle ≤ (readEmit a s).now ∧
      (readEmit a s).now ≤ s.now + s.params.rdSettle + 7 * s.params.stepMax := by
  have h0 := slack_le s.params s.draws
  have h1 := slack_le s.params (s.draws + 1)
  have h2 := slack_le s.params (s.draws + 2)
  have h3 := slack_le s.params (s.draws + 3)
  have h4 := slack_le s.params (s.draws + 4)
  have h5 := slack_le s.params (s.draws + 5)
  have h6 := slack_le s.params (s.draws + 6)
  simp [readEmit, readByte, stepR1, stepR2, stepR3, stepR4, stepR5, stepR6, Nat.add_assoc]
  omega

/-- A read lets the chip age and does nothing else to it, in any command state (R68). -/
theorem readEmit_aged {s : State} (h : s.pins = capturedPins) (a : Addr) : Aged s (readEmit a s) := by
  have w : s.pins.we = .high := by
    rw [h]
    rfl
  have e1 : Aged s (stepR1 a s) := pinUpdate_aged w w
  have e2 : Aged (stepR1 a s) (stepR2 (stepR1 a s)) := pinUpdate_aged w w
  have e3 := delay_aged .readSettle (stepR2 (stepR1 a s)).params.rdSettle (stepR2 (stepR1 a s))
  have e4 := sample_aged (stepR3 (stepR2 (stepR1 a s)))
  have e5 : Aged (stepR4 (stepR3 (stepR2 (stepR1 a s)))) (stepR5 (stepR4 (stepR3 (stepR2 (stepR1 a s))))) :=
    pinUpdate_aged w w
  have e6 : Aged (stepR5 (stepR4 (stepR3 (stepR2 (stepR1 a s)))))
      (stepR6 (stepR5 (stepR4 (stepR3 (stepR2 (stepR1 a s)))))) := pinUpdate_aged w w
  exact e1.trans (e2.trans (e3.trans (e4.trans (e5.trans (e6.trans (emit_aged _))))))

/-- The instant of assertion of a read: the end of R2 (R61, R143). -/
def assertTime (s : State) : Nat := s.now + s.params.slack s.draws + s.params.slack (s.draws + 1)

/-- The chip at the instant of assertion. -/
def chipAtAssert (s : State) : Chip :=
  chipElapse s.params (s.draws + 1) (assertTime s) (chipElapse s.params s.draws (s.now + s.params.slack s.draws) s.chip)

/-- The byte a read takes (R61, R143): if the chip's access time is below the settle, the cell as it was at the assertion, where the
chip was idle then; else any value. -/
theorem readEmit_smp {s : State} (h : s.pins = capturedPins) (a : Addr) :
    (readEmit a s).smp =
      if s.params.accChip < s.params.rdSettle then
        (chipCell s.params (assertTime s) (chipAtAssert s) a).getD (Config.freeByte (s.draws + 3))
      else Config.freeByte (s.draws + 3) := by
  have ha : joinAddr (addrHigh a) (addrLow a) = a := halves_addr a
  have hr : readAddr (readActivePins a) s.master = some a := by
    simp [readAddr, chipDrives, ceDriven, addrDriven, readActivePins, Pins.addr, ha]
  have hr1 : readAddr (readAddrPins a) s.master = none := by
    simp [readAddr, chipDrives, readAddrPins]
  have hp1 : (stepR1 a s).pins = readAddrPins a := by
    rw [stepR1, pinUpdate_pins, h]
    rfl
  have hc1 : (stepR1 a s).chip = chipElapse s.params s.draws (s.now + s.params.slack s.draws) s.chip := by
    rw [stepR1, pinUpdate_chip]
    exact chipSees_of_we_high (by rw [h]; rfl) (by rw [h]; rfl)
  have hp2 : (stepR2 (stepR1 a s)).pins = readActivePins a := by
    rw [stepR2, pinUpdate_pins, hp1]
    rfl
  have hc2 : (stepR2 (stepR1 a s)).chip = chipAtAssert s := by
    rw [stepR2, pinUpdate_chip, passStep_chip, hc1]
    exact chipSees_of_we_high (by rw [hp1]; rfl) (by rw [hp1]; rfl)
  have hacc : (stepR2 (stepR1 a s)).access =
      some ⟨a, assertTime s, chipCell s.params (assertTime s) (chipAtAssert s) a⟩ := by
    have hf : { (stepR1 a s).pins with ce := ⟨(stepR1 a s).pins.ce.dir, .low⟩, oe := .low } = readActivePins a := hp2
    rw [stepR2, pinUpdate_access, ← stepR2, hc2, hf]
    refine readNext_fresh (s := stepR1 a s) hr (fun hx => ?_) _ _
    rw [hp1] at hx
    exact nomatch hr1.symm.trans hx
  have hsmp : (readEmit a s).smp =
      dataLines (passStep (stepR3 (stepR2 (stepR1 a s)))) (s.draws + 3) := rfl
  have hpins : (passStep (stepR3 (stepR2 (stepR1 a s)))).pins = readActivePins a := hp2
  have hnow : (passStep (stepR3 (stepR2 (stepR1 a s)))).now =
      assertTime s + (s.params.rdSettle + s.params.slack (s.draws + 2)) + s.params.slack (s.draws + 3) := rfl
  have hpar : (passStep (stepR3 (stepR2 (stepR1 a s)))).params = s.params := rfl
  have hac : (passStep (stepR3 (stepR2 (stepR1 a s)))).access =
      some ⟨a, assertTime s, chipCell s.params (assertTime s) (chipAtAssert s) a⟩ := hacc
  generalize passStep (stepR3 (stepR2 (stepR1 a s))) = u at *
  rw [hsmp]
  simp only [dataLines, hpins, chipShows, hac, hnow, hpar]
  have hw : (s.params.accChip < s.params.rdSettle ∧ assertTime s + s.params.accChip <
      assertTime s + (s.params.rdSettle + s.params.slack (s.draws + 2)) + s.params.slack (s.draws + 3)) ↔
      s.params.accChip < s.params.rdSettle := by omega
  simp [readActivePins, Port8.released, chipDrives, ceDriven, masterDrives, hw]

/-- The byte read from an idle chip whose access time is shorter than the settle: the cell at the address (R143). -/
theorem readEmit_smp_idle {s : State} (h : s.pins = capturedPins) (hc : s.chip.cs = .idle)
    (hacc : s.params.accChip < s.params.rdSettle) (a : Addr) :
    (readEmit a s).smp = Memory.read s.params s.chip.flash a.toNat := by
  have he : chipAtAssert s = s.chip := by
    rw [chipAtAssert, chipElapse_idle hc, chipElapse_idle hc]
  rw [readEmit_smp h a, if_pos hacc, he, chipCell, chipSettle_idle hc, if_pos hc]
  rfl

/-- The byte read from a chip whose access time is not below the settle: any value (R143). -/
theorem readEmit_smp_slow {s : State} (h : s.pins = capturedPins) (a : Addr) (hacc : s.params.rdSettle ≤ s.params.accChip) :
    (readEmit a s).smp = Config.freeByte (s.draws + 3) := by
  rw [readEmit_smp h a, if_neg (by omega)]

/-- The byte read from a chip in a state other than idle that time does not move: any value (R61, R68). -/
theorem readEmit_smp_free {s : State} (h : s.pins = capturedPins) (a : Addr)
    (hs : StillUntil (readEmit a s).now s.chip.cs) (hc : s.chip.cs ≠ .idle) :
    (readEmit a s).smp = Config.freeByte (s.draws + 3) := by
  have hle : assertTime s ≤ (readEmit a s).now := by
    simp [readEmit, readByte, stepR1, stepR2, stepR3, stepR4, stepR5, stepR6, assertTime, Nat.add_assoc]
  have ht := stillUntil_mono hs hle
  have he : chipAtAssert s = s.chip := by
    rw [chipAtAssert, chipElapse_still ht (by simp only [assertTime]; omega), chipElapse_still ht (le_refl _)]
  rw [readEmit_smp h a, he, chipCell, chipSettle_still ht, if_neg hc]
  simp

end Sys2Proof.Machine
end

