-- ==== Sys2Proof/Laws/Sequences.lean ====
section
/-! SUPPORT. A list of writes and a row of reads as one operation each: the trace, the cycles and their times, the pins, the chip. The command sequence, the page load and the page read are such lists and rows. -/

namespace Sys2Proof.Machine

open Sys2Proof.Safety

/-! A list of writes. -/

/-- The writes of a list one after the other. -/
def writeAll : List (Addr × Byte) → State → State
  | [], s => s
  | x :: rest, s => writeAll rest (writeByte x.1 x.2 s)

theorem writeAll_append : ∀ (l1 l2 : List (Addr × Byte)) (s : State), writeAll (l1 ++ l2) s = writeAll l2 (writeAll l1 s)
  | [], _, _ => rfl
  | x :: rest, l2, s => writeAll_append rest l2 (writeByte x.1 x.2 s)

theorem writeAll_context : ∀ (l : List (Addr × Byte)) (s : State), SameContext s (writeAll l s)
  | [], s => .refl s
  | x :: rest, s => (writeByte_context x.1 x.2 s).trans (writeAll_context rest _)

/-- A command sequence is three writes (R161). -/
theorem cmdSeq_eq (c : Byte) (s : State) : cmdSeq c s = writeAll (cmdBytes c) s := rfl

/-- The load of a page is 128 writes at ascending addresses (R162). -/
theorem loads_eq (base : Addr) (s : State) : ∀ k : Nat,
    rounds (loadByte base) k s = writeAll ((List.range k).map fun i => (addrAt base i, bufByte s.pbuf i)) s
  | 0 => rfl
  | k + 1 => by
    rw [rounds, loads_eq base s k, List.range_succ, List.map_append, writeAll_append, loadByte,
      (writeAll_context _ s).pbuf]
    rfl

/-- A page write: the ports out, 131 writes, the wait, the ports released (R162). -/
theorem writePage_eq (base : Addr) (s : State) :
    writePage base s = setBusRel (stepProgWait (writeAll (pageWriteCycles base s.pbuf) (setBusOut s))) := by
  have h : (cmdSeq cmdPageLoad (setBusOut s)).pbuf = s.pbuf := (cmdSeq_context _ _).pbuf
  rw [writePage, loads_eq, h, pageWriteCycles, writeAll_append, cmdSeq_eq]

/-- A chip erase: the ports out, six writes, the wait, the ports released (R163). -/
theorem eraseChip_eq (s : State) :
    eraseChip s = setBusRel (stepEraseWait (writeAll eraseWriteCycles (setBusOut s))) := rfl

/-- The write cycles of a list of writes with their times. -/
def writeTimes : List (Addr × Byte) → State → List (Nat × Addr × Byte)
  | [], _ => []
  | x :: rest, s => (writeTime s, x.1, x.2) :: writeTimes rest (writeByte x.1 x.2 s)

theorem writeTimes_snd : ∀ (l : List (Addr × Byte)) (s : State), (writeTimes l s).map Prod.snd = l
  | [], _ => rfl
  | x :: rest, s => by rw [writeTimes, List.map_cons, writeTimes_snd rest]

/-- The pins drive all three ports with the chip deselected, and stay so from write to write (R197). -/
theorem sWidle_driven (a : Addr) (d : Byte) : PinState.sWidle.holds (drivenPins a d) = true :=
  (sWidle_iff _).mpr ⟨a, d, rfl⟩

theorem writeAll_sWidle : ∀ (l : List (Addr × Byte)) {s : State}, PinState.sWidle.holds s.pins = true →
    PinState.sWidle.holds (writeAll l s).pins = true
  | [], _, h => h
  | x :: rest, s, h => by
    refine writeAll_sWidle rest ?_
    rw [writeByte_pins h]
    exact sWidle_driven x.1 x.2

/-- The trace of a list of writes: its cycles in order, no read cycle, every snapshot with all three ports driving. -/
theorem writeAll_trace : ∀ (l : List (Addr × Byte)) {s : State}, PinState.sWidle.holds s.pins = true →
    ∃ e, (writeAll l s).trace = s.trace ++ e ∧ writeCycles s.pins e = writeTimes l s ∧ readCycles s.pins e = [] ∧
      lastPins s.pins e = (writeAll l s).pins ∧ (∀ q ∈ snapshots e, portsOut q = true)
  | [], s, _ => ⟨[], by simp [writeAll], rfl, rfl, rfl, by simp [snapshots]⟩
  | x :: rest, s, h => by
    have hp := writeByte_pins h x.1 x.2
    have hd : PinState.sWidle.holds (writeByte x.1 x.2 s).pins = true := hp ▸ sWidle_driven x.1 x.2
    obtain ⟨e, h1, h2, h3, h4, h5⟩ := writeAll_trace rest hd
    have hl : lastPins s.pins (writeEntries x.1 x.2 s) = (writeByte x.1 x.2 s).pins := by
      rw [hp]
      rfl
    have hn : (stepW2 (stepW1 x.1 x.2 s)).now = writeTime s := rfl
    obtain ⟨a, d, hq⟩ := (sWidle_iff _).mp h
    refine ⟨writeEntries x.1 x.2 s ++ e, ?_, ?_, ?_, ?_, ?_⟩
    · rw [writeAll, h1, writeByte_trace h, List.append_assoc]
    · rw [writeCycles_append, hl, h2, writeTimes]
      simp [writeEntries, writeCycles, hn, hq, drivenPins, pulsePins, Pins.inWriteCycle, Pins.addr, halves_addr]
    · rw [readCycles_append, hl, h3]
      rfl
    · rw [lastPins_append, hl, h4, writeAll]
    · intro q hmem
      rw [snapshots_append, List.mem_append] at hmem
      rcases hmem with hmem | hmem
      · simp only [writeEntries, snapshots, List.mem_cons, List.not_mem_nil, or_false] at hmem
        rcases hmem with rfl | rfl | rfl <;> rfl
      · exact h5 q hmem

@[simp] theorem writeAll_rsp : ∀ (l : List (Addr × Byte)) (s : State), (writeAll l s).rsp = s.rsp
  | [], _ => rfl
  | x :: rest, s => (writeAll_rsp rest (writeByte x.1 x.2 s)).trans rfl

@[simp] theorem writeAll_smp : ∀ (l : List (Addr × Byte)) (s : State), (writeAll l s).smp = s.smp
  | [], _ => rfl
  | x :: rest, s => (writeAll_smp rest (writeByte x.1 x.2 s)).trans rfl

/-- How long a list of writes takes (R253). -/
theorem writeAll_now : ∀ (l : List (Addr × Byte)) (s : State),
    s.now + l.length * (s.params.wp + s.params.wrRec) ≤ (writeAll l s).now ∧
      (writeAll l s).now ≤ s.now + l.length * (s.params.wp + s.params.wrRec + 5 * s.params.stepMax)
  | [], s => by simp [writeAll]
  | x :: rest, s => by
    have h1 := writeTime_bounds s
    have h2 := writeByte_now x.1 x.2 s
    have h3 := writeAll_now rest (writeByte x.1 x.2 s)
    rw [(writeByte_context x.1 x.2 s).params] at h3
    rw [writeAll, List.length_cons, Nat.succ_mul, Nat.succ_mul]
    omega

/-- From one falling edge to the next pass the dwell, the recovery, and at most five overshoots (R167). -/
theorem writeTime_next (a : Addr) (d : Byte) (s : State) :
    writeTime s + s.params.wp + s.params.wrRec ≤ writeTime (writeByte a d s) ∧
      writeTime (writeByte a d s) ≤ writeTime s + s.params.wp + s.params.wrRec + 5 * s.params.stepMax := by
  have h1 := writeByte_now a d s
  have h2 := writeTime_bounds (writeByte a d s)
  rw [(writeByte_context a d s).params] at h2
  omega

/-- The gap rule over a whole list of writes (R167, R245): what lies between consecutive falling edges. -/
theorem writeTimes_gap : ∀ (l : List (Addr × Byte)) (s : State) (k : Nat) (x y : Nat × Addr × Byte),
    (writeTimes l s)[k]? = some x → (writeTimes l s)[k + 1]? = some y →
      y.1 ≤ x.1 + (s.params.wp + s.params.wrRec + 5 * s.params.stepMax) ∧ x.1 + s.params.wp + s.params.wrRec ≤ y.1
  | [], s, k, x, y, hx, _ => by simp [writeTimes] at hx
  | [z], s, k, x, y, _, hy => by simp [writeTimes] at hy
  | z :: z2 :: rest, s, 0, x, y, hx, hy => by
    simp only [writeTimes, List.getElem?_cons_succ, List.getElem?_cons_zero, Option.some.injEq] at hx hy
    have h := writeTime_next z.1 z.2 s
    subst hx hy
    simp only
    omega
  | z :: z2 :: rest, s, k + 1, x, y, hx, hy => by
    rw [writeTimes, List.getElem?_cons_succ] at hx hy
    have ih := writeTimes_gap (z2 :: rest) (writeByte z.1 z.2 s) k x y hx hy
    rw [(writeByte_context z.1 z.2 s).params] at ih
    exact ih

/-! A whole sequence: ports out, a list of writes, a wait, ports released. -/

/-- What WRPAGE and ERASE do between their start and their end (R162, R163). -/
def writeSequence (kind : DelayKind) (T : Nat) (l : List (Addr × Byte)) (s : State) : State :=
  setBusRel (delay kind T (writeAll l (setBusOut s)))

/-- A page write is such a sequence (R162). -/
theorem writePage_sequence (base : Addr) (s : State) :
    writePage base s = writeSequence .program s.params.progWait (pageWriteCycles base s.pbuf) s := by
  rw [writePage_eq, stepProgWait, (writeAll_context _ (setBusOut s)).params]
  rfl

/-- A chip erase is such a sequence (R163). -/
theorem eraseChip_sequence (s : State) :
    eraseChip s = writeSequence .erase s.params.eraseWait eraseWriteCycles s := by
  rw [eraseChip_eq, stepEraseWait, (writeAll_context _ (setBusOut s)).params]
  rfl

theorem writeSequence_context (kind : DelayKind) (T : Nat) (l : List (Addr × Byte)) (s : State) :
    SameContext s (writeSequence kind T l s) :=
  (pinUpdate_context _ s).trans <| (writeAll_context l _).trans <| (delay_context _ _ _).trans (pinUpdate_context _ _)

@[simp] theorem writeSequence_rsp (kind : DelayKind) (T : Nat) (l : List (Addr × Byte)) (s : State) :
    (writeSequence kind T l s).rsp = s.rsp := writeAll_rsp l (setBusOut s)

@[simp] theorem writeSequence_smp (kind : DelayKind) (T : Nat) (l : List (Addr × Byte)) (s : State) :
    (writeSequence kind T l s).smp = s.smp := writeAll_smp l (setBusOut s)

theorem setBusOut_sWidle {s : State} (h : s.pins = capturedPins) : PinState.sWidle.holds (setBusOut s).pins = true := by
  simp [setBusOut, h, capturedPins, PinState.holds, portsOut, Port8.released]

theorem writeSequence_pins {s : State} (h : s.pins = capturedPins) (kind : DelayKind) (T : Nat)
    (l : List (Addr × Byte)) : (writeSequence kind T l s).pins = capturedPins := by
  obtain ⟨a, d, hq⟩ := (sWidle_iff _).mp (writeAll_sWidle l (setBusOut_sWidle h))
  simp [writeSequence, setBusRel, Pins.released, hq, drivenPins, capturedPins]

/-- The trace of a sequence: its write cycles with their times, no read cycle, all three ports driving in every snapshot but
that of the release, the wait last (R96, R98, R169). -/
theorem writeSequence_trace {s : State} (h : s.pins = capturedPins) (kind : DelayKind) (T : Nat)
    (l : List (Addr × Byte)) :
    ∃ e n d, (writeSequence kind T l s).trace = s.trace ++ (e ++ [.delay n kind d, .pins (writeSequence kind T l s).now capturedPins]) ∧
      writeCycles s.pins (e ++ [.delay n kind d, .pins (writeSequence kind T l s).now capturedPins]) = writeTimes l (setBusOut s) ∧
      readCycles s.pins (e ++ [.delay n kind d, .pins (writeSequence kind T l s).now capturedPins]) = [] ∧
      T ≤ d ∧ d ≤ T + s.params.stepMax ∧ (∀ q ∈ snapshots e, portsOut q = true) ∧
      (writeSequence kind T l s).dly = d := by
  have hw := setBusOut_sWidle h
  have hpins := writeSequence_pins h kind T l
  have hp : (writeAll l (setBusOut s)).params = s.params := (writeAll_context l _).params
  obtain ⟨e, t1, t2, t3, t4, t5⟩ := writeAll_trace l hw
  have hd := slack_le (writeAll l (setBusOut s)).params (writeAll l (setBusOut s)).draws
  obtain ⟨a, d, hq⟩ := (sWidle_iff _).mp (writeAll_sWidle l hw)
  have hfirst : ∃ n, (setBusOut s).trace = s.trace ++ [.pins n (setBusOut s).pins] := ⟨_, rfl⟩
  obtain ⟨n, hfirst⟩ := hfirst
  have hne : (setBusOut s).pins.inWriteCycle = false := by
    simp [setBusOut, h, capturedPins, Pins.inWriteCycle]
  refine ⟨.pins n (setBusOut s).pins :: e, (delay kind T (writeAll l (setBusOut s))).now,
    T + (writeAll l (setBusOut s)).params.slack (writeAll l (setBusOut s)).draws, ?_, ?_, ?_, by omega,
    by rw [hp] at hd; rw [hp]; omega, ?_, rfl⟩
  · have : (writeSequence kind T l s).trace = (delay kind T (writeAll l (setBusOut s))).trace ++
        [.pins (writeSequence kind T l s).now (writeSequence kind T l s).pins] := rfl
    rw [this, hpins, delay_trace, t1, hfirst]
    simp
  · rw [List.cons_append, writeCycles, hne, Bool.and_false]
    simp only [Bool.false_eq_true, if_false]
    rw [writeCycles_append, t2, t4]
    simp [writeCycles, show capturedPins.inWriteCycle = false from rfl]
  · rw [List.cons_append, readCycles, readCycles_append, t3, t4]
    simp [readCycles]
  · intro q hmem
    rw [snapshots, List.mem_cons] at hmem
    rcases hmem with rfl | hmem
    · simp [setBusOut, portsOut]
    · exact t5 q hmem

/-! A row of reads. -/

/-- The reads of the first `k` addresses from `base` on, each byte emitted. -/
def readAll (base : Addr) (k : Nat) (s : State) : State := rounds (fun i => readEmit (addrAt base i)) k s

theorem readPage_eq (base : Addr) (s : State) : readPage base s = readAll base pageSize s := rfl

theorem readAll_context (base : Addr) (k : Nat) (s : State) : SameContext s (readAll base k s) :=
  rounds_context (fun _ s => readEmit_context _ s) k s

theorem readAll_pins (base : Addr) {s : State} (h : s.pins = capturedPins) : ∀ k : Nat,
    (readAll base k s).pins = capturedPins
  | 0 => h
  | k + 1 => readEmit_pins (readAll_pins base h k) _

/-- The trace of a row of reads: one read cycle for each byte appended to RSP, no write cycle. -/
theorem readAll_trace (base : Addr) {s : State} (h : s.pins = capturedPins) : ∀ k : Nat,
    ∃ e bytes, (readAll base k s).trace = s.trace ++ e ∧ (readAll base k s).rsp = s.rsp ++ bytes ∧ bytes.length = k ∧
      readCycles s.pins e = ((List.range k).map (addrAt base)).zip bytes ∧ writeCycles s.pins e = [] ∧
      lastPins s.pins e = capturedPins ∧ (0 < k → bytes.getLast? = some (readAll base k s).smp)
  | 0 => ⟨[], [], by simp [readAll, rounds], by simp [readAll, rounds], rfl, rfl, rfl, h, by simp⟩
  | k + 1 => by
    obtain ⟨e, bytes, h1, h2, h3, h4, h5, h6, -⟩ := readAll_trace base h k
    have hp := readAll_pins base h k
    have hs : readAll base (k + 1) s = readEmit (addrAt base k) (readAll base k s) := rfl
    refine ⟨e ++ readEntries (addrAt base k) (readAll base k s), bytes ++ [(readAll base (k + 1) s).smp], ?_, ?_, ?_, ?_,
      ?_, ?_, ?_⟩
    · rw [hs, readEmit_trace hp, h1, List.append_assoc]
    · rw [hs, readEmit_rsp, h2, List.append_assoc]
    · simp [h3]
    · rw [readCycles_append, h4, h6, List.range_succ, List.map_append, List.zip_append (by simp [h3])]
      simp [readEntries, readCycles, Pins.inReadCycle, readActivePins, Pins.addr, halves_addr, hs, readEmit]
    · rw [writeCycles_append, h5, h6]
      rfl
    · rw [lastPins_append]
      rfl
    · intro _
      simp

/-- How long a row of reads takes (R253). -/
theorem readAll_now (base : Addr) (s : State) : ∀ k : Nat,
    s.now + k * s.params.rdSettle ≤ (readAll base k s).now ∧
      (readAll base k s).now ≤ s.now + k * (s.params.rdSettle + 7 * s.params.stepMax)
  | 0 => by simp [readAll, rounds]
  | k + 1 => by
    have h1 := readAll_now base s k
    have h2 := readEmit_now (addrAt base k) (readAll base k s)
    rw [(readAll_context base k s).params] at h2
    have hs : readAll base (k + 1) s = readEmit (addrAt base k) (readAll base k s) := rfl
    rw [hs, Nat.succ_mul, Nat.succ_mul]
    omega

/-- Reads let the chip age and do nothing else to it, in any command state (R68). -/
theorem readAll_aged (base : Addr) {s : State} (h : s.pins = capturedPins) : ∀ k : Nat, Aged s (readAll base k s)
  | 0 => .refl s
  | k + 1 => (readAll_aged base h k).trans (readEmit_aged (readAll_pins base h k) _)

/-- Reads do not move an idle chip (R68). -/
theorem readAll_chip_idle (base : Addr) {s : State} (h : s.pins = capturedPins) (hc : s.chip.cs = .idle) (k : Nat) :
    (readAll base k s).chip = s.chip :=
  (readAll_aged base h k).still (stillUntil_idle hc _)

/-- The bytes read from an idle chip are its cells in ascending order (R143, R164). -/
theorem readAll_rsp_idle (base : Addr) {s : State} (h : s.pins = capturedPins) (hc : s.chip.cs = .idle)
    (hacc : s.params.accChip < s.params.rdSettle) : ∀ k : Nat,
    (readAll base k s).rsp =
      s.rsp ++ (List.range k).map fun i => Memory.read s.params s.chip.flash (addrAt base i).toNat
  | 0 => by simp [readAll, rounds]
  | k + 1 => by
    have ih := readAll_rsp_idle base h hc hacc k
    have hk := readAll_chip_idle base h hc k
    have hp := (readAll_context base k s).params
    have hs : readAll base (k + 1) s = readEmit (addrAt base k) (readAll base k s) := rfl
    rw [hs, readEmit_rsp, readEmit_smp_idle (readAll_pins base h k) (hk ▸ hc) (by rw [hp]; exact hacc), hk, hp, ih,
      List.range_succ, List.map_append, List.append_assoc]
    rfl

end Sys2Proof.Machine
end

