-- ==== Sys2Proof/Laws/ChipWrites.lean ====
section
/-! SUPPORT. What a write of the block does to the chip when the parameters meet their constraints (R6, R70, R167): the chip decodes it, and time alone does not move the chip from one write to the next. -/

namespace Sys2Proof.Machine

open Sys2Proof.Safety

/-- The chip is in no program or erase cycle and has its meaning, and its load window, where one is open, outlasts the next write
(R167). -/
def Calm (s : State) : Prop :=
  match s.chip.cs with
  | .load _ _ tLast => s.now ≤ tLast + s.params.wp + s.params.wrRec + 3 * s.params.stepMax
  | .prog _ _ _ _ _ => False
  | .erase _ _ _ => False
  | .idle => True
  | .u1 => True
  | .u2 => True
  | .e3 => True
  | .e4 => True
  | .e5 => True
  | .noMeaning => False

theorem calm_idle {s : State} (h : s.chip.cs = .idle) : Calm s := by simp [Calm, h]

/-- A calm chip is not moved until the next falling edge. -/
theorem stillUntil_writeTime {s : State} (hp : s.params.Legal) (h : Calm s) : StillUntil (writeTime s) s.chip.cs := by
  obtain ⟨-, -, -, -, -, hgap, -⟩ := hp
  have hw := writeTime_bounds s
  cases hc : s.chip.cs with
  | load pg lb tl =>
    simp only [Calm, hc] at h
    cases pg with
    | none => simp [StillUntil]
    | some q =>
      simp only [StillUntil]
      omega
  | _ => simp_all [Calm, StillUntil]

/-- A write at a calm chip that neither confirms an erase nor lacks a meaning: the chip decodes it and is calm again; its cells stay
(R64, R65, R67). -/
theorem writeByte_decode {s : State} (h : PinState.sWidle.holds s.pins = true) (hp : s.params.Legal)
    (hc : s.params.wpChip ≤ wpMin) (hs : Calm s) (a : Addr) (d : Byte) (cs : ChipState)
    (hd : chipDecode s.params (s.draws + 1) a d (writeTime s) s.chip.cs = cs) (hk : StillUntil 0 cs)
    (hl : ∀ pg lb tl, cs = .load pg lb tl → tl = writeTime s) :
    (writeByte a d s).chip = ⟨s.chip.flash, cs, writeTime s⟩ ∧ Calm (writeByte a d s) := by
  have hq := stillUntil_writeTime hp hs
  have hset : chipSettle s.params (writeTime s) s.chip = s.chip := chipSettle_still hq
  have hw : chipWrite s.params (s.draws + 1) a d (writeTime s) s.chip = ⟨s.chip.flash, cs, writeTime s⟩ := by
    simp only [chipWrite, hset, hd, cellsAfter_still hk]
  have hn := writeByte_now a d s
  obtain ⟨hwp, -, -, -, -, hgap, -⟩ := hp
  have hchip : (writeByte a d s).chip = ⟨s.chip.flash, cs, writeTime s⟩ := by
    rw [← hw]
    refine writeByte_chip h a d (by omega) hq ?_
    rw [hw]
    cases cs with
    | load pg lb tl =>
      have := hl pg lb tl rfl
      cases pg with
      | none => simp [StillUntil]
      | some q =>
        simp only [StillUntil]
        omega
    | _ => simp_all [StillUntil]
  refine ⟨hchip, ?_⟩
  unfold Calm
  rw [hchip, (writeByte_context a d s).params]
  cases cs with
  | load pg lb tl =>
    have := hl pg lb tl rfl
    simp only
    omega
  | _ => simp_all [StillUntil]

/-! Writes without meaning. -/

/-- The chip has lost its meaning, and its cells are free values (R69). -/
def Lost (s : State) : Prop := s.chip.cs = .noMeaning ∧ ∃ n, s.chip.flash = openFlash s.params n

theorem delay_lost {s : State} (k : DelayKind) (T : Nat) (h : s.chip.cs = .noMeaning) : Lost (delay k T s) := by
  rw [Lost, delay_chip, chipElapse_noMeaning h]
  exact ⟨rfl, s.draws, rfl⟩

/-- A chip that has lost its meaning stays so over a pin update, whatever it changes. -/
theorem pinUpdate_noMeaning {s : State} (f : Pins → Pins) (h : s.chip.cs = .noMeaning) :
    (pinUpdate f s).chip.cs = .noMeaning := by
  rw [← hasMeaning_false, ← Bool.not_eq_true]
  intro hm
  have := pinUpdate_meaning f s hm
  rw [h] at this
  cases this

/-- The pin updates at the end of an operation, where write enable is high, leave its cells free too. -/
theorem pinUpdate_lost {s : State} {f : Pins → Pins} (h1 : s.pins.we = .high) (h2 : (f s.pins).we = .high)
    (h : s.chip.cs = .noMeaning) : Lost (pinUpdate f s) := by
  rw [Lost, pinUpdate_chip, chipSees_of_we_high h1 h2, passStep_chip, chipElapse_noMeaning h]
  exact ⟨rfl, s.draws, rfl⟩

/-- A write whose falling edge takes the chip's meaning (R69). -/
theorem writeByte_lost {s : State} {a : Addr} {d : Byte} (h : (stepW2 (stepW1 a d s)).chip.cs = .noMeaning) :
    Lost (writeByte a d s) :=
  delay_lost _ _ (pinUpdate_noMeaning _ (delay_lost _ _ h).1)

/-- A write at a chip that has lost its meaning. -/
theorem writeByte_stays_lost {s : State} (a : Addr) (d : Byte) (h : s.chip.cs = .noMeaning) : Lost (writeByte a d s) :=
  writeByte_lost (pinUpdate_noMeaning _ (pinUpdate_noMeaning _ h))

theorem writeAll_stays_lost : ∀ (l : List (Addr × Byte)) {s : State}, Lost s → Lost (writeAll l s)
  | [], _, h => h
  | x :: rest, _, h => writeAll_stays_lost rest (writeByte_stays_lost x.1 x.2 h.1)

end Sys2Proof.Machine
end

