-- ==== Sys2Proof/Laws/Encoding.lean ====
section
/-! SUPPORT. The three fields of the canonical word (R90), read back. -/

namespace Sys2Proof

/-- The fields of `OP << 24 | A << 8 | B` are its parts (R90). -/
theorem encode_fields (i : Instr) :
    fieldOp (encode i) = i.op.code ∧ fieldA (encode i) = i.encA ∧ fieldB (encode i) = i.encB := by
  refine ⟨?_, ?_, ?_⟩ <;> apply BitVec.eq_of_getLsbD_eq <;> intro k hk
  · have h1 : ¬ (24 + k < 8) := by omega
    have h2 : ¬ (24 + k - 8 < 16) := by omega
    have h3 : 24 + k - 8 - 16 = k := by omega
    simp only [fieldOp, encode, BitVec.getLsbD_extractLsb', BitVec.getLsbD_cast, BitVec.getLsbD_append]
    simp [hk, h1, h2, h3]
  · have h1 : 8 + k - 8 = k := by omega
    simp only [fieldA, encode, BitVec.getLsbD_extractLsb', BitVec.getLsbD_cast, BitVec.getLsbD_append]
    simp [hk, h1]
  · simp only [fieldB, encode, BitVec.getLsbD_extractLsb', BitVec.getLsbD_cast, BitVec.getLsbD_append]
    simp [hk]

/-- The field `OP` by number (R90). -/
theorem opNat_eq (w : CmdWord) : CmdWord.opNat w = (fieldOp w).toNat := by
  have := w.isLt
  simp only [CmdWord.opNat, fieldOp, BitVec.extractLsb'_toNat, Nat.shiftRight_eq_div_pow]
  omega

/-- The field `A` by number (R90). -/
theorem aNat_eq (w : CmdWord) : CmdWord.aNat w = (fieldA w).toNat := by
  simp only [CmdWord.aNat, fieldA, BitVec.extractLsb'_toNat, Nat.shiftRight_eq_div_pow]

end Sys2Proof
end

