-- ==== Sys2Proof/Laws/Relabel.lean ====
section
/-! SUPPORT. No effect looks at BUSY or SEQ: every operation of the model commutes with setting the two. -/

namespace Sys2Proof.Machine

/-- The state with other values of BUSY and SEQ (R29, R30). -/
def relabel (b : Bool) (q : Seq) (s : State) : State := { s with busy := b, seq := q }

/-- A change of the state that neither looks at BUSY and SEQ nor writes them. -/
def Blind (f : State → State) : Prop := ∀ (b : Bool) (q : Seq) (s : State), f (relabel b q s) = relabel b q (f s)

theorem Blind.comp {f g : State → State} (hf : Blind f) (hg : Blind g) : Blind (fun s => f (g s)) := by
  intro b q s
  show f (g (relabel b q s)) = _
  rw [hg, hf]

@[simp] theorem relabel_relabel (b b' : Bool) (q q' : Seq) (s : State) :
    relabel b q (relabel b' q' s) = relabel b q s := rfl

/-- A state is its relabelling by its own BUSY and SEQ. -/
theorem relabel_self (s : State) : relabel s.busy s.seq s = s := rfl

theorem begin_eq (s : State) : begin s = relabel true s.seq s := rfl

theorem finish_eq (s : State) : finish s = relabel false .idle s := rfl

/-- An operation, seen from any labelling of its state. -/
theorem operate_eq {body : State → State} (h : Blind body) (s : State) : operate body s = relabel false .idle (body s) := by
  rw [operate, begin_eq, h, finish_eq, relabel_relabel]

theorem blind_pinUpdate (f : Pins → Pins) : Blind (pinUpdate f) := fun _ _ _ => rfl

theorem blind_delay (k : DelayKind) (T : Nat) : Blind (delay k T) := fun _ _ _ => rfl

theorem blind_sample : Blind sample := fun _ _ _ => rfl

theorem blind_emit : Blind emit := fun _ _ _ => rfl

theorem blind_c1 : Blind stepC1 := fun _ _ _ => rfl

theorem blind_l3 : Blind stepL3 := fun _ _ _ => rfl

theorem blind_l5 : Blind stepL5 := fun _ _ _ => rfl

theorem blind_captureBus : Blind captureBus :=
  (blind_pinUpdate _).comp ((blind_pinUpdate _).comp ((blind_pinUpdate _).comp blind_c1))

theorem blind_releaseBus : Blind releaseBus :=
  blind_l5.comp ((blind_pinUpdate _).comp (blind_l3.comp ((blind_pinUpdate _).comp (blind_pinUpdate _))))

theorem blind_w3 : Blind stepW3 := fun _ _ _ => rfl

theorem blind_w5 : Blind stepW5 := fun _ _ _ => rfl

theorem blind_writeByte (a : Addr) (d : Byte) : Blind (writeByte a d) :=
  blind_w5.comp ((blind_pinUpdate _).comp (blind_w3.comp ((blind_pinUpdate _).comp (blind_pinUpdate _))))

theorem blind_r3 : Blind stepR3 := fun _ _ _ => rfl

theorem blind_r4 : Blind stepR4 := fun _ _ _ => rfl

theorem blind_r1 (a : Addr) : Blind (stepR1 a) := blind_pinUpdate _

theorem blind_r2 : Blind stepR2 := blind_pinUpdate _

theorem blind_r5 : Blind stepR5 := blind_pinUpdate _

theorem blind_r6 : Blind stepR6 := blind_pinUpdate _

theorem blind_readByte (a : Addr) : Blind (readByte a) :=
  blind_r6.comp (blind_r5.comp (blind_r4.comp (blind_r3.comp (blind_r2.comp (blind_r1 a)))))

theorem blind_readEmit (a : Addr) : Blind (readEmit a) := blind_emit.comp (blind_readByte a)

theorem blind_cmdSeq (c : Byte) : Blind (cmdSeq c) :=
  (blind_writeByte _ _).comp ((blind_writeByte _ _).comp (blind_writeByte _ _))

theorem blind_loadByte (base : Addr) (i : Nat) : Blind (loadByte base i) :=
  fun b q s => blind_writeByte (addrAt base i) (bufByte s.pbuf i) b q s

theorem blind_rounds {f : Nat → State → State} (h : ∀ i, Blind (f i)) : ∀ k, Blind (rounds f k)
  | 0 => fun _ _ _ => rfl
  | k + 1 => (h k).comp (blind_rounds h k)

theorem blind_progWait : Blind stepProgWait := fun _ _ _ => rfl

theorem blind_eraseWait : Blind stepEraseWait := fun _ _ _ => rfl

theorem blind_writePage (base : Addr) : Blind (writePage base) :=
  (blind_pinUpdate _).comp (blind_progWait.comp ((blind_rounds (blind_loadByte base) pageSize).comp
    ((blind_cmdSeq _).comp (blind_pinUpdate _))))

theorem blind_eraseChip : Blind eraseChip :=
  (blind_pinUpdate _).comp (blind_eraseWait.comp ((blind_cmdSeq _).comp ((blind_cmdSeq _).comp (blind_pinUpdate _))))

theorem blind_readPage (base : Addr) : Blind (readPage base) :=
  blind_rounds (fun _ => blind_readEmit _) pageSize

theorem blind_bufLoad (idx : BufIdx) (data : Byte) : Blind (bufLoad idx data) := fun _ _ _ => rfl

theorem blind_bufClear : Blind bufClear := fun _ _ _ => rfl

theorem blind_inWindow {inner : State → State} (h : Blind inner) : Blind (inWindow inner) :=
  blind_releaseBus.comp (h.comp blind_captureBus)

/-- Every micro-step's effect is blind to BUSY and SEQ (R190). -/
theorem blind_microEffect (op : Op) (i : Nat) (u : Upc) : Blind (fun s => microEffect op i s u) := by
  intro b q s
  cases u with
  | cmd k w => cases w <;> rfl
  | load w => cases w <;> rfl
  | read r => cases r <;> rfl
  | _ => rfl

end Sys2Proof.Machine
end

