-- ==== Sys2Proof/Laws/MicroRuns.lean ====
section
/-! SUPPORT. Micro-steps (R190): what one can do, and how runs of them compose. -/

namespace Sys2Proof.Machine

/-- What a micro-step can do (R10, R11, R190): a pin update, which at C1 and L5 moves the mode too, a delay, a sample, an emit, or a
write to the page buffer. -/
theorem microEffect_cases (op : Op) (i : Nat) (s : State) (u : Upc) :
    (∃ f, microEffect op i s u = pinUpdate f s) ∨
      (u = .c1 ∧ microEffect op i s u = stepC1 s) ∨ (u = .l5 ∧ microEffect op i s u = stepL5 s) ∨
      (∃ k T, microEffect op i s u = delay k T s) ∨ (u = .read .r4 ∧ microEffect op i s u = sample s) ∨
      (u = .emit ∧ microEffect op i s u = emit s) ∨
      (u = .pbload ∧ microEffect op i s u = bufLoad (s.aReg.extractLsb' 0 7) s.bReg s) ∨
      (u = .pbclr ∧ microEffect op i s u = bufClear s) := by
  cases u with
  | c1 => exact .inr (.inl ⟨rfl, rfl⟩)
  | l5 => exact .inr (.inr (.inl ⟨rfl, rfl⟩))
  | cmd k w => cases w with
    | w1 => exact .inl ⟨_, by rw [microEffect, stepW, stepW1]⟩
    | w2 => exact .inl ⟨_, by rw [microEffect, stepW, stepW2]⟩
    | w3 => exact .inr (.inr (.inr (.inl ⟨_, _, by rw [microEffect, stepW, stepW3]⟩)))
    | w4 => exact .inl ⟨_, by rw [microEffect, stepW, stepW4]⟩
    | w5 => exact .inr (.inr (.inr (.inl ⟨_, _, by rw [microEffect, stepW, stepW5]⟩)))
  | load w => cases w with
    | w1 => exact .inl ⟨_, by rw [microEffect, stepW, stepW1]⟩
    | w2 => exact .inl ⟨_, by rw [microEffect, stepW, stepW2]⟩
    | w3 => exact .inr (.inr (.inr (.inl ⟨_, _, by rw [microEffect, stepW, stepW3]⟩)))
    | w4 => exact .inl ⟨_, by rw [microEffect, stepW, stepW4]⟩
    | w5 => exact .inr (.inr (.inr (.inl ⟨_, _, by rw [microEffect, stepW, stepW5]⟩)))
  | loadNext => exact .inl ⟨_, by rw [microEffect, stepW1]⟩
  | progWait => exact .inr (.inr (.inr (.inl ⟨_, _, by rw [microEffect, stepProgWait]⟩)))
  | eraseWait => exact .inr (.inr (.inr (.inl ⟨_, _, by rw [microEffect, stepEraseWait]⟩)))
  | read r => cases r with
    | r1 => exact .inl ⟨_, by rw [microEffect, stepR, stepR1]⟩
    | r2 => exact .inl ⟨_, by rw [microEffect, stepR, stepR2]⟩
    | r3 => exact .inr (.inr (.inr (.inl ⟨_, _, by rw [microEffect, stepR, stepR3]⟩)))
    | r4 => exact .inr (.inr (.inr (.inr (.inl ⟨rfl, rfl⟩))))
    | r5 => exact .inl ⟨_, by rw [microEffect, stepR, stepR5]⟩
    | r6 => exact .inl ⟨_, by rw [microEffect, stepR, stepR6]⟩
  | emit => exact .inr (.inr (.inr (.inr (.inr (.inl ⟨rfl, rfl⟩)))))
  | pbload => exact .inr (.inr (.inr (.inr (.inr (.inr (.inl ⟨rfl, rfl⟩))))))
  | pbclr => exact .inr (.inr (.inr (.inr (.inr (.inr (.inr ⟨rfl, rfl⟩))))))
  | c2 => exact .inl ⟨_, by rw [microEffect, stepC2]⟩
  | c3 => exact .inl ⟨_, by rw [microEffect, stepC3]⟩
  | c4 => exact .inl ⟨_, by rw [microEffect, stepC4]⟩
  | b1 => exact .inl ⟨_, by rw [microEffect, setBusOut]⟩
  | b2 => exact .inl ⟨_, by rw [microEffect, setBusRel]⟩
  | l1 => exact .inl ⟨_, by rw [microEffect, stepL1]⟩
  | l2 => exact .inl ⟨_, by rw [microEffect, stepL2]⟩
  | l3 => exact .inl ⟨_, by rw [microEffect, stepL3]⟩
  | l4 => exact .inl ⟨_, by rw [microEffect, stepL4]⟩

/-- Every micro-step marks exactly the chip's loss of meaning (R211). -/
theorem microEffect_marked (op : Op) (i : Nat) (s : State) (u : Upc) : Marked s (microEffect op i s u) := by
  obtain ⟨f, h⟩ | ⟨-, h⟩ | ⟨-, h⟩ | ⟨k, T, h⟩ | ⟨-, h⟩ | ⟨-, h⟩ | ⟨-, h⟩ | ⟨-, h⟩ := microEffect_cases op i s u <;> rw [h]
  · exact pinUpdate_marked f s
  · exact stepC1_marked s
  · exact stepL5_marked s
  · exact delay_marked k T s
  · exact sample_marked s
  · exact emit_marked s
  · exact bufLoad_marked _ _ s
  · exact bufClear_marked s

/-- Every micro-step keeps the read cycle in progress the one the lines assert (R61). -/
theorem microEffect_follows (op : Op) (i : Nat) {s : State} (u : Upc) (h : Safety.AccessFollowsLines s) :
    Safety.AccessFollowsLines (microEffect op i s u) := by
  obtain ⟨f, e⟩ | ⟨-, e⟩ | ⟨-, e⟩ | ⟨k, T, e⟩ | ⟨-, e⟩ | ⟨-, e⟩ | ⟨-, e⟩ | ⟨-, e⟩ := microEffect_cases op i s u <;> rw [e]
  · exact pinUpdate_follows f h
  · exact pinUpdate_follows (fun q => { q with boe := .high }) h
  · exact pinUpdate_follows (fun q => { q with boe := .low }) h
  all_goals exact pass_follows _ h

/-- A busy state at micro-step `u` of `op` with byte counter `i`. -/
def atStep (op : Op) (u : Upc) (i : Nat) (s : State) : State := relabel true (.run op u i) s

theorem startOp_eq (op : Op) (s : State) : startOp op s = atStep op (Op.first op) 0 s := rfl

/-- `n` micro-steps lead from `s` to `t`, and the block is busy before each of them (R29). -/
def Reach (n : Nat) (s t : State) : Prop :=
  microRun n s = .next t ∧ ∀ k, k < n → ∃ v, microRun k s = .next v ∧ v.busy = true

theorem microRun_add : ∀ (m n : Nat) (s t : State), microRun m s = .next t → microRun (m + n) s = microRun n t
  | 0, n, s, t, h => by
    cases h
    rw [Nat.zero_add]
  | m + 1, n, s, t, h => by
    rw [Nat.succ_add, microRun]
    rw [microRun] at h
    cases hs : microStep s with
    | next u =>
      rw [hs] at h
      exact microRun_add m n u t h
    | fault f =>
      rw [hs] at h
      cases h
    | refused r =>
      rw [hs] at h
      cases h

theorem Reach.refl (s : State) : Reach 0 s s := ⟨rfl, fun k hk => absurd hk (Nat.not_lt_zero k)⟩

theorem Reach.trans {m n : Nat} {s t u : State} (h1 : Reach m s t) (h2 : Reach n t u) : Reach (m + n) s u := by
  refine ⟨(microRun_add m n s t h1.1).trans h2.1, fun k hk => ?_⟩
  by_cases hkm : k < m
  · exact h1.2 k hkm
  · obtain ⟨v, hv, hb⟩ := h2.2 (k - m) (by omega)
    refine ⟨v, ?_, hb⟩
    rw [← hv, ← microRun_add m (k - m) s t h1.1]
    congr 1
    omega

theorem reach_one {s t : State} (h : microStep s = .next t) (hb : s.busy = true) : Reach 1 s t := by
  refine ⟨by simp only [microRun, h], fun k hk => ⟨s, ?_, hb⟩⟩
  have : k = 0 := by omega
  simp only [this, microRun]

/-- One micro-step with a successor: its effect, and SEQ at the successor (R190). -/
theorem reach_step {op : Op} {u u' : Upc} {i i' : Nat} (hh : Op.has op i u = true)
    (hn : Op.next op i u = some (u', i')) (s : State) :
    Reach 1 (atStep op u i s) (atStep op u' i' (microEffect op i s u)) := by
  refine reach_one ?_ rfl
  show (if Op.has op i u then Host.Outcome.next (moveSeq op (Op.next op i u) (microEffect op i (atStep op u i s) u))
    else .fault Fault.noMicroStep) = _
  have hbl : microEffect op i (atStep op u i s) u = atStep op u i (microEffect op i s u) :=
    blind_microEffect op i u true _ s
  rw [if_pos hh, hn, hbl]
  rfl

/-- The last micro-step: its effect, and the block idle (R29, R190). -/
theorem reach_last {op : Op} {u : Upc} {i : Nat} (hh : Op.has op i u = true) (hn : Op.next op i u = none) (s : State) :
    Reach 1 (atStep op u i s) (relabel false .idle (microEffect op i s u)) := by
  refine reach_one ?_ rfl
  show (if Op.has op i u then Host.Outcome.next (moveSeq op (Op.next op i u) (microEffect op i (atStep op u i s) u))
    else .fault Fault.noMicroStep) = _
  have hbl : microEffect op i (atStep op u i s) u = atStep op u i (microEffect op i s u) :=
    blind_microEffect op i u true _ s
  rw [if_pos hh, hn, hbl]
  rfl

end Sys2Proof.Machine
end

