-- ==== Sys2Proof/Laws/PageWrite.lean ====
section
/-! SUPPORT. What the command sequence and the loads of a page write make of an idle chip: the load window opens, the page latch fills in order, and the wait ends in the commit (R64 to R66). -/

namespace Sys2Proof.Machine

open Sys2Proof.Safety

/-- The two unlock writes bring an idle chip to `C_U2` (R64). -/
theorem unlock_writes {s : State} (h : PinState.sWidle.holds s.pins = true) (hp : s.params.Legal)
    (hc : s.params.wpChip ≤ wpMin) (hi : s.chip.cs = .idle) :
    (writeAll [(unlockA1, unlockD1), (unlockA2, unlockD2)] s).chip.cs = .u2 ∧
      (writeAll [(unlockA1, unlockD1), (unlockA2, unlockD2)] s).chip.flash = s.chip.flash ∧
      Calm (writeAll [(unlockA1, unlockD1), (unlockA2, unlockD2)] s) := by
  obtain ⟨a1, a2⟩ := writeByte_decode h hp hc (calm_idle hi) unlockA1 unlockD1 .u1 (by simp [chipDecode, hi])
    (by simp [StillUntil]) (by simp)
  have w1 := writeAll_sWidle [(unlockA1, unlockD1)] h
  have c1 := (writeByte_context unlockA1 unlockD1 s).params
  obtain ⟨b1, b2⟩ := writeByte_decode (s := writeByte unlockA1 unlockD1 s) w1 (c1 ▸ hp) (by rw [c1]; exact hc) a2
    unlockA2 unlockD2 .u2 (by rw [a1]; simp [chipDecode]) (by simp [StillUntil]) (by simp)
  exact ⟨by simp only [writeAll]; rw [b1], by simp only [writeAll]; rw [b1, a1], b2⟩

/-- The command sequence of a page write opens the load window of an idle chip (R64). -/
theorem load_open {s : State} (h : PinState.sWidle.holds s.pins = true) (hp : s.params.Legal)
    (hc : s.params.wpChip ≤ wpMin) (hi : s.chip.cs = .idle) :
    ∃ tl, (writeAll (cmdBytes cmdPageLoad) s).chip.cs = .load none PageLatch.empty tl ∧
      (writeAll (cmdBytes cmdPageLoad) s).chip.flash = s.chip.flash ∧ Calm (writeAll (cmdBytes cmdPageLoad) s) := by
  obtain ⟨u1, u2, u3⟩ := unlock_writes h hp hc hi
  have w1 := writeAll_sWidle [(unlockA1, unlockD1), (unlockA2, unlockD2)] h
  have c1 := (writeAll_context [(unlockA1, unlockD1), (unlockA2, unlockD2)] s).params
  generalize hu : writeAll [(unlockA1, unlockD1), (unlockA2, unlockD2)] s = u at *
  obtain ⟨b1, b2⟩ := writeByte_decode (s := u) w1 (c1 ▸ hp) (by rw [c1]; exact hc) u3 unlockA1 cmdPageLoad
    (.load none PageLatch.empty (writeTime u)) (by rw [u1]; simp [chipDecode]) (by simp [StillUntil]) (by simp)
  have : writeAll (cmdBytes cmdPageLoad) s = writeByte unlockA1 cmdPageLoad u := by
    rw [← hu]
    rfl
  rw [this]
  exact ⟨_, by rw [b1], by rw [b1, u2], b2⟩

/-- The page latch holds the first `k` bytes of the buffer and nothing else. -/
def LoadedUpTo (buf : Vector Byte 128) (k : Nat) (lb : PageLatch) : Prop :=
  ∀ j, j < 128 → lb[j]? = some (if j < k then some (bufByte buf j) else none)

theorem loadedUpTo_put {buf : Vector Byte 128} {k : Nat} {lb : PageLatch} (hk : k < 128) (h : LoadedUpTo buf k lb) :
    LoadedUpTo buf (k + 1) (PageLatch.put lb k (bufByte buf k)) := by
  intro j hj
  simp only [PageLatch.put, Vector.getElem?_setIfInBounds]
  by_cases e : k = j
  · subst e
    simp [hk]
  · have : (j < k + 1) ↔ (j < k) := by omega
    simp [e, this, h j hj]

/-- From an aligned base every address of the row lies in the page, at its own offset (R51, R56). -/
theorem page_addr {base : Addr} (hb : base.toNat % 128 = 0) {i : Nat} (hi : i < 128) :
    pageOf (addrAt base i) = pageOf base ∧ offsetOf (addrAt base i) = i := by
  have h : (addrAt base i).toNat = base.toNat + i := by
    have := base.isLt
    simp [addrAt]
    omega
  constructor
  · apply BitVec.eq_of_toNat_eq
    simp only [pageOf, BitVec.extractLsb'_toNat, Nat.shiftRight_eq_div_pow, h]
    omega
  · simp only [offsetOf, pageSize, h]
    omega

/-- The loads of the first `k` bytes of a page, address and data (R162). -/
def pageLoads (base : Addr) (buf : Vector Byte 128) (k : Nat) : List (Addr × Byte) :=
  (List.range k).map fun i => (addrAt base i, bufByte buf i)

theorem pageLoads_succ (base : Addr) (buf : Vector Byte 128) (k : Nat) :
    pageLoads base buf (k + 1) = pageLoads base buf k ++ [(addrAt base k, bufByte buf k)] := by
  simp [pageLoads, List.range_succ]

/-- The loads from an aligned base fill the latch in order, and the window stays open (R65, R167). -/
theorem loads_chip {base : Addr} {buf : Vector Byte 128} (hb : base.toNat % 128 = 0) {s : State}
    (h : PinState.sWidle.holds s.pins = true) (hp : s.params.Legal) (hc : s.params.wpChip ≤ wpMin) {tl0 : Nat}
    (hs : s.chip.cs = .load none PageLatch.empty tl0) (hcalm : Calm s) : ∀ k, k ≤ 128 →
    Calm (writeAll (pageLoads base buf k) s) ∧ (writeAll (pageLoads base buf k) s).chip.flash = s.chip.flash ∧
      (k = 0 → (writeAll (pageLoads base buf k) s).chip.cs = .load none PageLatch.empty tl0) ∧
      (0 < k → ∃ lb tl, (writeAll (pageLoads base buf k) s).chip.cs = .load (some (pageOf base)) lb tl ∧
        LoadedUpTo buf k lb ∧ tl + s.params.wp + s.params.wrRec ≤ (writeAll (pageLoads base buf k) s).now)
  | 0, _ => ⟨hcalm, rfl, fun _ => hs, fun h => absurd h (by omega)⟩
  | k + 1, hk => by
    obtain ⟨i1, i2, i3, i4⟩ := loads_chip (buf := buf) hb h hp hc hs hcalm k (by omega)
    have w1 := writeAll_sWidle (pageLoads base buf k) h
    have c1 := (writeAll_context (pageLoads base buf k) s).params
    rw [pageLoads_succ, writeAll_append]
    generalize writeAll (pageLoads base buf k) s = u at *
    obtain ⟨pa, po⟩ := page_addr hb (i := k) (by omega)
    have hwt := writeTime_bounds u
    have hgap := hp.2.2.2.2.2.1
    have hdec : ∃ lb, chipDecode u.params (u.draws + 1) (addrAt base k) (bufByte buf k) (writeTime u) u.chip.cs =
        .load (some (pageOf base)) lb (writeTime u) ∧ LoadedUpTo buf (k + 1) lb := by
      by_cases k0 : k = 0
      · subst k0
        rw [i3 rfl]
        have : writeTime u ≤ tl0 + loadGapMax := by
          simp only [Calm, i3 rfl] at i1
          rw [c1] at i1 hwt
          omega
        refine ⟨_, ?_, loadedUpTo_put (buf := buf) (k := 0) (lb := PageLatch.empty) (by omega) ?_⟩
        · simp [chipDecode, chipLoad, this, pa, po]
        · intro j hj
          simp [PageLatch.empty, hj]
      · obtain ⟨lb, tl, j1, j2, j3⟩ := i4 (by omega)
        rw [j1]
        have : writeTime u ≤ tl + loadGapMax := by
          simp only [Calm, j1] at i1
          rw [c1] at i1 hwt
          omega
        refine ⟨_, ?_, loadedUpTo_put (by omega) j2⟩
        simp [chipDecode, chipLoad, this, pa, po]
    obtain ⟨lb, hdec, hlb⟩ := hdec
    obtain ⟨b1, b2⟩ := writeByte_decode (s := u) w1 (c1 ▸ hp) (by rw [c1]; exact hc) i1 (addrAt base k) (bufByte buf k) _
      hdec (by simp [StillUntil]) (by simp)
    have hn := writeByte_now (addrAt base k) (bufByte buf k) u
    rw [c1] at hn
    refine ⟨b2, ?_, by omega, fun _ => ⟨lb, writeTime u, ?_, hlb, hn.1⟩⟩
    · show (writeByte _ _ u).chip.flash = _
      rw [b1, ← i2]
    · show (writeByte _ _ u).chip.cs = _
      rw [b1]

/-- The release of the ports does not move an idle chip. -/
theorem setBusRel_chip {u : State} (h : PinState.sWidle.holds u.pins = true) {kind : DelayKind} {T : Nat}
    (hi : (delay kind T u).chip.cs = .idle) : (setBusRel (delay kind T u)).chip = (delay kind T u).chip := by
  obtain ⟨a, d, hq⟩ := (sWidle_iff _).mp h
  have : (delay kind T u).pins = drivenPins a d := hq
  rw [setBusRel, pinUpdate_chip, passStep_chip, chipElapse_idle hi]
  exact chipSees_of_we_high (by rw [this]; rfl) (by rw [this]; rfl)

/-- The whole sequence at an idle chip, from an aligned base: it ends with the chip idle and the buffer committed (R66). -/
theorem writeSequence_commits {s : State} {base : Addr} (h : s.pins = capturedPins) (hp : s.params.Legal)
    (hc : s.params.ChipTimingOK) (hi : s.chip.cs = .idle) (hb : base.toNat % 128 = 0) :
    ∃ n lb, (writeSequence .program s.params.progWait (pageWriteCycles base s.pbuf) s).chip.cs = .idle ∧
      (writeSequence .program s.params.progWait (pageWriteCycles base s.pbuf) s).chip.flash =
        commitPage s.params n (pageOf base) lb s.chip.flash ∧ LoadedUpTo s.pbuf 128 lb := by
  have hw := setBusOut_sWidle h
  have hbc : (setBusOut s).chip = s.chip := by
    rw [setBusOut, pinUpdate_chip, passStep_chip, chipElapse_idle hi]
    exact chipSees_of_we_high (by rw [h]; rfl) (by rw [h]; rfl)
  obtain ⟨tl0, l1, l2, l3⟩ := load_open (s := setBusOut s) hw hp hc.1 (by rw [hbc]; exact hi)
  have w1 := writeAll_sWidle (cmdBytes cmdPageLoad) hw
  have c1 : (writeAll (cmdBytes cmdPageLoad) (setBusOut s)).params = s.params :=
    (writeAll_context (cmdBytes cmdPageLoad) (setBusOut s)).params
  have e1 : writeSequence .program s.params.progWait (pageWriteCycles base s.pbuf) s =
      setBusRel (delay .program s.params.progWait (writeAll (pageLoads base s.pbuf 128)
        (writeAll (cmdBytes cmdPageLoad) (setBusOut s)))) := by
    rw [writeSequence, pageWriteCycles, writeAll_append]
    rfl
  rw [e1]
  rw [hbc] at l2
  generalize writeAll (cmdBytes cmdPageLoad) (setBusOut s) = v at *
  obtain ⟨i1, i2, i3, i4⟩ := loads_chip (buf := s.pbuf) hb w1 (c1 ▸ hp) (by rw [c1]; exact hc.1) l1 l3 128 (le_refl _)
  obtain ⟨lb, tl, j1, j2, j3⟩ := i4 (by omega)
  have w2 := writeAll_sWidle (pageLoads base s.pbuf 128) w1
  have c2 := (writeAll_context (pageLoads base s.pbuf 128) v).params
  generalize writeAll (pageLoads base s.pbuf 128) v = u at *
  have hel : (delay .program s.params.progWait u).chip = chipCommitted u.params (pageOf base) lb u.draws u.chip := by
    rw [delay_chip]
    unfold chipElapse
    rw [j1]
    simp only
    have p1 := hp.2.2.2.1
    have p2 := hc.2.2.1
    have p3 := hp.2.2.2.2.2.2
    rw [c1] at j3 c2
    rw [c2]
    have hh : tl + s.params.wcChip ≤ u.now + (s.params.progWait + s.params.slack u.draws) := by omega
    rw [if_pos (by omega)]
    unfold chipProg
    rw [if_pos hh]
  have hid : (delay .program s.params.progWait u).chip.cs = .idle := by
    rw [hel]
    simp
  refine ⟨u.draws, lb, ?_, ?_, j2⟩
  · rw [setBusRel_chip w2 hid]
    exact hid
  · rw [setBusRel_chip w2 hid, hel, chipCommitted_flash, i2, l2, c2, c1, programmedCells_ok hc]

end Sys2Proof.Machine
end

