-- ==== Sys2Proof/Laws/PerInstr.lean ====
section
/-! SUPPORT. The family EncodedLegal: the canonical word of every instruction is a legal word with the instruction's opcode in its field OP, and the instruction is well formed (R90 to R93). -/

namespace Sys2Proof.Laws.EncodedLegal

open Sys2Proof

/-- The canonical word of `i` is legal and carries `i`'s opcode, and `i` is well formed. -/
def Statement (i : Instr) : Prop :=
  CmdWord.legal (encode i) = true ∧ fieldOp (encode i) = i.op.code ∧ i.wellFormed = true

/-- What each lemma comes to: the field A of the instruction is within the bound its opcode sets (R93). -/
theorem of_bounds (i : Instr) (h1 : 1 ≤ i.op.code.toNat) (h2 : i.op.code.toNat ≤ 11)
    (h7 : i.op.code.toNat = 7 → i.encA.toNat < 2 ^ 7)
    (h9 : i.op.code.toNat = 9 ∨ i.op.code.toNat = 10 → i.encA.toNat < 2 ^ 9) (hw : i.wellFormed = true) :
    Statement i := by
  obtain ⟨ho, ha, -⟩ := encode_fields i
  refine ⟨?_, ho, hw⟩
  simp only [CmdWord.legal, CmdWord.opcodeAssigned, CmdWord.reservedZero, opNat_eq, aNat_eq, ho, ha,
    Bool.and_eq_true, decide_eq_true_eq]
  refine ⟨⟨h1, h2⟩, ?_⟩
  split
  · exact decide_eq_true (h7 ‹_›)
  · split
    · exact decide_eq_true (h9 ‹_›)
    · rfl

theorem capture : Statement .capture := of_bounds _ (by decide) (by decide) (by decide) (by decide) rfl

theorem release : Statement .release := of_bounds _ (by decide) (by decide) (by decide) (by decide) rfl

theorem rdbyte (addr : Addr) : Statement (.rdbyte addr) :=
  of_bounds _ (by simp [Instr.op, Op.code]) (by simp [Instr.op, Op.code]) (by simp [Instr.op, Op.code]) (by simp [Instr.op, Op.code])
    (decide_eq_true addr.isLt)

theorem rdpage (base : Addr) : Statement (.rdpage base) :=
  of_bounds _ (by simp [Instr.op, Op.code]) (by simp [Instr.op, Op.code]) (by simp [Instr.op, Op.code]) (by simp [Instr.op, Op.code])
    (decide_eq_true base.isLt)

theorem wrpage (base : Addr) : Statement (.wrpage base) :=
  of_bounds _ (by simp [Instr.op, Op.code]) (by simp [Instr.op, Op.code]) (by simp [Instr.op, Op.code]) (by simp [Instr.op, Op.code])
    (decide_eq_true base.isLt)

theorem erase : Statement .erase := of_bounds _ (by decide) (by decide) (by decide) (by decide) rfl

theorem pbload (idx : BufIdx) (data : Byte) : Statement (.pbload idx data) := by
  have h := idx.isLt
  refine of_bounds _ (by simp [Instr.op, Op.code]) (by simp [Instr.op, Op.code]) ?_ (by simp [Instr.op, Op.code]) (decide_eq_true h)
  intro _
  simp only [Instr.encA, BitVec.toNat_setWidth]
  omega

theorem pbclr : Statement .pbclr := of_bounds _ (by decide) (by decide) (by decide) (by decide) rfl

theorem cmdw (page : PageIdx) : Statement (.cmdw page) := by
  have h := page.isLt
  refine of_bounds _ (by simp [Instr.op, Op.code]) (by simp [Instr.op, Op.code]) (by simp [Instr.op, Op.code]) ?_ (decide_eq_true h)
  intro _
  simp only [Instr.encA, BitVec.toNat_setWidth]
  omega

theorem cmdd (page : PageIdx) : Statement (.cmdd page) := by
  have h := page.isLt
  refine of_bounds _ (by simp [Instr.op, Op.code]) (by simp [Instr.op, Op.code]) (by simp [Instr.op, Op.code]) ?_ (decide_eq_true h)
  intro _
  simp only [Instr.encA, BitVec.toNat_setWidth]
  omega

theorem cmde : Statement .cmde := of_bounds _ (by decide) (by decide) (by decide) (by decide) rfl

end Sys2Proof.Laws.EncodedLegal
end

