-- ==== Sys2Proof/Tests/Slice0.lean ====
section
/-! SUPPORT. Tests: the checks of WellFormed on ill-formed words, words of the spec and their instructions, one or two steps per instruction, and for each statement with hypotheses a state and operands that meet them. The expected results are those of spec/95_test_vectors.md; each test names its vector. -/

namespace Sys2Proof.Tests

open Sys2Proof Sys2Proof.Machine Sys2Proof.Safety

/-! ### Well-formed words -/

theorem test_opcode_zero_is_ill_formed : CmdWord.opcodeAssigned 0x00000000#32 = false := by decide

theorem test_first_unassigned_opcode_is_ill_formed : CmdWord.opcodeAssigned 0x0C000000#32 = false := by decide

theorem test_last_opcode_is_ill_formed : CmdWord.opcodeAssigned 0xFF000000#32 = false := by decide

theorem test_pbload_index_bit_7_is_ill_formed : CmdWord.reservedZero 0x07008000#32 = false := by decide

theorem test_cmdw_page_bit_9_is_ill_formed : CmdWord.reservedZero 0x09020000#32 = false := by decide

theorem test_cmdd_page_bit_15_is_ill_formed : CmdWord.reservedZero 0x0A800000#32 = false := by decide

theorem test_highest_operands_are_well_formed :
    CmdWord.legal 0x07007F12#32 = true ∧ CmdWord.legal 0x0901FF00#32 = true ∧ CmdWord.legal 0x0A01FF00#32 = true := by
  decide

theorem test_pbfill_wants_1_to_128_bytes :
    pbfill [] = none ∧ pbfill (List.replicate 129 0x00#8) = none ∧ (pbfill (List.replicate 128 0x00#8)).isSome = true := by
  decide +kernel

/-- V-B2. -/
theorem test_pbfill_expands : pbfill [0xDE#8, 0xAD#8] = some [.pbclr, .pbload 0#7 0xDE#8, .pbload 1#7 0xAD#8] := by decide

/-! ### Decoding: words of V-X1, field by field `OP ++ A ++ B` -/

theorem test_decode_capture : decode 0b00000001_0000000000000000_00000000#32 = .ok .capture := by decide

theorem test_decode_release : decode 0b00000010_0000000010101011_00000000#32 = .ok .release := by decide

theorem test_decode_rdbyte : decode 0b00000011_0101010101010101_11111111#32 = .ok (.rdbyte 0x5555#16) := by decide

theorem test_decode_rdpage : decode 0b00000100_1111111111000000_00000000#32 = .ok (.rdpage 0xFFC0#16) := by decide

theorem test_decode_wrpage : decode 0b00000101_0000000110000000_00000000#32 = .ok (.wrpage 0x0180#16) := by decide

theorem test_decode_erase : decode 0b00000110_0001001000110100_01010110#32 = .ok .erase := by decide

theorem test_decode_pbload : decode 0b00000111_0000000001111111_00010010#32 = .ok (.pbload 127#7 0x12#8) := by decide

theorem test_decode_pbclr : decode 0b00001000_0000000000000000_00000000#32 = .ok .pbclr := by decide

theorem test_decode_cmdw : decode 0b00001001_0000000111111111_00000000#32 = .ok (.cmdw 511#9) := by decide

theorem test_decode_cmdd : decode 0b00001010_0000000000001001_00000000#32 = .ok (.cmdd 9#9) := by decide

theorem test_decode_cmde : decode 0b00001011_0000000000000000_00000000#32 = .ok .cmde := by decide

theorem test_table_word : decodeTableWord 32 0x09000300 = some (.cmdw 3#9) := by decide

/-- S1: page 3 is at 0x0180, page 511 at 0xFF80. -/
theorem test_page_bases : pageBase 3#9 = 0x0180#16 ∧ pageBase 256#9 = 0x8000#16 ∧ pageBase 511#9 = 0xFF80#16 := by decide

/-! ### Small states -/

/-- The captured rest state `HOLD`, instance I0. -/
def hold : State := { State.reset with pins := capturedPins, own := .ctrl }

/-- `s` with a word the host presents. -/
def given (w : CmdWord) (s : State) : State := { s with inputs := [.word w] }

/-- The buffer of V-W1: DE AD BE EF, then zeros. -/
def deadbeef : Vector Byte 128 :=
  let zeros : Vector Byte 128 := Vector.replicate 128 0x00#8
  (((zeros.setIfInBounds 0 0xDE#8).setIfInBounds 1 0xAD#8).setIfInBounds 2 0xBE#8).setIfInBounds 3 0xEF#8

/-- The first cells of the chip of V-R1: `Flash[i] = i`, for a few of them. -/
def someCells : List Host.Cell := [(0, 0x00#8), (1, 0x01#8), (2, 0x02#8), (127, 0x7F#8)]

/-- The chip holds the given cells and is idle. -/
def withCells (m : List Host.Cell) (s : State) : State := { s with chip := ⟨m, .idle, 0⟩ }

/-- The outcome is a next state that passes the check. -/
def gives (o : Host.Outcome State Fault Refusal) (check : State → Bool) : Bool :=
  match o with
  | .next t => check t
  | .fault _ => false
  | .refused _ => false

/-- BOE, the direction of CE, OE and WE of each snapshot of the trace. -/
def lines (s : State) : List (Level × Dir × Level × Level) :=
  (snapshots s.trace).map fun q => (q.boe, q.ce.dir, q.oe, q.we)

/-! ### One step of each instruction -/

/-- V-A1: the four rows of the table, no time passes in I0, the state is HOLD. -/
theorem test_capture : gives (step (given 0x01000000#32 State.reset)) (fun t =>
    decide (lines t = [(.high, .inp, .low, .high), (.high, .out, .low, .high), (.high, .out, .high, .high),
      (.high, .out, .high, .high)]) &&
    decide (t.pins = capturedPins) && decide (t.own = .ctrl) && decide (t.now = 0)) = true := by decide +kernel

/-- V-C5, V-L1: a second CAPTURE is refused and nothing happens. -/
theorem test_capture_refused : gives (step (given 0x01000000#32 hold)) (fun t =>
    decide (t.marks = [.alreadyOwned]) && decide (t.trace = []) && decide (t.pins = capturedPins)) = true := by decide +kernel

/-- V-A3: the five rows of the table. -/
theorem test_release : gives (step (given 0x02000000#32 hold)) (fun t =>
    decide (lines t = [(.high, .out, .high, .high), (.high, .out, .low, .high), (.high, .inp, .low, .high),
      (.high, .inp, .low, .high), (.low, .inp, .low, .high)]) && decide (t.own = .ext)) = true := by decide +kernel

/-- V-T3: one read cycle, the byte sampled and emitted, 10 000 ns. -/
theorem test_rdbyte : gives (step (given 0x03018000#32 (withCells [(0x0180, 0xDE#8)] hold))) (fun t =>
    decide (readCycles capturedPins t.trace = [(0x0180#16, 0xDE#8)]) && decide (t.smp = 0xDE#8) &&
    decide (t.rsp = [0xDE#8]) && decide (t.now = 10000) && decide (t.pins = capturedPins)) = true := by decide +kernel

/-- V-L3: refused from reset, nothing recorded. -/
theorem test_rdbyte_refused : gives (step (given 0x03000000#32 State.reset)) (fun t =>
    decide (t.marks = [.notOwned]) && decide (t.rsp = []) && decide (t.trace = [])) = true := by decide +kernel

/-- V-R1: 128 bytes, 1 280 000 ns. -/
theorem test_rdpage : gives (step (given 0x04000000#32 (withCells someCells hold))) (fun t =>
    decide (t.rsp.take 3 = [0x00#8, 0x01#8, 0x02#8]) && decide (t.rsp.length = 128) && decide (t.smp = 0x7F#8) &&
    decide (t.now = 1280000)) = true := by decide +kernel

/-- V-R2: the addresses wrap at the top of the address space. -/
theorem test_rdpage_wraps : gives (step (given 0x04FFC000#32 (withCells someCells hold))) (fun t =>
    decide ((t.rsp.drop 63).take 4 = [0xFF#8, 0x00#8, 0x01#8, 0x02#8])) = true := by decide +kernel

/-- V-W1: the end of the operation, and the page in the chip. -/
theorem test_wrpage : gives (step (given 0x05018000#32 { hold with pbuf := deadbeef })) (fun t =>
    decide (t.now = 10262000) && decide (cell t 0x0180 = 0xDE#8) && decide (cell t 0x0183 = 0xEF#8) &&
    decide (cell t 0x01FF = 0x00#8) && decide (cell t 0x0200 = 0xFF#8)) = true := by decide +kernel

/-- V-T1: one write cycle at time 0 from driving ports, the procedure ends at 2000. -/
theorem test_write_byte : (fun t : State =>
    decide (writeCycles (drivenPins 0x0000#16 0x00#8) t.trace = [(0, 0x5555#16, 0xAA#8)]) && decide (t.now = 2000) &&
    decide (t.pins = drivenPins 0x5555#16 0xAA#8))
      (writeByte 0x5555#16 0xAA#8 { hold with pins := drivenPins 0x0000#16 0x00#8 }) = true := by decide +kernel

/-- V-W5: an unaligned base reaches a second page, and the chip has no meaning for it; it is marked (R211); the pins end as always. -/
theorem test_wrpage_unaligned : gives (step (given 0x05000100#32 hold)) (fun t =>
    !t.chip.cs.hasMeaning && decide (t.marks = [.chipNoMeaning]) && decide (t.pins = capturedPins) && decide (t.now = 10262000)) = true := by
  decide +kernel

/-- V-E1: six write cycles with their times, the end, every cell erased. -/
theorem test_erase : gives (step (given 0x06123456#32 (withCells someCells hold))) (fun t =>
    decide (writeCycles capturedPins t.trace =
      [(0, 0x5555#16, 0xAA#8), (2000, 0x2AAA#16, 0x55#8), (4000, 0x5555#16, 0x80#8), (6000, 0x5555#16, 0xAA#8),
        (8000, 0x2AAA#16, 0x55#8), (10000, 0x5555#16, 0x10#8)]) &&
    decide (t.now = 50012000) && decide (cell t 1 = 0xFF#8) && decide (t.chip.cs = .idle)) = true := by decide +kernel

/-- V-B1: PBLOAD 127, 0x12 sets that byte only, in either mode, with no trace entry. -/
theorem test_pbload : gives (step (given 0x07007F12#32 { State.reset with pbuf := deadbeef })) (fun t =>
    decide (bufByte t.pbuf 127 = 0x12#8) && decide (bufByte t.pbuf 0 = 0xDE#8) && decide (bufByte t.pbuf 126 = 0x00#8) &&
    decide (t.trace = [])) = true := by decide +kernel

/-- V-B1: PBCLR zeroes the buffer. -/
theorem test_pbclr : gives (step (given 0x08000000#32 { hold with pbuf := deadbeef })) (fun t =>
    decide (t.pbuf.toList = List.replicate 128 0x00#8) && decide (t.trace = [])) = true := by decide +kernel

/-- V-C1: CMDW 3 from reset ends at 10 262 000 with the bus given back and the page written. -/
theorem test_cmdw : gives (step (given 0x09000300#32 { State.reset with pbuf := deadbeef })) (fun t =>
    decide (t.now = 10262000) && decide (t.own = .ext) &&
    decide (cell t 0x0180 = 0xDE#8) && decide (cell t 0x01FF = 0x00#8) && decide (cell t 0x0000 = 0xFF#8)) = true := by
  decide +kernel

/-- V-C5: refused while the bus is held. -/
theorem test_cmdw_refused : gives (step (given 0x09000300#32 hold)) (fun t =>
    decide (t.marks = [.alreadyOwned]) && decide (t.trace = [])) = true := by decide +kernel

/-- V-C2: CMDD 0 from reset ends at 1 280 000 with the bus given back. -/
theorem test_cmdd : gives (step (given 0x0A000000#32 (withCells someCells State.reset))) (fun t =>
    decide (t.rsp.take 3 = [0x00#8, 0x01#8, 0x02#8]) && decide (t.rsp.length = 128) && decide (t.now = 1280000) &&
    decide (t.own = .ext) && decide (t.chip = ⟨someCells, .idle, 0⟩)) = true := by decide +kernel

/-- V-C3: CMDE from reset ends at 50 012 000, every cell erased, the bus given back. -/
theorem test_cmde : gives (step (given 0x0B000000#32 (withCells someCells State.reset))) (fun t =>
    decide ((writeCycles State.reset.pins t.trace).length = 6) && decide (t.now = 50012000) && decide (t.own = .ext) &&
    decide (cell t 127 = 0xFF#8)) = true := by decide +kernel

/-- V-X2, V-L2: an illegal word from reset, by name; the opcode is checked first. -/
theorem test_illegal_words :
    gives (step (given 0x0C000000#32 State.reset)) (fun t => decide (t.marks = [.illegalOpcode])) = true ∧
      gives (step (given 0x09020000#32 hold)) (fun t => decide (t.marks = [.reservedBits])) = true := by decide +kernel

/-- R162: W1 of the second load drives `base + 1` and takes the counter from 0 to 1. -/
theorem test_counter_advances_in_W1 :
    gives (step { hold with
        busy := true, seq := .run .wrpage .loadNext 0, aReg := 0x0180#16, pbuf := deadbeef, pins := drivenPins 0x0180#16 0xDE#8 })
      (fun t => decide (t.seq = .run .wrpage (.load .w2) 1) && decide (t.pins = drivenPins 0x0181#16 0xAD#8)) = true := by
  decide +kernel

/-- `hold` with the ports driving, as inside a write sequence. -/
def driving : State := { hold with pins := drivenPins 0xFFFF#16 0x00#8 }

/-- A read in progress since time 0, its access time over at 10 000 and not at 9 999. -/
def reading (now : Nat) (data : Option Byte) : State :=
  { hold with pins := readActivePins 0x0003#16, now := now, access := some ⟨0x0003#16, 0, data⟩ }

/-- Three steps. -/
def three (s : State) : Host.Outcome State Fault Refusal := Host.Core.run core 3 s

/-- R72: the external master reads a cell, taking the byte 10 000 ns after it set its lines (T_ACC_CHIP is 9 999). -/
theorem test_master_reads : gives
    (three { withCells someCells State.reset with inputs := [.master 0x007F#16 none .low, .idle 10000, .masterSample] })
      (fun t => decide (t.master.seen = [0x7F#8]) && decide (t.pins = State.reset.pins)) = true := by decide +kernel

/-- R12, R71: with the chip deselected, the byte the external master drives stands on the data lines. -/
theorem test_master_drives_data : gives
    (three { State.reset with inputs := [.master 0x0000#16 (some 0xA5#8) .high, .masterSample, .idle 1] })
      (fun t => decide (t.master.seen = [0xA5#8]) && decide (t.chip.cs = .idle)) = true := by decide +kernel

/-- R61: a read asserted while an erase cycle runs shows nothing of the chip, though the cycle ends before the sample. -/
theorem test_read_shows_the_moment_of_assertion :
    readAsserted Params.ideal (readActivePins 0x0000#16) State.reset.master 5 ⟨[], .erase 0 6 0, 0⟩ = some ⟨0x0000#16, 5, none⟩ ∧
      readAsserted Params.ideal (readActivePins 0x0000#16) State.reset.master 6 ⟨[], .erase 0 6 0, 0⟩ =
        some ⟨0x0000#16, 6, some 0xFF#8⟩ := by decide +kernel

/-- R61: the access time counts from the assertion, and a move of the external master's data alone is none. -/
theorem test_data_move_keeps_the_read : gives
    (three { withCells someCells State.reset with
      master := ⟨0x007F#16, some 0x00#8, .low, []⟩, access := some ⟨0x007F#16, 0, some 0x7F#8⟩, now := 5000,
      inputs := [.master 0x007F#16 none .low, .idle 5000, .masterSample] })
      (fun t => decide (t.master.seen = [0x7F#8])) = true := by decide +kernel

/-- V-G3: with T_WC_CHIP one nanosecond above the bound nothing may be claimed of contents, in the cycle or after it. -/
theorem test_slow_chip_commits_nothing :
    (chipElapse { Params.ideal with wcChip := 10000001 } 7 10000001
        ⟨[(0, 0x12#8)], .load (some 3#9) (PageLatch.put PageLatch.empty 0 0xDE#8) 0, 0⟩).flash =
      leftCells { Params.ideal with wcChip := 10000001 } 7 := rfl

/-- A chip whose erase is slower than assumed by one nanosecond. -/
def slowErase : Params := { Params.ideal with ecChip := 50000001 }

/-- U6 and R143 (d): an erase of such a chip, over at 10, leaves any value, the same at every later instant. -/
theorem test_slow_erase_stays :
    chipSettle slowErase 10 (chipElapse slowErase 2 10 ⟨[], .erase 0 10 7, 0⟩) = ⟨leftCells slowErase 7, .idle, 0⟩ ∧
      chipSettle slowErase 11 (chipElapse slowErase 3 11 (chipElapse slowErase 2 10 ⟨[], .erase 0 10 7, 0⟩)) =
        ⟨leftCells slowErase 7, .idle, 0⟩ := ⟨rfl, rfl⟩

/-- V-G4 and R143: with T_ACC_CHIP = 10 000 = T_RD_SETTLE the sample is any value, however late it is taken. -/
theorem test_slow_access_shows_no_cell :
    dataLines { reading 20000 (some 0x12#8) with params := { Params.ideal with accChip := 10000 } } 5 = Config.freeByte 5 := rfl

/-- R60 and U10: a pulse one nanosecond too short for the chip has no meaning, one of its width has. -/
theorem test_write_pulse_width :
    gives (.next (writeByte 0x5555#16 0xAA#8 driving)) (fun t => decide (t.chip.cs = .u1)) = true ∧
      gives (.next (writeByte 0x5555#16 0xAA#8 { driving with params := { Params.ideal with wpChip := 1001 } }))
        (fun t => decide (t.chip.cs = .noMeaning)) = true := by decide +kernel

/-- The 42nd micro-step of CMDE is the last (43_commands.md R193): 41 leave the block busy. -/
theorem test_micro_steps_of_cmde :
    gives (microRun 41 (startOp .cmde State.reset)) (fun t => t.busy) = true ∧
      gives (microRun 42 (startOp .cmde State.reset)) (fun t => !t.busy) = true := by decide +kernel

/-- V-G2: the constraint at its edge. -/
theorem test_parameter_constraint :
    { Params.ideal with stepMax := 39600 }.Legal ∧ ¬ { Params.ideal with stepMax := 39601 }.Legal ∧
      { Params.ideal with wp := 100000, wrRec := 100000 }.Legal ∧ ¬ { Params.ideal with wp := 999 }.Legal := by decide

/-- V-G3, V-G4: ChipTimingOK at its edge. -/
theorem test_chip_timing : Params.ideal.ChipTimingOK ∧ ¬ { Params.ideal with wcChip := 10000001 }.ChipTimingOK ∧
    ¬ { Params.ideal with accChip := 10000 }.ChipTimingOK := by decide

/-! ### Witnesses: states and operands that meet the hypotheses of the statements -/

/-- A busy block at a micro-step. -/
def busyAt (op : Op) (u : Upc) (i : Nat) (s : State) : State := { s with busy := true, seq := .run op u i }

theorem witness_IgnoredBitsDoNotMatter :
    decode 0x090003EE#32 = .ok (.cmdw 3#9) ∧
      0x090003EE#32 &&& Op.usedBits .cmdw = 0x09000300#32 &&& Op.usedBits .cmdw ∧
      decode 0x01FFFFFF#32 = .ok .capture ∧ 0x01FFFFFF#32 &&& Op.usedBits .capture = encode .capture := by decide

theorem witness_DecodeRefusesExactlyIllegalWords :
    decode 0x00FFFFFF#32 = .error .illegalOpcode ∧ decode 0x0C000000#32 = .error .illegalOpcode ∧
      decode 0x0A020000#32 = .error .reservedBits ∧ CmdWord.legal 0x0A01FFFF#32 = true := by decide

theorem witness_StepRunsDecodedInstruction :
    (given 0x03000000#32 State.reset).busy = false ∧ (given 0x03000000#32 State.reset).inputs = .word 0x03000000#32 :: [] ∧
      decode 0x03000000#32 = .ok (.rdbyte 0x0000#16) := by decide

theorem witness_IllegalWordIsDropped :
    (given 0x0C000000#32 hold).busy = false ∧ (given 0x0C000000#32 hold).inputs = .word 0x0C000000#32 :: [] ∧
      CmdWord.legal 0x0C000000#32 = false ∧ CmdWord.legal 0x07008000#32 = false ∧
      CmdWord.opcodeAssigned 0x07008000#32 = true := by decide

theorem witness_LegalityByMode :
    (given 0x09000300#32 hold).busy = false ∧ decode 0x09000300#32 = .ok (.cmdw 3#9) ∧
      refusedWhen (given 0x09000300#32 hold).own .cmdw = some .alreadyOwned ∧
      refusedWhen (given 0x09000300#32 State.reset).own .cmdw = none ∧ decode 0x09020000#32 = .error .reservedBits ∧
      (given 0x09000300#32 State.reset).inputs = .word 0x09000300#32 :: [] := by decide

theorem witness_BusyBlockTakesNoWord :
    (busyAt .capture .c1 0 State.reset).busy = true ∧ ∃ t, step (busyAt .capture .c1 0 State.reset) = .next t :=
  ⟨rfl, _, rfl⟩

theorem witness_IdleBlockSits : State.reset.busy = false ∧ State.reset.inputs = [] := by decide

theorem witness_IdleSpanChangesNoPin :
    State.reset.busy = false ∧ { State.reset with inputs := [.idle 0] }.inputs = .idle 0 :: [] ∧
      State.reset.chip.cs = .idle := by decide

theorem witness_MasterReadsThroughTheBuffer :
    hold.busy = false ∧ hold.own = .ctrl ∧ State.reset.busy = false ∧ State.reset.own = .ext ∧ Free State.reset ∧
      State.reset.chip.cs = .idle ∧ State.reset.params.accChip < 10000 ∧ State.reset.params.accChip < State.reset.params.rdSettle ∧
      { State.reset with inputs := [.master 0xFFFF#16 none .low, .idle 10000, .masterSample] }.inputs =
        .master 0xFFFF#16 none .low :: .idle 10000 :: .masterSample :: [] ∧
      { hold with inputs := [.masterSample] }.inputs = .masterSample :: [] ∧ State.reset.master.ce = .high ∧
      AccessFollowsLines State.reset ∧ 0x0000#16 = State.reset.master.addr :=
  ⟨rfl, rfl, rfl, rfl, ⟨rfl, .high, rfl⟩, rfl, by decide, by decide, rfl, rfl, rfl, .inl (by decide), rfl⟩

theorem witness_CaptureTakesTheBus :
    State.reset.own = .ext ∧ State.reset.pins.we = .high ∧ State.reset.chip.cs = .idle := by decide

theorem witness_ReleaseGivesTheBusBack : hold.own = .ctrl ∧ hold.pins.we = .high ∧ hold.chip.cs = .idle := by decide

theorem witness_WriteByteMakesOneWriteCycle :
    driving.params.Legal ∧ PinState.sWidle.holds driving.pins = true := by decide

/-- The witness of every statement about a captured bus at rest: RDBYTE, RDPAGE, WRPAGE, ERASE, LoadGapHolds, RoundTrip; with the
parameters at the edges of R70 and an aligned base at the top of the address space. -/
theorem witness_Held :
    Held hold ∧ hold.chip.cs = .idle ∧ hold.params.accChip < hold.params.rdSettle ∧ hold.params.Legal ∧
      hold.params.ChipTimingOK ∧ Memory.wf hold.params hold.chip.flash = true ∧ (0xFF80#16).toNat % 128 = 0 := by decide

theorem witness_UnalignedWrpageHasNoChipMeaning :
    Held hold ∧ hold.params.Legal ∧ hold.params.ChipTimingOK ∧ hold.chip.cs = .idle ∧ (0x0001#16).toNat % 128 ≠ 0 ∧
      (0xFFFF#16).toNat % 128 ≠ 0 := by decide

theorem witness_PbloadWritesOneByte : 127 < 128 ∧ 127 = (127#7).toNat ∧ State.reset.chip.cs = .idle := by decide

theorem witness_PbfillFillsAndZeroPads :
    pbfill [0xDE#8] = some [.pbclr, .pbload 0#7 0xDE#8] ∧ 1 ≤ [0xDE#8].length ∧ ¬ 1 ≤ ([] : List Byte).length := by decide

/-- The witness of the statements about CMDW, CMDD and CMDE. -/
theorem witness_Free :
    Free State.reset ∧ State.reset.params.Legal ∧ State.reset.params.ChipTimingOK ∧ State.reset.chip.cs = .idle ∧
      State.reset.params.accChip < State.reset.params.rdSettle ∧
      Memory.wf State.reset.params State.reset.chip.flash = true :=
  ⟨⟨rfl, .high, rfl⟩, by decide, by decide, rfl, by decide, rfl⟩

theorem witness_MicroStepsGiveExec :
    decode 0x07007F12#32 = .ok (.pbload 127#7 0x12#8) ∧
      { State.reset with aReg := 0x007F#16, bReg := 0x12#8 }.aReg = fieldA 0x07007F12#32 ∧
      { State.reset with aReg := 0x007F#16, bReg := 0x12#8 }.bReg = fieldB 0x07007F12#32 ∧
      refusedWhen State.reset.own .pbload = none := by decide

/-- The witness of the invariants' hypotheses: an idle state and a busy one that follow the FSM, and their steps. -/
theorem witness_PinsFollowSeq :
    PinsFollowSeq State.reset ∧ TraceSafe State.reset ∧ PinsFollowSeq (busyAt .cmdw (.load .w5) 127 driving) ∧
      (∃ t, step State.reset = .next t) ∧ (∃ t, step (busyAt .cmdw (.load .w5) 127 driving) = .next t) := by
  refine ⟨?_, ?_, ?_, ⟨_, rfl⟩, ⟨_, rfl⟩⟩
  · show AtRest State.reset
    decide
  · intro q hq
    cases hq
  · exact ⟨rfl, by decide, by decide, by decide⟩

theorem witness_FaultsOnlyWithoutMicroStep :
    step (busyAt .capture .pbclr 0 State.reset) = .fault .noMicroStep ∧
      step { State.reset with busy := true } = .fault .noMicroStep ∧ Op.has .capture 0 .pbclr = false :=
  ⟨rfl, rfl, rfl⟩

theorem witness_StepKeepsMemoryCanonical :
    Memory.wf Params.ideal [(0, 0x00#8), (65535, 0x12#8)] = true ∧ Memory.wf Params.ideal [(65536, 0x00#8)] = false ∧
      Memory.wf Params.ideal [(0, 0xFF#8)] = false ∧ ∃ t, step State.reset = .next t := by
  refine ⟨by decide, by decide, by decide, _, rfl⟩

theorem witness_OwnershipChangesOnlyByCaptureRelease :
    (∃ t, step (busyAt .cmdd .c1 0 State.reset) = .next t ∧ t.own ≠ (busyAt .cmdd .c1 0 State.reset).own) ∧
      (∃ t, step (busyAt .cmdd .l5 128 hold) = .next t ∧ t.own ≠ (busyAt .cmdd .l5 128 hold).own) ∧
      gives (step (given 0x01000000#32 State.reset)) (fun t => decide (t.own ≠ .ext)) = true ∧
      gives (step (given 0x02000000#32 hold)) (fun t => decide (t.own ≠ .ctrl)) = true := by
  refine ⟨⟨_, rfl, ?_⟩, ⟨_, rfl, ?_⟩, by decide +kernel, by decide +kernel⟩ <;> intro h <;> cases h

theorem witness_RecordsOnlyGrow : ∃ t, step (busyAt .rdbyte .emit 0 hold) = .next t := ⟨_, rfl⟩

theorem witness_BufferWrittenOnlyByLoadAndClear :
    gives (step (busyAt .pbload .pbload 0 { State.reset with bReg := 0x12#8 })) (fun t => decide (t.pbuf ≠ State.reset.pbuf)) = true ∧
      gives (step (given 0x07000012#32 State.reset)) (fun t => decide (t.pbuf ≠ State.reset.pbuf)) = true ∧
      gives (step (given 0x08000000#32 { hold with pbuf := deadbeef })) (fun t => decide (t.pbuf ≠ deadbeef)) = true := by
  decide +kernel

theorem witness_DelaysKeepTheirFloors :
    driving.params.Legal ∧ ∃ t, step (busyAt .cmdw .progWait 128 driving) = .next t ∧ (delays t.trace).length = 1 :=
  ⟨by decide, _, rfl, rfl⟩

theorem witness_DurationsWithinBounds : gives (exec (.rdbyte 0x0000#16) hold) (fun t => decide (t.now = 10000)) = true := by
  decide +kernel

/-- A confirming write, and an erase cycle begun at time 0, before and at its end. -/
theorem witness_ChipErases :
    (⟨[(0, 0x00#8)], .e5, 0⟩ : Chip).cs = .e5 ∧ 49999999 < 50000000 ∧
    (⟨[(0, 0x00#8)], .erase 0 50000000 0, 0⟩ : Chip).cs = .erase 0 50000000 0 ∧ 50000000 ≤ 0 + Params.ideal.ecChip ∧
    Params.ideal.ChipTimingOK ∧ ¬ { Params.ideal with ecChip := 50000001 }.ChipTimingOK ∧
    50000000 ≤ 0 + { Params.ideal with ecChip := 50000001 }.ecChip := by decide

/-- The two clauses meet between `t_last + 200 000` and one more. -/
theorem witness_ChipLoads :
    200000 ≤ 0 + 200000 ∧ 0 + 200000 < 200001 ∧ 3#9 = pageOf 0x01FF#16 ∧ 3#9 ≠ pageOf 0x0200#16 ∧
      chipDecode Params.ideal 0 0x0180#16 0xDE#8 200000 (.load none PageLatch.empty 0) =
        .load (some 3#9) (PageLatch.put PageLatch.empty 0 0xDE#8) 200000 ∧
      chipDecode Params.ideal 0 0x0180#16 0xDE#8 200001 (.load none PageLatch.empty 0) = .noMeaning := by decide +kernel

/-- The three clauses at the values where they meet, on the page of V-M3. -/
theorem witness_ChipCommitsThePage :
    Memory.wf Params.ideal [] = true ∧ loadGapMax < Params.ideal.wcChip ∧ 200000 ≤ 0 + loadGapMax ∧
      0 + loadGapMax < 200001 ∧ 9999999 < 0 + Params.ideal.wcChip ∧ 0 + Params.ideal.wcChip ≤ 10000000 ∧
      (⟨[], .load (some 3#9) (PageLatch.put PageLatch.empty 0 0xDE#8) 0, 0⟩ : Chip).cs =
        .load (some 3#9) (PageLatch.put PageLatch.empty 0 0xDE#8) 0 ∧ Params.ideal.ChipTimingOK ∧
      ¬ { Params.ideal with wcChip := 10000001 }.ChipTimingOK ∧ loadGapMax < { Params.ideal with wcChip := 10000001 }.wcChip := by
  refine ⟨by decide, by decide, by decide, by decide, by decide, by decide, rfl, by decide, by decide, by decide⟩

/-- A lost meaning, a load to a second page, and a load after the gap. -/
theorem witness_ChipGivesNothingElseAMeaning :
    (⟨[], .noMeaning, 0⟩ : Chip).cs = .noMeaning ∧
      chipDecode Params.ideal 0 0x0200#16 0x00#8 0 (.load (some 3#9) PageLatch.empty 0) = .noMeaning ∧
      (chipWrite Params.ideal 0 0x0180#16 0xDE#8 0 ⟨[], .idle, 0⟩).cs = .noMeaning ∧ 3#9 ≠ pageOf 0x0200#16 ∧
      0 + 200000 < 200001 := by
  refine ⟨rfl, by decide +kernel, by decide +kernel, by decide, by decide⟩

/-- States that time does not move: idle, inside a command sequence, in a load window until its end. -/
theorem witness_StillUntil :
    StillUntil 1000000 State.reset.chip.cs ∧ StillUntil 1000000 .u2 ∧ StillUntil 200000 (.load (some 3#9) PageLatch.empty 0) ∧
      ¬ StillUntil 200001 (.load (some 3#9) PageLatch.empty 0) ∧ ChipState.u2 ≠ .idle :=
  ⟨trivial, trivial, by simp [StillUntil, loadGapMax], by simp [StillUntil, loadGapMax], by decide⟩

theorem witness_ReadShowsTheCellOfTheAssertion :
    (reading 10000 (some 0x12#8)).pins.dq.dir = .inp ∧
      chipDrives (reading 10000 (some 0x12#8)).pins (reading 10000 (some 0x12#8)).master = true ∧
      masterDrives (reading 10000 (some 0x12#8)).pins (reading 10000 (some 0x12#8)).master = none ∧
      addrDriven (reading 10000 none).pins (reading 10000 none).master = some 0x0003#16 ∧
      readAddr (reading 10000 none).pins (reading 10000 none).master = some 0x0003#16 ∧
      readAddr hold.pins hold.master = none ∧
      dataLines (reading 10000 (some 0x12#8)) 0 = 0x12#8 ∧
      (reading 9999 (some 0x12#8)).params.accChip < (reading 9999 (some 0x12#8)).params.rdSettle ∧
      (reading 9999 (some 0x12#8)).now ≤ 0 + (reading 9999 (some 0x12#8)).params.accChip ∧
      (chipSettle Params.ideal 0 ⟨[], .u1, 0⟩).cs ≠ .idle ∧ (chipSettle Params.ideal 0 State.reset.chip).cs = .idle := by
  refine ⟨rfl, by decide +kernel, by decide +kernel, by decide +kernel, by decide +kernel, by decide +kernel,
    by decide +kernel, by decide, by decide, by decide, rfl⟩

/-- Pins before, in, and after a pulse; the edges at and before the chip's width; a pulse with a port that does not drive. -/
theorem witness_ChipJudgesTheWritePulse :
    (drivenPins 0x5555#16 0xAA#8).mayWrite = false ∧ (pulsePins 0x5555#16 0xAA#8).mayWrite = true ∧
      (pulsePins 0x5555#16 0xAA#8).inWriteCycle = true ∧
      { pulsePins 0x5555#16 0xAA#8 with dq := Port8.released }.mayWrite = true ∧
      { pulsePins 0x5555#16 0xAA#8 with dq := Port8.released }.inWriteCycle = false ∧
      pulsePins 0x5555#16 0xAA#8 ≠ pulsePins 0x5555#16 0x55#8 ∧ 0 + Params.ideal.wpChip ≤ 1000 ∧
      999 < 0 + Params.ideal.wpChip ∧ PinState.sWidle.holds driving.pins = true := by decide

theorem witness_StepKeepsAccessFollowingLines :
    AccessFollowsLines State.reset ∧ AccessFollowsLines (reading 10000 none) ∧ (∃ t, step State.reset = .next t) ∧
      ∃ t, step (busyAt .rdbyte (.read .r4) 0 (reading 10000 none)) = .next t := by
  refine ⟨?_, ?_, ⟨_, rfl⟩, ⟨_, rfl⟩⟩
  · exact .inl (by decide)
  · exact ⟨by decide, by decide +kernel, by decide⟩

theorem witness_DelayTimerHoldsTheLastDelay :
    gives (exec (.rdbyte 0x0000#16) hold) (fun t => decide (t.dly = 10000)) = true ∧
      gives (exec .pbclr { hold with dly := 5 }) (fun t => decide (t.dly = 5)) = true := by decide +kernel

theorem witness_LevelsTheChipSees :
    hold.pins.ce.dir = .out ∧ State.reset.pins.ce.dir = .inp ∧ State.reset.pins.boe = .low ∧
      driving.pins.al.dir = .out ∧ driving.pins.ah.dir = .out ∧ State.reset.pins.al.dir = .inp ∧
      State.reset.pins.ah.dir = .inp ∧ driving.pins.dq.dir = .out ∧ State.reset.pins.dq.dir = .inp ∧
      chipDrives State.reset.pins State.reset.master = false ∧
      { State.reset.master with data := some 0xA5#8 }.data = some 0xA5#8 := by decide

end Sys2Proof.Tests
end

section

namespace Sys2Proof.Machine

/-! ### Reset (R39): what the fields the rule names hold, for every parameters and chip contents -/

@[simp] theorem State.resetWith_pins (p : Params) (f : List Host.Cell) : (State.resetWith p f).pins = Pins.atReset := rfl

@[simp] theorem State.resetWith_own (p : Params) (f : List Host.Cell) : (State.resetWith p f).own = .ext := rfl

@[simp] theorem State.resetWith_busy (p : Params) (f : List Host.Cell) : (State.resetWith p f).busy = false := rfl

@[simp] theorem State.resetWith_seq (p : Params) (f : List Host.Cell) : (State.resetWith p f).seq = .idle := rfl

@[simp] theorem State.resetWith_rsp (p : Params) (f : List Host.Cell) : (State.resetWith p f).rsp = [] := rfl

@[simp] theorem State.resetWith_chip (p : Params) (f : List Host.Cell) :
    (State.resetWith p f).chip = ⟨f, .idle, 0⟩ := rfl

/-- The pins are those a release leaves (R231): every port and chip enable an input, the buffer on. -/
theorem Pins.atReset_lines :
    Pins.atReset.al = ⟨.inp, 0x00#8⟩ ∧ Pins.atReset.ah = ⟨.inp, 0x00#8⟩ ∧ Pins.atReset.dq = ⟨.inp, 0x00#8⟩ ∧
      Pins.atReset.ce.dir = .inp ∧ Pins.atReset.oe = .low ∧ Pins.atReset.we = .high ∧ Pins.atReset.boe = .low :=
  ⟨rfl, rfl, rfl, rfl, rfl, rfl, rfl⟩

/-- Settles O55: the pins by `Pins.atReset_lines`, every other field by its own lemma; `State.reset` is such a state with the
parameters of instance `I0` and no cell listed. -/
theorem resetState : Obligations.ResetState := by
  unfold Obligations.ResetState
  constructor
  · intro p f
    obtain ⟨hal, hah, hdq, hce, hoe, hwe, hboe⟩ := Pins.atReset_lines
    simp [hal, hah, hdq, hce, hoe, hwe, hboe]
  · exact ⟨Params.ideal, [], rfl⟩

end Sys2Proof.Machine
end

section

namespace Sys2Proof.Machine

open Sys2Proof.Safety

/-! ### The unlock transitions (R64): what the one listed write of each command state makes of it -/

theorem chipDecode_idle_unlock (p : Params) (n t : Nat) : chipDecode p n unlockA1 unlockD1 t .idle = .u1 := by
  simp [chipDecode]

theorem chipDecode_u1_unlock (p : Params) (n t : Nat) : chipDecode p n unlockA2 unlockD2 t .u1 = .u2 := by
  simp [chipDecode]

/-- The load window opens with no page fixed and nothing latched, at the time of the cycle. -/
theorem chipDecode_u2_pageLoad (p : Params) (n t : Nat) :
    chipDecode p n unlockA1 cmdPageLoad t .u2 = .load none PageLatch.empty t := by
  simp [chipDecode]

theorem chipDecode_u2_eraseSetup (p : Params) (n t : Nat) : chipDecode p n unlockA1 cmdEraseSetup t .u2 = .e3 := by
  have hne : cmdEraseSetup ≠ cmdPageLoad := by decide
  simp [chipDecode, hne]

/-- Settles O49: the four rows of R64, one lemma each. -/
theorem chipUnlocks : Obligations.ChipUnlocks := by
  unfold Obligations.ChipUnlocks
  intro p n t
  exact ⟨chipDecode_idle_unlock p n t, chipDecode_u1_unlock p n t, chipDecode_u2_pageLoad p n t,
    chipDecode_u2_eraseSetup p n t⟩

/-! ### The loads (R65): the first one in time, a later one by its page, and any one that comes too late -/

/-- In `C_LOAD` every write cycle is a load. -/
@[simp] theorem chipDecode_load (p : Params) (n : Nat) (a : Addr) (d : Byte) (t : Nat) (pg : Option PageIdx)
    (lb : PageLatch) (tLast : Nat) : chipDecode p n a d t (.load pg lb tLast) = chipLoad pg lb tLast a d t := rfl

theorem chipLoad_first {tLast t : Nat} (ht : t ≤ tLast + loadGapMax) (lb : PageLatch) (a : Addr) (d : Byte) :
    chipLoad none lb tLast a d t = .load (some (pageOf a)) (PageLatch.put PageLatch.empty (offsetOf a) d) t :=
  if_pos ht

theorem chipLoad_samePage {tLast t : Nat} (ht : t ≤ tLast + loadGapMax) (lb : PageLatch) (a : Addr) (d : Byte) :
    chipLoad (some (pageOf a)) lb tLast a d t = .load (some (pageOf a)) (PageLatch.put lb (offsetOf a) d) t := by
  simp [chipLoad, ht]

theorem chipLoad_otherPage {q : PageIdx} {a : Addr} (hq : q ≠ pageOf a) (lb : PageLatch) (tLast : Nat) (d : Byte)
    (t : Nat) : chipLoad (some q) lb tLast a d t = .noMeaning := by
  simp [chipLoad, hq]

theorem chipLoad_late {tLast t : Nat} (ht : tLast + loadGapMax < t) (pg : Option PageIdx) (lb : PageLatch) (a : Addr)
    (d : Byte) : chipLoad pg lb tLast a d t = .noMeaning :=
  if_neg (Nat.not_le.mpr ht)

/-- Settles O51: each clause is one of the four cases of `chipLoad`. -/
theorem chipLoads : Obligations.ChipLoads := by
  unfold Obligations.ChipLoads
  intro p n a d t tLast lb q
  simp only [chipDecode_load]
  constructor
  · intro ht
    refine ⟨chipLoad_first ht PageLatch.empty a d, ?_, fun hq => chipLoad_otherPage hq lb tLast d t⟩
    rintro rfl
    exact chipLoad_samePage ht lb a d
  · intro ht
    exact ⟨chipLoad_late ht (some q) lb a d, chipLoad_late ht none lb a d⟩

/-! ### An operation from its start to its end: what its last micro-step leaves of its body's state (R29) -/

section

variable (body : State → State) (s : State)

@[simp] theorem operate_own : (operate body s).own = (body (begin s)).own := rfl
@[simp] theorem operate_pins : (operate body s).pins = (body (begin s)).pins := rfl
@[simp] theorem operate_chip : (operate body s).chip = (body (begin s)).chip := rfl
@[simp] theorem operate_params : (operate body s).params = (body (begin s)).params := rfl
@[simp] theorem operate_rsp : (operate body s).rsp = (body (begin s)).rsp := rfl

end

/-! ### The page operations of an owned bus at an idle chip (R162, R164, R196) -/

theorem exec_wrpage_ctrl {s : State} (h : s.own = .ctrl) (base : Addr) :
    exec (.wrpage base) s = .next (operate (writePage base) s) := if_pos h

theorem exec_rdpage_ctrl {s : State} (h : s.own = .ctrl) (base : Addr) :
    exec (.rdpage base) s = .next (operate (readPage base) s) := if_pos h

/-- A page write leaves a captured bus at rest captured and at rest (R162). -/
theorem operate_writePage_held {s : State} (h : Held s) (base : Addr) : Held (operate (writePage base) s) := by
  obtain ⟨hown, hpins⟩ := h
  constructor
  · rw [operate_own, (writePage_context base (begin s)).own, begin_own, hown]
  · rw [operate_pins, writePage_sequence]
    exact writeSequence_pins (by rw [begin_pins, hpins]) _ _ _

/-- A page write appends nothing to RSP (R162). -/
theorem operate_writePage_rsp (base : Addr) (s : State) : (operate (writePage base) s).rsp = s.rsp := by
  rw [operate_rsp, writePage_sequence, writeSequence_rsp, begin_rsp]

/-- A page write with an aligned base at an idle chip ends in the commit of the whole buffer, the chip idle (R66, R162). -/
theorem exec_wrpage_commits {s : State} {base : Addr} (h : Held s) (hp : s.params.Legal) (hc : s.params.ChipTimingOK)
    (hi : s.chip.cs = .idle) (hb : base.toNat % 128 = 0) :
    ∃ u n lb, exec (.wrpage base) s = .next u ∧ Held u ∧ u.params = s.params ∧ u.rsp = s.rsp ∧ u.chip.cs = .idle ∧
      u.chip.flash = commitPage s.params n (pageOf base) lb s.chip.flash ∧ LoadedUpTo s.pbuf 128 lb := by
  obtain ⟨n, lb, hidle, hflash, hloaded⟩ := writeSequence_commits (s := begin s) h.2 hp hc hi hb
  rw [← writePage_sequence, ← operate_chip] at hidle hflash
  exact ⟨_, n, lb, exec_wrpage_ctrl h.1 base, operate_writePage_held h base,
    (operate_params _ s).trans (writePage_context base (begin s)).params, operate_writePage_rsp base s, hidle, hflash,
    hloaded⟩

/-- A chip as fast as assumed has its byte on the lines before the settle has passed (R6, R70). -/
theorem accChip_lt_rdSettle {p : Params} (hp : p.Legal) (hc : p.ChipTimingOK) : p.accChip < p.rdSettle := by
  obtain ⟨-, -, hsettle, -⟩ := hp
  obtain ⟨-, hacc, -⟩ := hc
  exact Nat.lt_of_lt_of_le hacc hsettle

/-- A page read of an idle chip appends the cells of the row in ascending order (R143, R164). -/
theorem exec_rdpage_idle {s : State} (h : Held s) (hi : s.chip.cs = .idle)
    (hacc : s.params.accChip < s.params.rdSettle) (base : Addr) :
    ∃ t, exec (.rdpage base) s = .next t ∧
      t.rsp = s.rsp ++ (List.range 128).map fun i => Memory.read s.params s.chip.flash (addrAt base i).toNat := by
  refine ⟨_, exec_rdpage_ctrl h.1 base, ?_⟩
  rw [operate_rsp, readPage_eq]
  exact readAll_rsp_idle (s := begin s) base h.2 hi hacc pageSize

/-! ### What a page read finds where a page was committed -/

/-- The page of an address is its quotient by the page size (R51). -/
theorem pageOf_toNat (a : Addr) : (pageOf a).toNat = a.toNat / pageSize := by
  have := a.isLt
  simp only [pageOf, pageSize, BitVec.extractLsb'_toNat, Nat.shiftRight_eq_div_pow]
  omega

/-- A full latch gives every offset the byte of the buffer (R66). -/
theorem latchByte_loaded {buf : Vector Byte 128} {lb : PageLatch} (h : LoadedUpTo buf 128 lb) (n : Nat) {i : Nat}
    (hi : i < 128) : latchByte n lb i = bufByte buf i := by
  unfold latchByte
  rw [h i hi, if_pos hi]

/-- Where a full latch was committed to the page of an aligned base, the row of addresses holds the buffer (R56, R66). -/
theorem read_commitPage_loaded {p : Params} {buf : Vector Byte 128} {lb : PageLatch} {base : Addr} {m : List Host.Cell}
    (hm : Memory.wf p m = true) (hb : base.toNat % 128 = 0) (hl : LoadedUpTo buf 128 lb) (n : Nat) {i : Nat}
    (hi : i < 128) :
    Memory.read p (commitPage p n (pageOf base) lb m) (addrAt base i).toNat = bufByte buf i := by
  obtain ⟨hpage, hoff⟩ := page_addr hb hi
  rw [read_commitPage p n _ lb m _ hm, if_pos (by rw [← hpage, pageOf_toNat]), ← offsetOf, hoff,
    latchByte_loaded hl n hi]

/-- The bytes of the buffer in order are the buffer (R32). -/
theorem map_bufByte_range (buf : Vector Byte 128) : (List.range 128).map (bufByte buf) = buf.toList := by
  refine List.ext_getElem (by simp) fun i hi _ => ?_
  have : i < 128 := by simpa using hi
  simp [bufByte, this]

/-- Settles O32: the write ends with the buffer committed and the chip idle, so the read that follows appends the cells of the page,
which are the bytes of the buffer. -/
theorem roundTrip : Obligations.RoundTrip := by
  unfold Obligations.RoundTrip
  intro s base h hp hc hi hm hb
  obtain ⟨u, n, lb, hwrite, hheld, hparams, hrsp, hidle, hflash, hloaded⟩ := exec_wrpage_commits h hp hc hi hb
  have hacc : u.params.accChip < u.params.rdSettle := by
    rw [hparams]
    exact accChip_lt_rdSettle hp hc
  obtain ⟨t, hread, htrsp⟩ := exec_rdpage_idle hheld hidle hacc base
  refine ⟨t, by simp only [execAll, hwrite, hread], ?_⟩
  have hcells : ((List.range 128).map fun i => Memory.read u.params u.chip.flash (addrAt base i).toNat) =
      (List.range 128).map (bufByte s.pbuf) := by
    rw [hparams, hflash]
    exact List.map_congr_left fun i hmem => read_commitPage_loaded hm hb hloaded n (List.mem_range.mp hmem)
  rw [htrsp, hrsp, hcells, map_bufByte_range]

end Sys2Proof.Machine
end

section

namespace Sys2Proof

/-! ### The three fields of a word (R90), and those of its bits that an operation looks at (R94) -/

/-- Words with the same fields are the same word. -/
theorem word_ext {w w' : CmdWord} (ho : fieldOp w = fieldOp w') (ha : fieldA w = fieldA w') (hb : fieldB w = fieldB w') :
    w = w' := by
  simp only [fieldOp, fieldA, fieldB, ← BitVec.toNat_inj, BitVec.extractLsb'_toNat, Nat.shiftRight_eq_div_pow] at *
  omega

@[simp] theorem fieldOp_and (w m : CmdWord) : fieldOp (w &&& m) = fieldOp w &&& fieldOp m := BitVec.extractLsb'_and

@[simp] theorem fieldA_and (w m : CmdWord) : fieldA (w &&& m) = fieldA w &&& fieldA m := BitVec.extractLsb'_and

@[simp] theorem fieldB_and (w m : CmdWord) : fieldB (w &&& m) = fieldB w &&& fieldB m := BitVec.extractLsb'_and

/-- The operations with an operand in the field A (R91). -/
def Op.readsA : Op → Bool
  | .rdbyte | .rdpage | .wrpage | .pbload | .cmdw | .cmdd => true
  | .capture | .release | .erase | .pbclr | .cmde => false

/-- Every operation looks at the whole opcode. -/
@[simp] theorem and_fieldOp_usedBits (c : BitVec 8) (op : Op) : c &&& fieldOp op.usedBits = c := by
  have h : fieldOp op.usedBits = BitVec.allOnes 8 := by cases op <;> rfl
  rw [h, BitVec.and_allOnes]

theorem and_fieldA_usedBits (a : BitVec 16) (op : Op) :
    a &&& fieldA op.usedBits = if op.readsA then a else 0#16 := by
  have h : fieldA op.usedBits = if op.readsA then BitVec.allOnes 16 else 0#16 := by cases op <;> rfl
  rw [h, apply_ite (a &&& ·), BitVec.and_allOnes, BitVec.and_zero]

/-- Only PBLOAD has an operand in the field B. -/
theorem and_fieldB_usedBits (b : BitVec 8) (op : Op) :
    b &&& fieldB op.usedBits = if op = .pbload then b else 0#8 := by
  have h : fieldB op.usedBits = if op = .pbload then BitVec.allOnes 8 else 0#8 := by cases op <;> rfl
  rw [h, apply_ite (b &&& ·), BitVec.and_allOnes, BitVec.and_zero]

/-- A word agrees with a canonical one in the bits its operation looks at exactly if its fields do. -/
theorem and_usedBits_eq_encode_iff (w : CmdWord) (i : Instr) :
    w &&& i.op.usedBits = encode i ↔
      fieldOp w = i.op.code ∧ (if i.op.readsA then fieldA w else 0#16) = i.encA ∧
        (if i.op = .pbload then fieldB w else 0#8) = i.encB := by
  obtain ⟨ho, ha, hb⟩ := encode_fields i
  rw [← ho, ← ha, ← hb, ← and_fieldA_usedBits, ← and_fieldB_usedBits]
  constructor
  · intro h
    simp [← h]
  · rintro ⟨ho', ha', hb'⟩
    exact word_ext (by simp [ho']) (by simp [ha']) (by simp [hb'])

/-! ### The opcode (R92, R93) -/

theorem opOfCode_code (op : Op) : opOfCode op.code = some op := by
  cases op <;> rfl

theorem code_of_opOfCode {c : BitVec 8} {op : Op} (h : opOfCode c = some op) : c = op.code := by
  revert h
  cases op <;> simp [opOfCode, ite_eq_iff, Op.code]

theorem code_bounds (op : Op) : 1 ≤ op.code.toNat ∧ op.code.toNat ≤ 11 := by
  cases op <;> decide

/-- The opcodes 0x00 and 0x0C to 0xFF select no operation, and no others. -/
theorem opOfCode_eq_none_iff (c : BitVec 8) : opOfCode c = none ↔ ¬ (1 ≤ c.toNat ∧ c.toNat ≤ 11) := by
  constructor
  · intro h
    simp only [opOfCode, ite_eq_iff, reduceCtorEq, and_false, false_or, and_true] at h
    bv_omega
  · intro h
    rw [Option.eq_none_iff_forall_ne_some]
    intro op hop
    rw [code_of_opOfCode hop] at h
    exact h (code_bounds op)

/-- The opcode of a word is unassigned exactly if it selects no operation. -/
theorem opcodeAssigned_eq_false_iff (w : CmdWord) : CmdWord.opcodeAssigned w = false ↔ opOfCode (fieldOp w) = none := by
  rw [CmdWord.opcodeAssigned, decide_eq_false_iff_not, opNat_eq, opOfCode_eq_none_iff]

/-! ### The operands of an assigned opcode (R91, R93) -/

/-- The bits of an operand from `k` on are zero exactly if the operand is below `2 ^ k`. -/
theorem extractLsb'_eq_zero_iff_lt {n k m : Nat} (h : n ≤ k + m) (a : BitVec n) :
    a.extractLsb' k m = 0#m ↔ a.toNat < 2 ^ k := by
  have hlt : a.toNat / 2 ^ k < 2 ^ m :=
    Nat.div_lt_of_lt_mul (a.isLt.trans_le (by rw [← pow_add]; exact Nat.pow_le_pow_right (by decide) h))
  rw [← BitVec.toNat_inj, BitVec.extractLsb'_toNat, Nat.shiftRight_eq_div_pow, Nat.mod_eq_of_lt hlt, BitVec.toNat_zero,
    Nat.div_eq_zero_iff_lt (Nat.two_pow_pos k)]

/-- A field is a narrower operand zero-extended exactly if its high bits are zero and its low bits are the operand. -/
theorem eq_setWidth_iff {n k m : Nat} (h : n = k + m) (a : BitVec n) (x : BitVec k) :
    a = x.setWidth n ↔ a.extractLsb' k m = 0#m ∧ a.extractLsb' 0 k = x := by
  rw [extractLsb'_eq_zero_iff_lt h.le, ← BitVec.setWidth_eq_extractLsb' (by omega)]
  constructor
  · rintro rfl
    rw [BitVec.toNat_setWidth, BitVec.setWidth_setWidth_of_le x (by omega), BitVec.setWidth_eq]
    exact ⟨(Nat.mod_le _ _).trans_lt x.isLt, rfl⟩
  · rintro ⟨hlt, rfl⟩
    exact BitVec.eq_of_toNat_eq (by simp [Nat.mod_eq_of_lt hlt])

theorem decodePage_eq_ok_iff (a : BitVec 16) (mk : PageIdx → Instr) (i : Instr) :
    decodePage a mk = .ok i ↔ ∃ p : PageIdx, a = p.setWidth 16 ∧ mk p = i := by
  simp [decodePage, ite_eq_iff, eq_setWidth_iff (show 16 = 9 + 7 from rfl)]

theorem decodeBuf_eq_ok_iff (a : BitVec 16) (b : BitVec 8) (i : Instr) :
    decodeBuf a b = .ok i ↔ ∃ idx : BufIdx, a = idx.setWidth 16 ∧ .pbload idx b = i := by
  simp [decodeBuf, ite_eq_iff, eq_setWidth_iff (show 16 = 7 + 9 from rfl)]

theorem decodePage_of_le {a : BitVec 16} (h : 2 ^ 9 ≤ a.toNat) (mk : PageIdx → Instr) :
    decodePage a mk = .error .reservedBits :=
  if_neg (mt (extractLsb'_eq_zero_iff_lt (by decide) a).mp h.not_gt)

theorem decodeBuf_of_le {a : BitVec 16} (h : 2 ^ 7 ≤ a.toNat) (b : BitVec 8) : decodeBuf a b = .error .reservedBits :=
  if_neg (mt (extractLsb'_eq_zero_iff_lt (by decide) a).mp h.not_gt)

/-- What the decoder makes of the operands of an assigned opcode: the rows of R92, with the checks of R93. -/
def decodeOperands (a : BitVec 16) (b : BitVec 8) : Op → Except DecodeError Instr
  | .capture => .ok .capture
  | .release => .ok .release
  | .rdbyte => .ok (.rdbyte a)
  | .rdpage => .ok (.rdpage a)
  | .wrpage => .ok (.wrpage a)
  | .erase => .ok .erase
  | .pbload => decodeBuf a b
  | .pbclr => .ok .pbclr
  | .cmdw => decodePage a .cmdw
  | .cmdd => decodePage a .cmdd
  | .cmde => .ok .cmde

/-- The decoder looks at the opcode first, then at the operands (R214). -/
theorem decode_eq (w : CmdWord) :
    decode w = (opOfCode (fieldOp w)).elim (.error .illegalOpcode) (decodeOperands (fieldA w) (fieldB w)) := by
  unfold decode
  cases opOfCode (fieldOp w) with
  | none => rfl
  | some op => cases op <;> rfl

theorem decode_of_code {w : CmdWord} {op : Op} (h : fieldOp w = op.code) :
    decode w = decodeOperands (fieldA w) (fieldB w) op := by
  rw [decode_eq, h, opOfCode_code, Option.elim_some]

/-! ### The words of an instruction, and the illegal ones (R93, R94) -/

/-- A word whose used bits are those of the canonical word of `i` decodes to `i`. -/
theorem decode_of_and_usedBits {w : CmdWord} {i : Instr} (h : w &&& i.op.usedBits = encode i) : decode w = .ok i := by
  obtain ⟨ho, ha, hb⟩ := (and_usedBits_eq_encode_iff w i).mp h
  rw [decode_of_code ho]
  cases i
  case pbload idx data => exact (decodeBuf_eq_ok_iff _ _ _).mpr ⟨idx, ha, congrArg (Instr.pbload idx) hb⟩
  case cmdw page | cmdd page => exact (decodePage_eq_ok_iff _ _ _).mpr ⟨page, ha, rfl⟩
  case rdbyte | rdpage | wrpage =>
    cases ha
    rfl
  case capture | release | erase | pbclr | cmde => rfl

/-- The used bits of a word that decodes to `i` are those of the canonical word of `i`. -/
theorem and_usedBits_of_decode {w : CmdWord} {i : Instr} (h : decode w = .ok i) : w &&& i.op.usedBits = encode i := by
  rw [and_usedBits_eq_encode_iff]
  cases hop : opOfCode (fieldOp w) with
  | none =>
    rw [decode_eq, hop] at h
    cases h
  | some op =>
    have ho := code_of_opOfCode hop
    rw [decode_of_code ho] at h
    cases op
    case pbload =>
      obtain ⟨idx, ha, rfl⟩ := (decodeBuf_eq_ok_iff _ _ _).mp h
      exact ⟨ho, ha, rfl⟩
    case cmdw | cmdd =>
      obtain ⟨page, ha, rfl⟩ := (decodePage_eq_ok_iff _ _ _).mp h
      exact ⟨ho, ha, rfl⟩
    case capture | release | rdbyte | rdpage | wrpage | erase | pbclr | cmde =>
      cases h
      exact ⟨ho, rfl, rfl⟩

/-- The words that decode to `i` are those that agree with its canonical word in the bits its operation looks at. -/
theorem decode_eq_ok_iff (w : CmdWord) (i : Instr) : decode w = .ok i ↔ w &&& i.op.usedBits = encode i :=
  ⟨and_usedBits_of_decode, decode_of_and_usedBits⟩

/-- Settles O2: both claims are `decode_eq_ok_iff`, at `w` and at `w'`. -/
theorem ignoredBitsDoNotMatter : Obligations.IgnoredBitsDoNotMatter := by
  unfold Obligations.IgnoredBitsDoNotMatter
  intro w w' i hw hsame
  have hw' : w' &&& i.op.usedBits = encode i := hsame ▸ (decode_eq_ok_iff w i).mp hw
  exact ⟨(decode_eq_ok_iff w' i).mpr hw', hw'⟩

theorem decode_of_unassigned {w : CmdWord} (h : CmdWord.opcodeAssigned w = false) :
    decode w = .error .illegalOpcode := by
  rw [decode_eq, (opcodeAssigned_eq_false_iff w).mp h, Option.elim_none]

theorem decode_of_reserved {w : CmdWord} (h : CmdWord.opcodeAssigned w = true) (hz : CmdWord.reservedZero w = false) :
    decode w = .error .reservedBits := by
  obtain ⟨op, hop⟩ := Option.ne_none_iff_exists'.mp (mt (opcodeAssigned_eq_false_iff w).mpr (by simp [h]))
  have ho := code_of_opOfCode hop
  rw [CmdWord.reservedZero, opNat_eq, aNat_eq, ho] at hz
  rw [decode_of_code ho]
  cases op
  case pbload => exact decodeBuf_of_le (by simpa [Op.code] using hz) _
  case cmdw | cmdd => exact decodePage_of_le (by simpa [Op.code] using hz) _
  case capture | release | rdbyte | rdpage | wrpage | erase | pbclr | cmde => simp [Op.code] at hz

/-- The decoder's answer to an illegal word: the opcode is looked at before the reserved bits. -/
theorem decode_of_illegal {w : CmdWord} (h : CmdWord.legal w = false) :
    decode w = .error (if CmdWord.opcodeAssigned w then .reservedBits else .illegalOpcode) := by
  cases hop : CmdWord.opcodeAssigned w with
  | false => exact decode_of_unassigned hop
  | true => exact decode_of_reserved hop (by simpa [CmdWord.legal, hop] using h)

end Sys2Proof
end

section

namespace Sys2Proof.Machine

/-! ### An illegal word at the port (R93) -/

/-- The port drops a word the decoder refuses (R93). -/
theorem takeWord_of_error {w : CmdWord} {e : DecodeError} (h : decode w = .error e) (s : State) :
    takeWord w s = .next (dropWord (refusalOf e) s) := by
  rw [takeWord, h]

/-- Settles O7: the step takes the word, and the port drops it with the reason the decoder gives. -/
theorem illegalWordIsDropped : Obligations.IllegalWordIsDropped := by
  unfold Obligations.IllegalWordIsDropped
  intro s w rest hb hi hw
  rw [step_input hb hi, takeInput, takeWord_of_error (decode_of_illegal hw), apply_ite refusalOf]
  rfl

/-! ### The buffer operations (R165, R166) -/

@[simp] theorem operate_pbuf (body : State → State) (s : State) : (operate body s).pbuf = (body (begin s)).pbuf := rfl

/-- PBLOAD completes in either mode (R165). -/
theorem exec_pbload (idx : BufIdx) (data : Byte) (s : State) :
    exec (.pbload idx data) s = .next (operate (bufLoad idx data) s) := rfl

/-- PBCLR completes in either mode (R166). -/
theorem exec_pbclr (s : State) : exec .pbclr s = .next (operate bufClear s) := rfl

theorem bufByte_of_lt (buf : Vector Byte 128) {k : Nat} (hk : k < 128) : bufByte buf k = buf[k] := dif_pos hk

@[simp] theorem bufByte_zero (k : Nat) : bufByte (Vector.replicate 128 0x00#8) k = 0x00#8 := by
  by_cases hk : k < 128
  · rw [bufByte_of_lt _ hk, Vector.getElem_replicate]
  · exact dif_neg hk

theorem bufByte_setIfInBounds (buf : Vector Byte 128) (i : Nat) (d : Byte) {k : Nat} (hk : k < 128) :
    bufByte (buf.setIfInBounds i d) k = if k = i then d else bufByte buf k := by
  simp [bufByte_of_lt, hk, Vector.getElem_setIfInBounds, eq_comm]

/-- A PBLOAD leaves its byte at its index and every other byte as it was (R165). -/
theorem bufByte_operate_bufLoad (idx : BufIdx) (data : Byte) (s : State) {k : Nat} (hk : k < 128) :
    bufByte (operate (bufLoad idx data) s).pbuf k = if k = idx.toNat then data else bufByte s.pbuf k := by
  rw [operate_pbuf, bufLoad_pbuf, begin_pbuf, bufByte_setIfInBounds _ _ _ hk]

/-- An operation that completes hands its state to the rest of the list (R194). -/
theorem execAll_cons_of_next {i : Instr} {s t : State} (h : exec i s = .next t) (rest : List Instr) :
    execAll (i :: rest) s = execAll rest t := by
  rw [execAll, h]

/-! ### PBFILL (R100) -/

theorem pbfillFrom_cons (j : Nat) (b : Byte) (bs : List Byte) :
    pbfillFrom j (b :: bs) = .pbload (BitVec.ofNat 7 j) b :: pbfillFrom (j + 1) bs := rfl

theorem pbfillFrom_eq_map (bs : List Byte) (j : Nat) :
    pbfillFrom j bs = (List.range bs.length).map fun i => .pbload (BitVec.ofNat 7 (j + i)) (bs.getD i 0x00#8) := by
  induction bs generalizing j with
  | nil => rfl
  | cons b bs ih => simp [pbfillFrom_cons, ih, List.range_succ_eq_map, Nat.add_assoc, Nat.add_comm 1]

/-- The loads of PBFILL from index `j` on complete, touch no pin and no mode, and leave the bytes from `j` on; elsewhere the
buffer is as before. -/
theorem execAll_pbfillFrom (bs : List Byte) (j : Nat) (s : State) (hj : j + bs.length ≤ 128) :
    ∃ t, execAll (pbfillFrom j bs) s = .next t ∧ t.pins = s.pins ∧ t.own = s.own ∧
      ∀ k, k < 128 → bufByte t.pbuf k = if k < j then bufByte s.pbuf k else bs.getD (k - j) (bufByte s.pbuf k) := by
  induction bs generalizing j s with
  | nil => exact ⟨s, rfl, rfl, rfl, by simp⟩
  | cons b bs ih =>
    rw [List.length_cons] at hj
    obtain ⟨t, hrun, hpins, hown, hbuf⟩ := ih (j + 1) (operate (bufLoad (BitVec.ofNat 7 j) b) s) (by omega)
    have hidx : (BitVec.ofNat 7 j).toNat = j := Nat.mod_eq_of_lt (by omega)
    refine ⟨t, by rw [pbfillFrom_cons, execAll_cons_of_next (exec_pbload _ b s), hrun], hpins, hown, fun k hk => ?_⟩
    rw [hbuf k hk, bufByte_operate_bufLoad _ b s hk, hidx]
    rcases Nat.lt_trichotomy k j with hlt | rfl | hgt
    · simp [hlt, hlt.ne, Nat.lt_succ_of_lt hlt]
    · simp
    · have hsub : k - j = k - (j + 1) + 1 := by omega
      rw [if_neg (by omega), if_neg (by omega), if_neg (by omega), hsub, List.getD_cons_succ]

/-- Settles O26: the expansion by `pbfillFrom_eq_map`; its run by `execAll_pbfillFrom` from the zeroed buffer. -/
theorem pbfillFillsAndZeroPads : Obligations.PbfillFillsAndZeroPads := by
  unfold Obligations.PbfillFillsAndZeroPads
  intro bs s
  refine ⟨fun h => ?_, fun h => if_neg h, fun prog hprog => ?_⟩
  · rw [pbfill, if_pos h, pbfillFrom_eq_map]
    simp
  · obtain ⟨⟨-, hlen⟩, hprog⟩ := Option.ite_none_right_eq_some.mp hprog
    cases hprog
    obtain ⟨t, hrun, hpins, hown, hbuf⟩ := execAll_pbfillFrom bs 0 (operate bufClear s) (by omega)
    refine ⟨t, by rw [execAll_cons_of_next (exec_pbclr s), hrun], hpins, hown, fun k hk => ?_⟩
    simpa using hbuf k hk

end Sys2Proof.Machine
end

section

namespace Sys2Proof.Machine

open Sys2Proof.Safety

/-! ### The passing of time and the surroundings over a whole operation -/

@[simp] theorem operate_trace (body : State → State) (s : State) : (operate body s).trace = (body (begin s)).trace := rfl

/-- The mode does not matter to the chip. -/
theorem Aged.with_own {s t : State} (h : Aged s t) (o : Own) : Aged s { t with own := o } := ⟨h.params, h.now, h.chip⟩

/-- Start and end of an operation do not matter to the chip (R29). -/
theorem operate_aged {body : State → State} {s : State} (h : Aged (begin s) (body (begin s))) : Aged s (operate body s) :=
  ⟨h.params, h.now, h.chip⟩

/-- Start and end of an operation write nothing of the surroundings (R29). -/
theorem operate_keepsSurroundings {body : State → State} {s : State} (h : KeepsSurroundings (begin s) (body (begin s))) :
    KeepsSurroundings s (operate body s) := h

/-! ### Traces without a bus cycle -/

/-- Pins with write enable high make no write cycle (R60). -/
theorem inWriteCycle_of_we_high {q : Pins} (h : q.we = .high) : q.inWriteCycle = false := by
  simp [Pins.inWriteCycle, h]

/-- Snapshots with write enable high show no write cycle, whatever the pins before them (R60). -/
theorem writeCycles_of_we_high : ∀ (l : List TraceEntry) (prev : Pins), (∀ q ∈ snapshots l, q.we = .high) →
    writeCycles prev l = []
  | [], _, _ => rfl
  | .pins _ q :: rest, prev, h => by
    obtain ⟨hq, hrest⟩ := List.forall_mem_cons.mp h
    simpa [writeCycles, inWriteCycle_of_we_high hq] using writeCycles_of_we_high rest q hrest
  | .delay _ _ _ :: rest, prev, h => writeCycles_of_we_high rest prev h
  | .sample _ _ :: rest, prev, h => writeCycles_of_we_high rest prev h

/-! ### The capture of the bus (R120) -/

theorem exec_capture_ext {s : State} (h : s.own = .ext) : exec .capture s = .next (operate captureBus s) := if_pos h

theorem exec_capture_ctrl {s : State} (h : s.own = .ctrl) : exec .capture s = .refused .alreadyOwned :=
  if_neg (by simp [h])

/-- The entries a capture appends: one snapshot for each of C1 to C4. -/
def captureEntries (s : State) : List TraceEntry :=
  [.pins (stepC1 s).now { s.pins with boe := .high },
    .pins (stepC2 (stepC1 s)).now { s.pins with boe := .high, ce := ⟨.out, s.pins.ce.val⟩ },
    .pins (stepC3 (stepC2 (stepC1 s))).now
      { s.pins with boe := .high, ce := ⟨.out, .high⟩, we := .high, oe := .high },
    .pins (captureBus s).now capturedPins]

theorem captureBus_trace (s : State) : (captureBus s).trace = s.trace ++ captureEntries s := by
  simp [captureBus, captureEntries, stepC1, stepC2, stepC3, stepC4, Pins.released, capturedPins]

theorem captureBus_pins (s : State) : (captureBus s).pins = capturedPins := rfl

/-- Each of C1 to C4 takes a time in `[0, T_STEP_MAX]` (R11). -/
theorem captureBus_times (s : State) :
    s.now ≤ (stepC1 s).now ∧ (stepC1 s).now ≤ (stepC2 (stepC1 s)).now ∧
      (stepC2 (stepC1 s)).now ≤ (stepC3 (stepC2 (stepC1 s))).now ∧
      (stepC3 (stepC2 (stepC1 s))).now ≤ (captureBus s).now ∧ (captureBus s).now ≤ s.now + 4 * s.params.stepMax := by
  have h0 := slack_le s.params s.draws
  have h1 := slack_le s.params (s.draws + 1)
  have h2 := slack_le s.params (s.draws + 2)
  have h3 := slack_le s.params (s.draws + 3)
  simp [captureBus, stepC1, stepC2, stepC3, stepC4, Nat.add_assoc]
  omega

theorem captureBus_keepsSurroundings (s : State) : KeepsSurroundings s (captureBus s) :=
  ⟨rfl, rfl, rfl, rfl, rfl, (captureBus_marked s).marks, rfl⟩

/-- With write enable high before it, a capture only lets the chip age (R120). -/
theorem captureBus_aged {s : State} (h : s.pins.we = .high) : Aged s (captureBus s) := by
  have e1 : Aged s (stepC1 s) := (pinUpdate_aged h h).with_own .ctrl
  have e2 : Aged (stepC1 s) (stepC2 (stepC1 s)) := pinUpdate_aged h h
  have e3 : Aged (stepC2 (stepC1 s)) (stepC3 (stepC2 (stepC1 s))) := pinUpdate_aged h rfl
  have e4 : Aged (stepC3 (stepC2 (stepC1 s))) (captureBus s) := pinUpdate_aged rfl rfl
  exact e1.trans (e2.trans (e3.trans e4))

/-- With write enable high before it, a capture makes no write cycle (R120). -/
theorem writeCycles_captureEntries {s : State} (h : s.pins.we = .high) (prev : Pins) :
    writeCycles prev (captureEntries s) = [] :=
  writeCycles_of_we_high _ prev (by simp [captureEntries, snapshots, capturedPins, h])

/-- A capture samples nothing, so it makes no read cycle (R61, R120). -/
theorem readCycles_captureEntries (s : State) (prev : Pins) : readCycles prev (captureEntries s) = [] := rfl

/-- Settles O13: every clause is that of `captureBus` from the state in which the operation has begun. -/
theorem captureTakesTheBus : Obligations.CaptureTakesTheBus := by
  unfold Obligations.CaptureTakesTheBus
  intro s
  refine ⟨exec_capture_ctrl, fun hown => ?_⟩
  have htrace : (operate captureBus s).trace = s.trace ++ captureEntries (begin s) := captureBus_trace (begin s)
  have hnew : (operate captureBus s).trace.drop s.trace.length = captureEntries (begin s) := by
    rw [htrace, List.drop_left]
  obtain ⟨h1, h2, h3, h4, hmax⟩ := captureBus_times (begin s)
  refine ⟨operate captureBus s, _, _, _, exec_capture_ext hown, htrace, h1, h2, h3, h4, hmax,
    ⟨rfl, captureBus_pins (begin s)⟩, ⟨rfl, rfl⟩, operate_keepsSurroundings (captureBus_keepsSurroundings (begin s)),
    rfl, rfl, rfl, rfl, fun hwe => ?_, ?_, fun hwe => ?_⟩
  · rw [hnew, writeCycles_captureEntries (s := begin s) hwe]
  · rw [hnew, readCycles_captureEntries]
  · have haged := operate_aged (captureBus_aged (s := begin s) hwe)
    exact ⟨haged.chip, haged.still⟩

/-! ### The release of the bus (R121) -/

theorem exec_release_ctrl {s : State} (h : s.own = .ctrl) : exec .release s = .next (operate releaseBus s) := if_pos h

theorem exec_release_ext {s : State} (h : s.own = .ext) : exec .release s = .refused .notOwned :=
  if_neg (by simp [h])

/-- The level CE.val takes at L3: any value (R121, log entry 7). -/
def releasedLevel (s : State) : Level := Config.freeLevel (stepL2 (stepL1 s)).draws

/-- The entries a release appends: one snapshot for each of L1 to L5. -/
def releaseEntries (s : State) : List TraceEntry :=
  [.pins (stepL1 s).now { s.pins with we := .high },
    .pins (stepL2 (stepL1 s)).now { s.pins with we := .high, oe := .low },
    .pins (stepL3 (stepL2 (stepL1 s))).now { s.pins with we := .high, oe := .low, ce := ⟨.inp, releasedLevel s⟩ },
    .pins (stepL4 (stepL3 (stepL2 (stepL1 s)))).now { releasedPins (releasedLevel s) with boe := s.pins.boe },
    .pins (releaseBus s).now (releasedPins (releasedLevel s))]

theorem releaseBus_trace (s : State) : (releaseBus s).trace = s.trace ++ releaseEntries s := by
  simp [releaseBus, releaseEntries, releasedLevel, stepL1, stepL2, stepL3, stepL4, stepL5, Pins.released, releasedPins]

theorem releaseBus_pins (s : State) : (releaseBus s).pins = releasedPins (releasedLevel s) := rfl

/-- Each of L1 to L5 takes a time in `[0, T_STEP_MAX]` (R11). -/
theorem releaseBus_times (s : State) :
    s.now ≤ (stepL1 s).now ∧ (stepL1 s).now ≤ (stepL2 (stepL1 s)).now ∧
      (stepL2 (stepL1 s)).now ≤ (stepL3 (stepL2 (stepL1 s))).now ∧
      (stepL3 (stepL2 (stepL1 s))).now ≤ (stepL4 (stepL3 (stepL2 (stepL1 s)))).now ∧
      (stepL4 (stepL3 (stepL2 (stepL1 s)))).now ≤ (releaseBus s).now ∧
      (releaseBus s).now ≤ s.now + 5 * s.params.stepMax := by
  have h0 := slack_le s.params s.draws
  have h1 := slack_le s.params (s.draws + 1)
  have h2 := slack_le s.params (s.draws + 2)
  have h3 := slack_le s.params (s.draws + 3)
  have h4 := slack_le s.params (s.draws + 4)
  simp [releaseBus, stepL1, stepL2, stepL3, stepL4, stepL5, Nat.add_assoc]
  omega

theorem releaseBus_keepsSurroundings (s : State) : KeepsSurroundings s (releaseBus s) :=
  ⟨rfl, rfl, rfl, rfl, rfl, (releaseBus_marked s).marks, rfl⟩

/-- With write enable high before it, a release only lets the chip age (R121). -/
theorem releaseBus_aged {s : State} (h : s.pins.we = .high) : Aged s (releaseBus s) := by
  have e1 : Aged s (stepL1 s) := pinUpdate_aged h rfl
  have e2 : Aged (stepL1 s) (stepL2 (stepL1 s)) := pinUpdate_aged rfl rfl
  have e3 : Aged (stepL2 (stepL1 s)) (stepL3 (stepL2 (stepL1 s))) := pinUpdate_aged rfl rfl
  have e4 : Aged (stepL3 (stepL2 (stepL1 s))) (stepL4 (stepL3 (stepL2 (stepL1 s)))) := pinUpdate_aged rfl rfl
  have e5 : Aged (stepL4 (stepL3 (stepL2 (stepL1 s)))) (releaseBus s) := (pinUpdate_aged rfl rfl).with_own .ext
  exact e1.trans (e2.trans (e3.trans (e4.trans e5)))

/-- Write enable is high from L1 on, so a release makes no write cycle, whatever the pins before it (R121). -/
theorem writeCycles_releaseEntries (s : State) (prev : Pins) : writeCycles prev (releaseEntries s) = [] :=
  writeCycles_of_we_high _ prev (by simp [releaseEntries, snapshots, releasedPins])

/-- A release samples nothing, so it makes no read cycle (R61, R121). -/
theorem readCycles_releaseEntries (s : State) (prev : Pins) : readCycles prev (releaseEntries s) = [] := rfl

/-- Settles O14: every clause is that of `releaseBus` from the state in which the operation has begun. -/
theorem releaseGivesTheBusBack : Obligations.ReleaseGivesTheBusBack := by
  unfold Obligations.ReleaseGivesTheBusBack
  intro s
  refine ⟨exec_release_ext, fun hown => ?_⟩
  have htrace : (operate releaseBus s).trace = s.trace ++ releaseEntries (begin s) := releaseBus_trace (begin s)
  have hnew : (operate releaseBus s).trace.drop s.trace.length = releaseEntries (begin s) := by
    rw [htrace, List.drop_left]
  obtain ⟨h1, h2, h3, h4, h5, hmax⟩ := releaseBus_times (begin s)
  refine ⟨operate releaseBus s, releasedLevel (begin s), _, _, _, _, exec_release_ctrl hown, htrace, h1, h2, h3, h4, h5,
    hmax, rfl, releaseBus_pins (begin s), ⟨rfl, rfl⟩, operate_keepsSurroundings (releaseBus_keepsSurroundings (begin s)),
    rfl, rfl, rfl, rfl, fun _ => ?_, ?_, fun hwe => ?_⟩
  · rw [hnew, writeCycles_releaseEntries]
  · rw [hnew, readCycles_releaseEntries]
  · have haged := operate_aged (releaseBus_aged (s := begin s) hwe)
    exact ⟨haged.chip, haged.still⟩

end Sys2Proof.Machine
end

section

namespace Sys2Proof.Machine

open Sys2Proof.Safety

/-! ### How time moves in a micro-step (R11) -/

theorem now_le_pinUpdate (f : Pins → Pins) (s : State) : s.now ≤ (pinUpdate f s).now := Nat.le_add_right _ _

/-- A delay lasts at least what it is asked for. -/
theorem now_add_le_delay (k : DelayKind) (T : Nat) (s : State) : s.now + T ≤ (delay k T s).now :=
  Nat.add_le_add_left (Nat.le_add_right _ _) _

theorem now_le_sample (s : State) : s.now ≤ (sample s).now := Nat.le_add_right _ _

theorem now_le_emit (s : State) : s.now ≤ (emit s).now := Nat.le_add_right _ _

/-! ### The write of a byte (R142) -/

/-- The instants of W1 to W5 rise; between them lie the dwell and the recovery (R142, R240, R241). -/
theorem writeByte_times (a : Addr) (d : Byte) (s : State) :
    s.now ≤ (stepW1 a d s).now ∧ (stepW1 a d s).now ≤ (stepW2 (stepW1 a d s)).now ∧
      (stepW2 (stepW1 a d s)).now + s.params.wp ≤ (stepW3 (stepW2 (stepW1 a d s))).now ∧
      (stepW3 (stepW2 (stepW1 a d s))).now ≤ (stepW4 (stepW3 (stepW2 (stepW1 a d s)))).now ∧
      (stepW4 (stepW3 (stepW2 (stepW1 a d s)))).now + s.params.wrRec ≤ (writeByte a d s).now :=
  ⟨now_le_pinUpdate _ s, now_le_pinUpdate _ _, now_add_le_delay .writePulse _ _, now_le_pinUpdate _ _,
    now_add_le_delay .writeRecovery _ _⟩

/-- From driving pins, the entries of a write show its one cycle, at the falling edge (R60, R142). -/
theorem writeCycles_writeEntries {q : Pins} (h : PinState.sWidle.holds q = true) (a : Addr) (d : Byte) (s : State) :
    writeCycles q (writeEntries a d s) = [((stepW2 (stepW1 a d s)).now, a, d)] := by
  obtain ⟨a', d', rfl⟩ := (sWidle_iff q).mp h
  have hdriven (b : Addr) (x : Byte) : (drivenPins b x).inWriteCycle = false := rfl
  have hpulse : (pulsePins a d).inWriteCycle = true := rfl
  have hdata : (pulsePins a d).dq.val = d := rfl
  simp [writeEntries, writeCycles, hdriven, hpulse, hdata]

/-- Settles O15: the trace is `writeEntries`, whose instants and cycle have a lemma each; the floors are those of the parameters. -/
theorem writeByteMakesOneWriteCycle : Obligations.WriteByteMakesOneWriteCycle := by
  unfold Obligations.WriteByteMakesOneWriteCycle
  intro s a d hp h
  obtain ⟨hwp, hrec, -⟩ := hp
  obtain ⟨h1, h2, h3, h4, h5⟩ := writeByte_times a d s
  have htrace := writeByte_trace h a d
  exact ⟨_, _, _, _, _, _, htrace, h1, h2, (Nat.add_le_add_left hwp _).trans h3, h4,
    (Nat.add_le_add_left hrec _).trans h5, Nat.le_add_right_of_le hwp, Nat.le_add_right_of_le hrec,
    writeByte_pins h a d, _, htrace, writeCycles_writeEntries h a d s⟩

/-! ### The read of a byte (R143, R144) -/

theorem exec_rdbyte_ctrl {s : State} (h : s.own = .ctrl) (a : Addr) :
    exec (.rdbyte a) s = .next (operate (readEmit a) s) := if_pos h

theorem exec_rdbyte_ext {s : State} (h : s.own = .ext) (a : Addr) : exec (.rdbyte a) s = .refused .notOwned :=
  if_neg (by simp [h])

/-- The instants of R1 to R6 and of the emit rise; the settle lies between the fall of the lines and the sample (R143, R242). -/
theorem readEmit_times (a : Addr) (s : State) :
    s.now ≤ (stepR1 a s).now ∧ (stepR1 a s).now ≤ (stepR2 (stepR1 a s)).now ∧
      (stepR2 (stepR1 a s)).now + s.params.rdSettle ≤ (stepR3 (stepR2 (stepR1 a s))).now ∧
      (stepR3 (stepR2 (stepR1 a s))).now ≤ (stepR4 (stepR3 (stepR2 (stepR1 a s)))).now ∧
      (stepR4 (stepR3 (stepR2 (stepR1 a s)))).now ≤ (stepR5 (stepR4 (stepR3 (stepR2 (stepR1 a s))))).now ∧
      (stepR5 (stepR4 (stepR3 (stepR2 (stepR1 a s))))).now ≤ (readByte a s).now ∧
      (readByte a s).now ≤ (readEmit a s).now :=
  ⟨now_le_pinUpdate _ s, now_le_pinUpdate _ _, now_add_le_delay .readSettle _ _, now_le_sample _, now_le_pinUpdate _ _,
    now_le_pinUpdate _ _, now_le_emit _⟩

/-- The entries of a read show its one cycle, whatever the pins before them (R61, R143). -/
theorem readCycles_readEntries (q : Pins) (a : Addr) (s : State) :
    readCycles q (readEntries a s) = [(a, (readEmit a s).smp)] := by
  have hactive : (readActivePins a).inReadCycle = true := rfl
  have hemit : (readByte a s).smp = (readEmit a s).smp := rfl
  simp [readEntries, readCycles, hactive, hemit]

/-- Write enable stays high, so a read makes no write cycle (R60, R143). -/
theorem writeCycles_readEntries (q : Pins) (a : Addr) (s : State) : writeCycles q (readEntries a s) = [] :=
  writeCycles_of_we_high _ q (by simp [readEntries, snapshots, readAddrPins, readActivePins, capturedPins])

/-- What no procedure writes are the surroundings, among other fields. -/
theorem SameContext.keepsSurroundings {s t : State} (h : SameContext s t) : KeepsSurroundings s t :=
  ⟨h.opReg, h.aReg, h.bReg, h.master, h.params, h.marked.marks, h.inputs⟩

/-- A read leaves a captured bus at rest captured and at rest (R143). -/
theorem operate_readEmit_held {s : State} (h : Held s) (a : Addr) : Held (operate (readEmit a) s) := by
  obtain ⟨hown, hpins⟩ := h
  exact ⟨(readEmit_context a (begin s)).own.trans hown, readEmit_pins (s := begin s) hpins a⟩

/-- The cells of an idle chip as it stands at NOW are those it holds (R63). -/
theorem cell_idle {s : State} (h : s.chip.cs = .idle) (a : Nat) : cell s a = Memory.read s.params s.chip.flash a := by
  rw [cell, chipNow, chipSettle_idle h]

/-- Settles O16: every clause is that of `readEmit` from the state in which the operation has begun; the byte is given by the
three lemmas about what a read takes: from an idle chip, from one that is not, from a slow one. -/
theorem rdbyteReadsOneByte : Obligations.RdbyteReadsOneByte := by
  unfold Obligations.RdbyteReadsOneByte
  intro s a
  refine ⟨fun hown => exec_rdbyte_ext hown a, fun hheld => ?_⟩
  obtain ⟨hown, hpins⟩ := hheld
  rw [← begin_pins] at hpins
  have hcontext := readEmit_context a (begin s)
  have haged := operate_aged (readEmit_aged hpins a)
  obtain ⟨h1, h2, h3, h4, h5, h6, h7⟩ := readEmit_times a (begin s)
  refine ⟨operate (readEmit a) s, readEntries a (begin s), _, _, _, _, _, _, _, exec_rdbyte_ctrl hown a,
    readEmit_trace hpins a, rfl, h1, h2, h3, h4, h5, h6, h7, Nat.le_add_right _ _,
    Nat.add_le_add_left (slack_le _ _) _, readCycles_readEntries _ a _, writeCycles_readEntries _ a _,
    readEmit_rsp a (begin s), operate_readEmit_held ⟨hown, hpins⟩ a, ⟨rfl, rfl⟩,
    operate_keepsSurroundings hcontext.keepsSurroundings, hcontext.pbuf, haged.chip,
    fun hstill => ⟨haged.still hstill, fun hcs => ⟨_, readEmit_smp_free hpins a hstill hcs⟩⟩,
    fun hslow => ⟨_, readEmit_smp_slow hpins a hslow⟩, fun hidle hfast => ?_⟩
  rw [cell_idle hidle]
  exact readEmit_smp_idle hpins hidle hfast a

end Sys2Proof.Machine
end

section

namespace Sys2Proof.Machine

open Sys2Proof.Safety

/-! ### Operations one after the other (R194) -/

/-- Two operations on end are one operation with both bodies: no body looks at BUSY or SEQ (R29, R30). -/
theorem operate_operate {f g : State → State} (hf : Blind f) (hg : Blind g) (s : State) :
    operate f (operate g s) = operate (fun u => f (g u)) s := by
  rw [operate_eq hf, operate_eq hg, hf, relabel_relabel, operate_eq (hf.comp hg)]

/-- A list that completes hands its state to the list after it (R194). -/
theorem execAll_append_of_next : ∀ {l : List Instr} {s t : State}, execAll l s = .next t →
    ∀ rest : List Instr, execAll (l ++ rest) s = execAll rest t
  | [], _, _, h, _ => by
    cases h
    rfl
  | i :: l, s, t, h, rest => by
    rw [execAll] at h
    cases hi : exec i s with
    | next u =>
      rw [hi] at h
      rw [List.cons_append, execAll_cons_of_next hi, execAll_append_of_next h rest]
    | fault f =>
      rw [hi] at h
      cases h
    | refused r =>
      rw [hi] at h
      cases h

/-- An operation that is refused stops the list (R196). -/
theorem execAll_cons_of_refused {i : Instr} {s : State} {r : Refusal} (h : exec i s = .refused r) (rest : List Instr) :
    execAll (i :: rest) s = .refused r := by
  rw [execAll, h]

/-! ### The read of a page (R164) -/

theorem exec_rdpage_ext {s : State} (h : s.own = .ext) (base : Addr) : exec (.rdpage base) s = .refused .notOwned :=
  if_neg (by simp [h])

/-- The RDBYTE of the first `k` addresses from `base` on. -/
def rdbytes (base : Addr) (k : Nat) : List Instr := (List.range k).map fun i => .rdbyte (addrAt base i)

theorem rdbytes_succ (base : Addr) (k : Nat) : rdbytes base (k + 1) = rdbytes base k ++ [.rdbyte (addrAt base k)] := by
  simp [rdbytes, List.range_succ]

theorem rdbytes_eq_cons (base : Addr) (k : Nat) :
    rdbytes base (k + 1) = .rdbyte (addrAt base 0) :: (List.range k).map fun i => .rdbyte (addrAt base (i + 1)) := by
  simp [rdbytes, List.range_succ_eq_map]

theorem blind_readAll (base : Addr) (k : Nat) : Blind (readAll base k) := blind_rounds (fun _ => blind_readEmit _) k

/-- On an owned bus a positive number of RDBYTE is one operation: the row of reads (R144, R164). -/
theorem execAll_rdbytes {s : State} (h : s.own = .ctrl) (base : Addr) (k : Nat) :
    execAll (rdbytes base (k + 1)) s = .next (operate (readAll base (k + 1)) s) := by
  induction k with
  | zero => exact execAll_cons_of_next (exec_rdbyte_ctrl h _) []
  | succ k ih =>
    have hown : (operate (readAll base (k + 1)) s).own = .ctrl := (readAll_context base (k + 1) (begin s)).own.trans h
    rw [rdbytes_succ, execAll_append_of_next ih, execAll_cons_of_next (exec_rdbyte_ctrl hown _), execAll,
      operate_operate (blind_readEmit _) (blind_readAll base (k + 1))]
    rfl

/-- RDPAGE is the 128 RDBYTE of its addresses, accepted or refused (R164). -/
theorem exec_rdpage_eq_rdbytes (base : Addr) (s : State) : exec (.rdpage base) s = execAll (rdbytes base 128) s := by
  cases h : s.own with
  | ctrl => exact (exec_rdpage_ctrl h base).trans (execAll_rdbytes h base 127).symm
  | ext => rw [exec_rdpage_ext h, rdbytes_eq_cons, execAll_cons_of_refused (exec_rdbyte_ext h _)]

/-- Settles O17: equality with the 128 RDBYTE is `exec_rdpage_eq_rdbytes`; every other clause is that of the row of reads from the
state in which the operation has begun. -/
theorem rdpageReads128Bytes : Obligations.RdpageReads128Bytes := by
  unfold Obligations.RdpageReads128Bytes
  intro s base
  refine ⟨fun hown => exec_rdpage_ext hown base, exec_rdpage_eq_rdbytes base s, fun ⟨hown, hpins⟩ => ?_⟩
  rw [← begin_pins] at hpins
  have hexec : exec (.rdpage base) s = .next (finish (readAll base pageSize (begin s))) := exec_rdpage_ctrl hown base
  obtain ⟨e, bytes, htrace, hrsp, hlen, hread, hwrite, -, hlast⟩ := readAll_trace base hpins pageSize
  have hrest := readAll_pins base hpins pageSize
  have hcontext := readAll_context base pageSize (begin s)
  have haged := readAll_aged base hpins pageSize
  have hcells : s.chip.cs = .idle → s.params.accChip < s.params.rdSettle →
      bytes = (List.range 128).map fun i => cell s (addrAt base i).toNat := by
    intro hidle hfast
    simp only [cell_idle hidle]
    exact List.append_cancel_left (hrsp.symm.trans (readAll_rsp_idle base hpins hidle hfast pageSize))
  generalize readAll base pageSize (begin s) = u at *
  exact ⟨finish u, e, bytes, hexec, htrace, hlen, hread, hwrite, hrsp, hlast (by decide),
    ⟨hcontext.own.trans hown, hrest⟩, ⟨rfl, rfl⟩, hcontext.keepsSurroundings, hcontext.pbuf, haged.chip,
    haged.still, hcells⟩

/-! ### The load gap of a page write (R167) -/

/-- The entries of a page write show the write cycles of its list, each at its falling edge (R96, R162). -/
theorem exec_wrpage_writeTimes {s : State} (h : Held s) (base : Addr) :
    ∃ t e, exec (.wrpage base) s = .next t ∧ t.trace = s.trace ++ e ∧
      writeCycles s.pins e = writeTimes (pageWriteCycles base s.pbuf) (setBusOut (begin s)) := by
  obtain ⟨hown, hpins⟩ := h
  obtain ⟨e, n, d, htrace, hcycles, -⟩ := writeSequence_trace (s := begin s) hpins .program s.params.progWait
    (pageWriteCycles base s.pbuf)
  refine ⟨_, _, exec_wrpage_ctrl hown base, ?_, hcycles⟩
  rw [operate_trace, writePage_sequence]
  exact htrace

/-- Settles O47: the times of the write cycles keep the gap by `writeTimes_gap`, and R167's bound is within `T_LOAD_GAP_MAX` by the
constraint on the parameters. -/
theorem loadGapHolds : Obligations.LoadGapHolds := by
  unfold Obligations.LoadGapHolds
  intro s base hheld hp
  obtain ⟨-, -, -, -, -, hmax, -⟩ := hp
  obtain ⟨t, e, hexec, htrace, hcycles⟩ := exec_wrpage_writeTimes hheld base
  refine ⟨t, e, hexec, htrace, fun k x y hx hy => ?_⟩
  rw [hcycles] at hx hy
  obtain ⟨hgap, hfloor⟩ := writeTimes_gap _ _ k x y hx hy
  exact ⟨hgap, hgap.trans (Nat.add_le_add_left hmax _), hfloor⟩

/-! ### The clearing of the page buffer (R166) -/

/-- PBCLR has one micro-step, which is the whole operation (R166, R190). -/
theorem microRun_pbclr (s : State) : microRun 1 (startOp .pbclr s) = exec .pbclr s := by
  obtain ⟨hrun, -⟩ := reach_last (op := .pbclr) (u := .pbclr) (i := 0) rfl rfl s
  rw [exec_pbclr, operate_eq blind_bufClear]
  exact hrun

theorem bufClear_keepsSurroundings (s : State) : KeepsSurroundings s (bufClear s) :=
  ⟨rfl, rfl, rfl, rfl, rfl, (bufClear_marked s).marks, rfl⟩

/-- Settles O25: every clause is that of `bufClear` from the state in which the operation has begun. -/
theorem pbclrZeroesTheBuffer : Obligations.PbclrZeroesTheBuffer := by
  unfold Obligations.PbclrZeroesTheBuffer
  intro s
  exact ⟨microRun_pbclr s, operate bufClear s, exec_pbclr s, bufByte_zero, rfl, rfl, ⟨rfl, rfl⟩,
    operate_keepsSurroundings (bufClear_keepsSurroundings (begin s)), rfl, rfl, rfl, rfl, rfl, Nat.le_add_right _ _,
    Nat.add_le_add_left (slack_le _ _) _, ⟨s.draws, rfl⟩, fun hstill => chipElapse_still hstill (le_refl _)⟩

end Sys2Proof.Machine
end

section

namespace Sys2Proof.Machine

open Sys2Proof.Safety

/-! ### The legality table (R196): the meaning of an operation is its body, or the refusal the table gives -/

/-- What an operation does between its start and its end (R120 to R193). -/
def opBody : Instr → State → State
  | .capture => captureBus
  | .release => releaseBus
  | .rdbyte addr => readEmit addr
  | .rdpage base => readPage base
  | .wrpage base => writePage base
  | .erase => eraseChip
  | .pbload idx data => bufLoad idx data
  | .pbclr => bufClear
  | .cmdw page => inWindow (writePage (pageBase page))
  | .cmdd page => inWindow (readPage (pageBase page))
  | .cmde => inWindow eraseChip

/-- An operation that needs one mode, where the table refuses it in every other, is decided by the table (R196). -/
theorem whenOwn_eq_table {op : Op} {want : Own} {why : Refusal}
    (h : ∀ own, refusedWhen own op = if own = want then none else some why) (body : State → State) (s : State) :
    whenOwn want why body s = (refusedWhen s.own op).elim (.next (operate body s)) .refused := by
  rw [h, whenOwn]
  split <;> rfl

/-- Every operation answers what the table says: refused, or its body run to its end (R196). -/
theorem exec_eq_table (i : Instr) (s : State) :
    exec i s = (refusedWhen s.own i.op).elim (.next (operate (opBody i) s)) .refused := by
  cases i with
  | pbload | pbclr => cases s.own <;> rfl
  | _ => exact whenOwn_eq_table (fun own => by cases own <;> rfl) _ s

theorem exec_of_accepted {i : Instr} {s : State} (h : refusedWhen s.own i.op = none) :
    exec i s = .next (operate (opBody i) s) := by
  rw [exec_eq_table, h]
  rfl

theorem exec_of_refused {i : Instr} {s : State} {r : Refusal} (h : refusedWhen s.own i.op = some r) :
    exec i s = .refused r := by
  rw [exec_eq_table, h]
  rfl

/-- What the table answers is a refusal of the word, at which the port does not stop (R196, R211). -/
theorem refusedWhen_isWordRefusal (own : Own) (op : Op) : (refusedWhen own op).all Refusal.isWordRefusal = true := by
  cases own <;> cases op <;> rfl

/-! ### What no operation writes -/

/-- A capture, an operation inside the window and a release write nothing of the surroundings (R191 to R193). -/
theorem inWindow_keepsSurroundings {inner : State → State} (h : ∀ u, SameContext u (inner u)) (s : State) :
    KeepsSurroundings s (inWindow inner s) := by
  have hin := h (captureBus s)
  have hmarked := (captureBus_marked s).trans (hin.marked.trans (releaseBus_marked _))
  exact ⟨hin.opReg, hin.aReg, hin.bReg, hin.master, hin.params, hmarked.marks, hin.inputs⟩

theorem bufLoad_keepsSurroundings (idx : BufIdx) (data : Byte) (s : State) : KeepsSurroundings s (bufLoad idx data s) :=
  ⟨rfl, rfl, rfl, rfl, rfl, (bufLoad_marked idx data s).marks, rfl⟩

theorem opBody_keepsSurroundings (i : Instr) (s : State) : KeepsSurroundings s (opBody i s) := by
  cases i with
  | capture => exact captureBus_keepsSurroundings s
  | release => exact releaseBus_keepsSurroundings s
  | rdbyte addr => exact (readEmit_context addr s).keepsSurroundings
  | rdpage base => exact (readPage_context base s).keepsSurroundings
  | wrpage base => exact (writePage_context base s).keepsSurroundings
  | erase => exact (eraseChip_context s).keepsSurroundings
  | pbload idx data => exact bufLoad_keepsSurroundings idx data s
  | pbclr => exact bufClear_keepsSurroundings s
  | cmdw page => exact inWindow_keepsSurroundings (writePage_context (pageBase page)) s
  | cmdd page => exact inWindow_keepsSurroundings (readPage_context (pageBase page)) s
  | cmde => exact inWindow_keepsSurroundings eraseChip_context s

/-! ### A legal word at the port (R95, R196) -/

/-- The port latches a legal word and hands the operation's outcome on (R95). -/
theorem takeWord_of_ok {w : CmdWord} {i : Instr} (h : decode w = .ok i) (s : State) :
    takeWord w s = portOutcome s (exec i (latchWord w s)) := by
  rw [takeWord, h]

/-- The port drops a word the table refuses; the latch is not written (R95, R196). -/
theorem takeWord_of_refused {w : CmdWord} {i : Instr} {s : State} {r : Refusal} (h : decode w = .ok i)
    (hr : refusedWhen s.own i.op = some r) : takeWord w s = .next (dropWord r s) := by
  have hword := refusedWhen_isWordRefusal s.own i.op
  rw [hr] at hword
  rw [takeWord_of_ok h, exec_of_refused (s := latchWord w s) hr]
  exact if_pos hword

/-- A word the table accepts runs its operation to the end, from the state whose latch holds it (R95, R196). -/
theorem takeWord_of_accepted {w : CmdWord} {i : Instr} {s : State} (h : decode w = .ok i)
    (hr : refusedWhen s.own i.op = none) : takeWord w s = .next (operate (opBody i) (latchWord w s)) := by
  rw [takeWord_of_ok h, exec_of_accepted (s := latchWord w s) hr]
  rfl

/-- Settles O8: the step takes the word; the port's three answers have a lemma each, and an accepted operation keeps the latch,
the inputs and, but for the chip's meaning, the marks. -/
theorem legalityByMode : Obligations.LegalityByMode := by
  unfold Obligations.LegalityByMode
  intro s w rest hb hi
  have hstep : step s = takeWord w { s with inputs := rest } := step_input hb hi
  cases hd : decode w with
  | error e => exact ⟨refusalOf e, hstep.trans (takeWord_of_error hd _)⟩
  | ok i =>
    dsimp only
    cases hr : refusedWhen s.own i.op with
    | some r => exact hstep.trans (takeWord_of_refused hd hr)
    | none =>
      obtain ⟨hopReg, haReg, hbReg, -, -, hmarks, hinputs⟩ := operate_keepsSurroundings
        (opBody_keepsSurroundings i (begin (latchWord w { s with inputs := rest })))
      exact ⟨_, hstep.trans (takeWord_of_accepted hd hr), ⟨rfl, rfl⟩, hmarks, hinputs, hopReg, haReg, hbReg⟩

/-! ### Composite and primitive forms (R195) -/

/-- An operation accepted on an owned bus, between a capture and a release, is one operation with its body in the window; with
the bus owned already, the capture is refused and so is the whole (R195, R196). -/
theorem execAll_window {i : Instr} (haccepted : refusedWhen .ctrl i.op = none)
    (hcontext : ∀ u, SameContext u (opBody i u)) (hblind : Blind (opBody i)) (s : State) :
    execAll [.capture, i, .release] s = whenOwn .ext .alreadyOwned (inWindow (opBody i)) s := by
  cases hown : s.own with
  | ctrl => exact (execAll_cons_of_refused (exec_capture_ctrl hown) _).trans (if_neg (by simp [hown])).symm
  | ext =>
    have hcaptured : (operate captureBus s).own = .ctrl := rfl
    have hinner : exec i (operate captureBus s) = .next (operate (opBody i) (operate captureBus s)) :=
      exec_of_accepted (by rw [hcaptured, haccepted])
    have hheld : (operate (opBody i) (operate captureBus s)).own = .ctrl :=
      (hcontext (begin (operate captureBus s))).own.trans hcaptured
    rw [execAll_cons_of_next (exec_capture_ext hown), execAll_cons_of_next hinner,
      execAll_cons_of_next (exec_release_ctrl hheld), execAll, operate_operate hblind blind_captureBus,
      operate_operate blind_releaseBus (hblind.comp blind_captureBus)]
    exact (if_pos hown).symm

/-- Settles O31: each composite is the window of `execAll_window` around its inner operation. -/
theorem compositeEqualsPrimitives : Obligations.CompositeEqualsPrimitives := by
  unfold Obligations.CompositeEqualsPrimitives
  intro s page
  have hwrite := execAll_window (i := .wrpage (pageBase page)) rfl (writePage_context _) (blind_writePage _) s
  have hread := execAll_window (i := .rdpage (pageBase page)) rfl (readPage_context _) (blind_readPage _) s
  have herase := execAll_window (i := .erase) rfl eraseChip_context blind_eraseChip s
  exact ⟨hwrite.symm, hread.symm, herase.symm⟩

end Sys2Proof.Machine
end

section

namespace Sys2Proof

/-! ### The canonical word, decoded (R90 to R93) -/

/-- The canonical word has zeros in the bits its operation does not look at (R94). -/
theorem encode_and_usedBits (i : Instr) : encode i &&& i.op.usedBits = encode i := by
  obtain ⟨ho, ha, hb⟩ := encode_fields i
  rw [and_usedBits_eq_encode_iff, ho, ha, hb]
  cases i <;> exact ⟨rfl, rfl, rfl⟩

/-- Settles O1: the canonical word agrees with itself in the bits its operation looks at. -/
theorem decodeInvertsEncode : Obligations.DecodeInvertsEncode := by
  unfold Obligations.DecodeInvertsEncode
  exact fun i => decode_of_and_usedBits (encode_and_usedBits i)

theorem decodePage_of_lt {a : BitVec 16} (h : a.toNat < 2 ^ 9) (mk : PageIdx → Instr) :
    decodePage a mk = .ok (mk (a.extractLsb' 0 9)) :=
  if_pos ((extractLsb'_eq_zero_iff_lt (by decide) a).mpr h)

theorem decodeBuf_of_lt {a : BitVec 16} (h : a.toNat < 2 ^ 7) (b : BitVec 8) :
    decodeBuf a b = .ok (.pbload (a.extractLsb' 0 7) b) :=
  if_pos ((extractLsb'_eq_zero_iff_lt (by decide) a).mpr h)

/-- An assigned opcode selects an operation (R92). -/
theorem exists_code_of_assigned {w : CmdWord} (h : CmdWord.opcodeAssigned w = true) :
    ∃ op : Op, fieldOp w = op.code := by
  obtain ⟨op, hop⟩ := Option.ne_none_iff_exists'.mp (mt (opcodeAssigned_eq_false_iff w).mpr (by simp [h]))
  exact ⟨op, code_of_opOfCode hop⟩

/-- A legal word decodes to an instruction (R93). -/
theorem decode_of_legal {w : CmdWord} (h : CmdWord.opcodeAssigned w = true) (hz : CmdWord.reservedZero w = true) :
    ∃ i, decode w = .ok i := by
  obtain ⟨op, ho⟩ := exists_code_of_assigned h
  rw [CmdWord.reservedZero, opNat_eq, aNat_eq, ho] at hz
  rw [decode_of_code ho]
  cases op
  case pbload => exact ⟨_, decodeBuf_of_lt (by simpa [Op.code] using hz) _⟩
  case cmdw | cmdd => exact ⟨_, decodePage_of_lt (by simpa [Op.code] using hz) _⟩
  case capture | release | rdbyte | rdpage | wrpage | erase | pbclr | cmde => exact ⟨_, rfl⟩

/-- Settles O3: a word is of one of three kinds, and each kind has its answer: an opcode that is not assigned, reserved bits that
are not zero, a legal word. -/
theorem decodeRefusesExactlyIllegalWords : Obligations.DecodeRefusesExactlyIllegalWords := by
  unfold Obligations.DecodeRefusesExactlyIllegalWords
  intro w
  cases hop : CmdWord.opcodeAssigned w with
  | false => simp [decode_of_unassigned hop, CmdWord.legal, hop]
  | true =>
    cases hz : CmdWord.reservedZero w with
    | false => simp [decode_of_reserved hop hz, CmdWord.legal, hop, hz]
    | true =>
      obtain ⟨i, hi⟩ := decode_of_legal hop hz
      simp [hi, CmdWord.legal, hop, hz]

/-- Settles O4: the decoder, run on the sixteen words. -/
theorem specWordsDecode : Obligations.SpecWordsDecode := by
  unfold Obligations.SpecWordsDecode
  decide

end Sys2Proof

namespace Sys2Proof.Machine

/-! ### Address arithmetic (R51, R53, R56) -/

theorem addrAt_toNat (base : Addr) (i : Nat) : (addrAt base i).toNat = (base.toNat + i) % 2 ^ 16 := by
  simp [addrAt]

theorem pageBase_toNat (p : PageIdx) : (pageBase p).toNat = p.toNat * 128 := by
  simp only [pageBase, BitVec.toNat_cast, BitVec.toNat_append, Nat.shiftLeft_eq]
  simp

theorem joinAddr_toNat (h l : Byte) : (joinAddr h l).toNat = h.toNat * 256 + l.toNat := by
  rw [joinAddr, BitVec.toNat_cast, BitVec.toNat_append, ← Nat.shiftLeft_add_eq_or_of_lt l.isLt, Nat.shiftLeft_eq]

/-- Settles O5: one lemma for each clause; an address is the join of its halves. -/
theorem addressArithmetic : Obligations.AddressArithmetic := by
  unfold Obligations.AddressArithmetic
  refine ⟨addrAt_toNat, pageBase_toNat, fun a => ⟨pageOf_toNat a, rfl⟩, fun a => ?_⟩
  rw [← joinAddr_toNat, Safety.halves_addr]

end Sys2Proof.Machine
end

section

namespace Sys2Proof.Machine

open Sys2Proof.Safety

/-! ### What a step can do (R190): its cases, and the elementary changes it is made of -/

/-- A busy block makes a micro-step, an idle one sits or takes the next input. -/
theorem step_cases {s t : State} (h : step s = .next t) :
    (s.busy = true ∧ microStep s = .next t) ∨ (s.busy = false ∧ s.inputs = [] ∧ t = s) ∨
      (s.busy = false ∧ ∃ x rest, s.inputs = x :: rest ∧ takeInput x { s with inputs := rest } = .next t) := by
  obtain hb | hb := Bool.eq_false_or_eq_true s.busy
  · exact .inl ⟨hb, (step_busy hb).symm.trans h⟩
  by_cases hi : s.inputs = []
  · exact .inr (.inl ⟨hb, hi, Host.Outcome.next.inj (h.symm.trans (step_sits hb hi))⟩)
  · obtain ⟨x, rest, hi⟩ := List.exists_cons_of_ne_nil hi
    exact .inr (.inr ⟨hb, x, rest, hi, (step_input hb hi).symm.trans h⟩)

/-- The micro-step SEQ names is an effect and a move of SEQ (R190). -/
theorem microStep_run {s : State} {op : Op} {u : Upc} {i : Nat} (hq : s.seq = .run op u i) (hh : Op.has op i u = true) :
    microStep s = .next (moveSeq op (Op.next op i u) (microEffect op i s u)) := by
  rw [microStep, hq]
  exact if_pos hh

theorem microStep_of_not_has {s : State} {op : Op} {u : Upc} {i : Nat} (hq : s.seq = .run op u i)
    (hh : Op.has op i u = false) : microStep s = .fault .noMicroStep := by
  rw [microStep, hq]
  exact if_neg (by simp [hh])

theorem microStep_of_idle {s : State} (hq : s.seq = .idle) : microStep s = .fault .noMicroStep := by
  rw [microStep, hq]

theorem microStep_cases {s t : State} (h : microStep s = .next t) :
    ∃ op u i, s.seq = .run op u i ∧ Op.has op i u = true ∧
      t = moveSeq op (Op.next op i u) (microEffect op i s u) := by
  cases hq : s.seq with
  | idle => exact nomatch (microStep_of_idle hq).symm.trans h
  | run op u i =>
    cases hh : Op.has op i u with
    | false => exact nomatch (microStep_of_not_has hq hh).symm.trans h
    | true =>
      have ht := (microStep_run hq hh).symm.trans h
      cases ht
      exact ⟨op, u, i, rfl, hh, rfl⟩

/-- The port drops a word or runs the operation it selects to its end (R95, R196). -/
theorem takeWord_cases (w : CmdWord) (s : State) :
    (∃ r, takeWord w s = .next (dropWord r s)) ∨
      ∃ i, decode w = .ok i ∧ refusedWhen s.own i.op = none ∧
        takeWord w s = .next (operate (opBody i) (latchWord w s)) := by
  cases hd : decode w with
  | error e => exact .inl ⟨_, takeWord_of_error hd s⟩
  | ok i =>
    cases hr : refusedWhen s.own i.op with
    | some r => exact .inl ⟨r, takeWord_of_refused hd hr⟩
    | none => exact .inr ⟨i, rfl, hr, takeWord_of_accepted hd hr⟩

/-- An operation that completes was accepted, and is its body from its start to its end (R196). -/
theorem exec_next {i : Instr} {s t : State} (h : exec i s = .next t) :
    refusedWhen s.own i.op = none ∧ t = operate (opBody i) s := by
  cases hr : refusedWhen s.own i.op with
  | some r => exact nomatch (exec_of_refused hr).symm.trans h
  | none =>
    have ht := (exec_of_accepted hr).symm.trans h
    cases ht
    exact ⟨rfl, rfl⟩

section

variable (b : Bool) (q : Seq) (s : State)

@[simp] theorem relabel_pins : (relabel b q s).pins = s.pins := rfl
@[simp] theorem relabel_own : (relabel b q s).own = s.own := rfl
@[simp] theorem relabel_busy : (relabel b q s).busy = b := rfl
@[simp] theorem relabel_seq : (relabel b q s).seq = q := rfl
@[simp] theorem relabel_pbuf : (relabel b q s).pbuf = s.pbuf := rfl
@[simp] theorem relabel_trace : (relabel b q s).trace = s.trace := rfl
@[simp] theorem relabel_chip : (relabel b q s).chip = s.chip := rfl
@[simp] theorem relabel_params : (relabel b q s).params = s.params := rfl

end

/-- The move of SEQ changes BUSY and SEQ only (R190). -/
theorem moveSeq_relabels (op : Op) (nxt : Option (Upc × Nat)) (s : State) :
    ∃ b q, moveSeq op nxt s = relabel b q s := by
  cases nxt with
  | none => exact ⟨false, .idle, rfl⟩
  | some x => exact ⟨s.busy, .run op x.1 x.2, rfl⟩

/-- The elementary changes a step is made of: those of the port and of the outside, and the effects of micro-steps. -/
inductive Move (s : State) : State → Prop
  | relabel (b : Bool) (q : Seq) : Move s (relabel b q s)
  | latch (w : CmdWord) : Move s (latchWord w s)
  | inputs (l : List Input) : Move s { s with inputs := l }
  | drop (r : Refusal) : Move s (dropWord r s)
  | own (o : Own) : Move s { s with own := o }
  | master (a : Addr) (d : Option Byte) (ce : Level) : Move s (masterMove a d ce s)
  | masterSample : Move s (masterSample s)
  | pass (d : Nat) : Move s (pass d s)
  | pins (f : Pins → Pins) : Move s (pinUpdate f s)
  | delay (k : DelayKind) : Move s (delay k (delayBounds s.params k).2 s)
  | sample : Move s (sample s)
  | emit : Move s (emit s)
  | load (idx : BufIdx) (data : Byte) : Move s (bufLoad idx data s)
  | clear : Move s (bufClear s)

/-- A row of elementary changes. -/
abbrev Moves : State → State → Prop := Relation.ReflTransGen Move

/-- What every elementary change keeps, a row of them keeps. -/
theorem Moves.keeps {P : State → Prop} (hmove : ∀ u v, Move u v → P u → P v) {s t : State} (h : Moves s t) (hs : P s) :
    P t := by
  induction h with
  | refl => exact hs
  | tail _ hlast ih => exact hmove _ _ hlast ih

theorem stepW_move (a : Addr) (d : Byte) (s : State) (w : WStep) : Move s (stepW a d s w) := by
  cases w with
  | w1 | w2 | w4 =>
    simp only [stepW, stepW1, stepW2, stepW4]
    exact .pins _
  | w3 => exact .delay .writePulse
  | w5 => exact .delay .writeRecovery

theorem stepR_move (a : Addr) (s : State) (r : RStep) : Move s (stepR a s r) := by
  cases r with
  | r1 | r2 | r5 | r6 =>
    simp only [stepR, stepR1, stepR2, stepR5, stepR6]
    exact .pins _
  | r3 => exact .delay .readSettle
  | r4 => exact .sample

theorem stepC1_moves (s : State) : Moves s (stepC1 s) := (Relation.ReflTransGen.single (.pins _)).tail (.own .ctrl)

theorem stepL5_moves (s : State) : Moves s (stepL5 s) := (Relation.ReflTransGen.single (.pins _)).tail (.own .ext)

theorem microEffect_moves (op : Op) (i : Nat) (s : State) (u : Upc) : Moves s (microEffect op i s u) := by
  cases u with
  | c1 => exact stepC1_moves s
  | l5 => exact stepL5_moves s
  | cmd _ w | load w => exact .single (stepW_move _ _ s w)
  | read r => exact .single (stepR_move _ s r)
  | progWait => exact .single (.delay .program)
  | eraseWait => exact .single (.delay .erase)
  | emit => exact .single .emit
  | pbload => exact .single (.load _ _)
  | pbclr => exact .single .clear
  | loadNext => exact .single (stepW_move _ _ s .w1)
  | c2 | c3 | c4 | b1 | b2 | l1 | l2 | l3 | l4 =>
    simp only [microEffect, stepC2, stepC3, stepC4, setBusOut, setBusRel, stepL1, stepL2, stepL3, stepL4]
    exact .single (.pins _)

theorem microStep_moves {s t : State} (h : microStep s = .next t) : Moves s t := by
  obtain ⟨op, u, i, -, -, rfl⟩ := microStep_cases h
  obtain ⟨b, q, hm⟩ := moveSeq_relabels op (Op.next op i u) (microEffect op i s u)
  rw [hm]
  exact (microEffect_moves op i s u).tail (.relabel b q)

theorem captureBus_moves (s : State) : Moves s (captureBus s) :=
  (((stepC1_moves s).tail (.pins _)).tail (.pins _)).tail (.pins _)

theorem releaseBus_moves (s : State) : Moves s (releaseBus s) :=
  ((((Relation.ReflTransGen.single (.pins _)).tail (.pins _)).tail (.pins _)).tail (.pins _)).trans (stepL5_moves _)

theorem writeByte_moves (a : Addr) (d : Byte) (s : State) : Moves s (writeByte a d s) :=
  ((((Relation.ReflTransGen.single (stepW_move a d s .w1)).tail (stepW_move a d _ .w2)).tail
    (stepW_move a d _ .w3)).tail (stepW_move a d _ .w4)).tail (stepW_move a d _ .w5)

theorem readEmit_moves (a : Addr) (s : State) : Moves s (readEmit a s) :=
  ((((((Relation.ReflTransGen.single (stepR_move a s .r1)).tail (stepR_move a _ .r2)).tail
    (stepR_move a _ .r3)).tail (stepR_move a _ .r4)).tail (stepR_move a _ .r5)).tail (stepR_move a _ .r6)).tail .emit

theorem writeAll_moves : ∀ (l : List (Addr × Byte)) (s : State), Moves s (writeAll l s)
  | [], _ => .refl
  | x :: rest, s => (writeByte_moves x.1 x.2 s).trans (writeAll_moves rest _)

/-- The ports out, a list of writes, a wait, the ports released (R162, R163). -/
theorem writesThenWait_moves {wait : State → State} (h : ∀ u, Move u (wait u)) (l : List (Addr × Byte)) (s : State) :
    Moves s (setBusRel (wait (writeAll l (setBusOut s)))) :=
  (((Relation.ReflTransGen.single (.pins _)).trans (writeAll_moves l (setBusOut s))).tail (h _)).tail (.pins _)

theorem writePage_moves (base : Addr) (s : State) : Moves s (writePage base s) := by
  rw [writePage_eq]
  exact writesThenWait_moves (wait := stepProgWait) (fun _ => .delay .program) (pageWriteCycles base s.pbuf) s

theorem eraseChip_moves (s : State) : Moves s (eraseChip s) :=
  writesThenWait_moves (fun _ => .delay .erase) eraseWriteCycles s

theorem rounds_moves {f : Nat → State → State} (h : ∀ i s, Moves s (f i s)) :
    ∀ (k : Nat) (s : State), Moves s (rounds f k s)
  | 0, _ => .refl
  | k + 1, s => (rounds_moves h k s).trans (h k _)

theorem readPage_moves (base : Addr) (s : State) : Moves s (readPage base s) :=
  rounds_moves (fun _ s => readEmit_moves _ s) pageSize s

theorem inWindow_moves {inner : State → State} (h : ∀ u, Moves u (inner u)) (s : State) : Moves s (inWindow inner s) :=
  ((captureBus_moves s).trans (h _)).trans (releaseBus_moves _)

theorem opBody_moves (i : Instr) (s : State) : Moves s (opBody i s) := by
  cases i with
  | capture => exact captureBus_moves s
  | release => exact releaseBus_moves s
  | rdbyte addr => exact readEmit_moves addr s
  | rdpage base => exact readPage_moves base s
  | wrpage base => exact writePage_moves base s
  | erase => exact eraseChip_moves s
  | pbload idx data => exact .single (.load idx data)
  | pbclr => exact .single .clear
  | cmdw page => exact inWindow_moves (writePage_moves (pageBase page)) s
  | cmdd page => exact inWindow_moves (readPage_moves (pageBase page)) s
  | cmde => exact inWindow_moves eraseChip_moves s

theorem operate_moves (i : Instr) (s : State) : Moves s (operate (opBody i) s) :=
  ((Relation.ReflTransGen.single (.relabel true s.seq)).trans (opBody_moves i (begin s))).tail (.relabel false .idle)

theorem takeInput_moves {x : Input} {s t : State} (h : takeInput x s = .next t) : Moves s t := by
  cases x with
  | word w =>
    obtain ⟨r, hw⟩ | ⟨i, -, -, hw⟩ := takeWord_cases w s
    · cases hw.symm.trans h
      exact .single (.drop r)
    · cases hw.symm.trans h
      exact (Relation.ReflTransGen.single (.latch w)).trans (operate_moves i _)
  | idle ns =>
    cases h
    exact .single (.pass ns)
  | master a d ce =>
    cases h
    exact .single (.master a d ce)
  | masterSample =>
    cases h
    exact .single .masterSample

/-- Every step is a row of elementary changes. -/
theorem step_moves {s t : State} (h : step s = .next t) : Moves s t := by
  obtain ⟨-, hm⟩ | ⟨-, -, rfl⟩ | ⟨-, x, rest, -, hx⟩ := step_cases h
  · exact microStep_moves hm
  · exact .refl
  · exact (Relation.ReflTransGen.single (.inputs rest)).trans (takeInput_moves hx)

theorem exec_moves {i : Instr} {s t : State} (h : exec i s = .next t) : Moves s t := by
  obtain ⟨-, rfl⟩ := exec_next h
  exact operate_moves i s

/-! ### The moves of the external master (R72) -/

theorem masterMove_ext {s : State} (h : s.own = .ext) (a : Addr) (d : Option Byte) (ce : Level) :
    masterMove a d ce s =
      { s with
        master := ⟨a, d, ce, s.master.seen⟩
        access := readNext s s.pins ⟨a, d, ce, s.master.seen⟩ s.now s.chip } := by
  rw [masterMove, h]

theorem masterMove_ctrl {s : State} (h : s.own = .ctrl) (a : Addr) (d : Option Byte) (ce : Level) :
    masterMove a d ce s = s := by
  rw [masterMove, h]

theorem masterSample_ext {s : State} (h : s.own = .ext) :
    masterSample s =
      { s with
        master := { s.master with seen := s.master.seen ++ [dataLines s s.draws] }
        draws := s.draws + 1 } := by
  rw [masterSample, h]

theorem masterSample_ctrl {s : State} (h : s.own = .ctrl) : masterSample s = s := by
  rw [masterSample, h]

theorem Own.eq_ext_or_eq_ctrl (o : Own) : o = .ext ∨ o = .ctrl := by
  cases o <;> simp

/-- A move of the external master changes its lines and the read cycle in progress, and nothing else. -/
theorem masterMove_changes (a : Addr) (d : Option Byte) (ce : Level) (s : State) :
    ∃ m r, masterMove a d ce s = { s with master := m, access := r } := by
  obtain h | h := s.own.eq_ext_or_eq_ctrl
  · exact ⟨_, _, masterMove_ext h a d ce⟩
  · exact ⟨s.master, s.access, masterMove_ctrl h a d ce⟩

/-- What the external master takes changes what it has seen, and a free value is drawn. -/
theorem masterSample_changes (s : State) :
    ∃ l n, masterSample s = { s with master := { s.master with seen := l }, draws := n } := by
  obtain h | h := s.own.eq_ext_or_eq_ctrl
  · exact ⟨_, _, masterSample_ext h⟩
  · exact ⟨s.master.seen, s.draws, masterSample_ctrl h⟩

/-! ### The cells keep their canonical form (R50) -/

/-- The cells of a state are in canonical form. -/
def Canonical (s : State) : Prop := Memory.wf s.params s.chip.flash = true

theorem pass_canonical (d : Nat) {s : State} (h : Canonical s) : Canonical (pass d s) := wf_chipElapse _ _ h

theorem Move.canonical (u v : State) (h : Move u v) (hu : Canonical u) : Canonical v := by
  cases h with
  | relabel | latch | inputs | drop | own => exact hu
  | master a d ce =>
    obtain ⟨m, r, he⟩ := masterMove_changes a d ce u
    rw [he]
    exact hu
  | masterSample =>
    obtain ⟨l, n, he⟩ := masterSample_changes u
    rw [he]
    exact hu
  | pins f => exact wf_chipSees _ _ _ _ (pass_canonical _ hu)
  | pass | delay | sample | emit | load | clear => exact pass_canonical _ hu

/-- Settles O40: every elementary change keeps the cells canonical. -/
theorem stepKeepsMemoryCanonical : Obligations.StepKeepsMemoryCanonical := by
  unfold Obligations.StepKeepsMemoryCanonical
  exact fun s t hs h => (step_moves h).keeps Move.canonical hs

/-- Settles O41: no cell is listed at reset. -/
theorem resetMemoryCanonical : Obligations.ResetMemoryCanonical := by
  unfold Obligations.ResetMemoryCanonical
  rfl

/-! ### The read cycle in progress follows the lines (R61) -/

theorem masterMove_follows {s : State} (h : AccessFollowsLines s) (a : Addr) (d : Option Byte) (ce : Level) :
    AccessFollowsLines (masterMove a d ce s) := by
  cases hown : s.own with
  | ctrl => rwa [masterMove_ctrl hown]
  | ext =>
    rw [masterMove_ext hown]
    exact readNext_follows h (le_refl _) rfl

theorem Move.follows (u v : State) (h : Move u v) (hu : AccessFollowsLines u) : AccessFollowsLines v := by
  cases h with
  | relabel | latch | inputs | drop | own => exact hu
  | master a d ce => exact masterMove_follows hu a d ce
  | masterSample =>
    obtain ⟨l, n, he⟩ := masterSample_changes u
    rw [he]
    exact follows_of_lines hu rfl rfl ⟨rfl, rfl⟩ (le_refl _)
  | pins f => exact pinUpdate_follows f hu
  | pass | delay | sample | emit | load | clear => exact pass_follows _ hu

/-- Settles O57: every elementary change keeps the read cycle in progress the one the lines assert. -/
theorem stepKeepsAccessFollowingLines : Obligations.StepKeepsAccessFollowingLines := by
  unfold Obligations.StepKeepsAccessFollowingLines
  exact fun s t hs h => (step_moves h).keeps Move.follows hs

/-- Settles O58: the external master's chip enable is high at reset, so the lines assert no read. -/
theorem resetAccessFollowsLines : Obligations.ResetAccessFollowsLines := by
  unfold Obligations.ResetAccessFollowsLines
  exact fun p f => .inl rfl

/-! ### The parameters are constants (R6) -/

theorem Move.params (u v : State) (h : Move u v) : v.params = u.params := by
  cases h with
  | master a d ce =>
    obtain ⟨m, r, he⟩ := masterMove_changes a d ce u
    rw [he]
  | masterSample =>
    obtain ⟨l, n, he⟩ := masterSample_changes u
    rw [he]
  | relabel | latch | inputs | drop | own | pins | pass | delay | sample | emit | load | clear => rfl

/-- Settles O42: no elementary change writes the parameters; those of reset are numbers. -/
theorem parametersAreConstant : Obligations.ParametersAreConstant := by
  unfold Obligations.ParametersAreConstant
  refine ⟨fun s t h => ?_, by decide, by decide⟩
  exact (step_moves h).keeps (P := fun u => u.params = s.params) (fun u v hm hu => (hm.params u v).trans hu) rfl

/-! ### What is only appended to (R11, R13, R33) -/

/-- The records of `s` are prefixes of those of `t`, and no time is lost. -/
def RecordsGrow (s t : State) : Prop :=
  s.rsp <+: t.rsp ∧ s.trace <+: t.trace ∧ s.marks <+: t.marks ∧ s.now ≤ t.now

theorem RecordsGrow.refl (s : State) : RecordsGrow s s :=
  ⟨List.prefix_refl _, List.prefix_refl _, List.prefix_refl _, le_refl _⟩

theorem RecordsGrow.trans {s t u : State} (h1 : RecordsGrow s t) (h2 : RecordsGrow t u) : RecordsGrow s u := by
  obtain ⟨r1, t1, m1, n1⟩ := h1
  obtain ⟨r2, t2, m2, n2⟩ := h2
  exact ⟨r1.trans r2, t1.trans t2, m1.trans m2, n1.trans n2⟩

theorem Move.recordsGrow (u v : State) (h : Move u v) : RecordsGrow u v := by
  cases h with
  | relabel | latch | inputs | own => exact .refl u
  | drop r => exact ⟨List.prefix_refl _, List.prefix_refl _, List.prefix_append _ _, le_refl _⟩
  | master a d ce =>
    obtain ⟨m, r, he⟩ := masterMove_changes a d ce u
    rw [he]
    exact .refl u
  | masterSample =>
    obtain ⟨l, n, he⟩ := masterSample_changes u
    rw [he]
    exact .refl u
  | pins f => exact ⟨List.prefix_refl _, List.prefix_append _ _, List.prefix_append _ _, Nat.le_add_right _ _⟩
  | delay | sample => exact ⟨List.prefix_refl _, List.prefix_append _ _, List.prefix_refl _, Nat.le_add_right _ _⟩
  | emit => exact ⟨List.prefix_append _ _, List.prefix_refl _, List.prefix_refl _, Nat.le_add_right _ _⟩
  | pass | load | clear => exact ⟨List.prefix_refl _, List.prefix_refl _, List.prefix_refl _, Nat.le_add_right _ _⟩

/-- Settles O44: every elementary change appends to the records or leaves them. -/
theorem recordsOnlyGrow : Obligations.RecordsOnlyGrow := by
  unfold Obligations.RecordsOnlyGrow
  intro s t h
  obtain ⟨⟨r, hr⟩, ⟨e, he⟩, ⟨m, hm⟩, hnow⟩ := (step_moves h).keeps (P := RecordsGrow s)
    (fun u v hm hu => hu.trans (hm.recordsGrow u v)) (.refl s)
  exact ⟨⟨r, hr.symm⟩, ⟨e, he.symm⟩, ⟨m, hm.symm⟩, hnow⟩

/-! ### The delays of the trace (R11, R13), and the delay timer (R34) -/

/-- What an elementary change adds to the trace: nothing, with DLY as it was; a snapshot or a sample, likewise; or a delay of its
parameter and at most `T_STEP_MAX` more, which DLY then holds. -/
theorem Move.trace (u v : State) (h : Move u v) :
    ∃ e, v.trace = u.trace ++ e ∧
      ((delays e = [] ∧ v.dly = u.dly) ∨
        ∃ k d, delays e = [(k, d)] ∧ v.dly = d ∧ (delayBounds u.params k).2 ≤ d ∧
          d ≤ (delayBounds u.params k).2 + u.params.stepMax) := by
  cases h with
  | master a d ce =>
    obtain ⟨m, r, he⟩ := masterMove_changes a d ce u
    rw [he]
    exact ⟨[], (List.append_nil _).symm, .inl ⟨rfl, rfl⟩⟩
  | masterSample =>
    obtain ⟨l, n, he⟩ := masterSample_changes u
    rw [he]
    exact ⟨[], (List.append_nil _).symm, .inl ⟨rfl, rfl⟩⟩
  | pins | sample => exact ⟨_, rfl, .inl ⟨rfl, rfl⟩⟩
  | delay k =>
    exact ⟨_, rfl, .inr ⟨k, _, rfl, rfl, Nat.le_add_right _ _, Nat.add_le_add_left (slack_le _ _) _⟩⟩
  | relabel | latch | inputs | drop | own | pass | emit | load | clear =>
    exact ⟨[], (List.append_nil _).symm, .inl ⟨rfl, rfl⟩⟩

/-- From `s` to `t` the trace got entries whose delays keep within the parameters and one overshoot (R11). -/
def DelaysWithin (s t : State) : Prop :=
  t.params = s.params ∧ ∃ e, t.trace = s.trace ++ e ∧ ∀ k d, (k, d) ∈ delays e →
    (delayBounds s.params k).2 ≤ d ∧ d ≤ (delayBounds s.params k).2 + s.params.stepMax

theorem DelaysWithin.move {s u v : State} (h : DelaysWithin s u) (hm : Move u v) : DelaysWithin s v := by
  obtain ⟨hp, e, he, hd⟩ := h
  obtain ⟨e', he', hnew⟩ := hm.trace u v
  refine ⟨(hm.params u v).trans hp, e ++ e', by rw [he', he, List.append_assoc], fun k d hkd => ?_⟩
  rw [delays_append, List.mem_append] at hkd
  rcases hkd with hkd | hkd
  · exact hd k d hkd
  · rw [hp] at hnew
    obtain ⟨hnil, -⟩ | ⟨k', d', hone, -, hlo, hhi⟩ := hnew
    · simp [hnil] at hkd
    · rw [hone, List.mem_singleton] at hkd
      cases hkd
      exact ⟨hlo, hhi⟩

/-- Under the constraints of R6 every parameter is at least the source's floor. -/
theorem delayBounds_floor {p : Params} (hp : p.Legal) (k : DelayKind) : (delayBounds p k).1 ≤ (delayBounds p k).2 := by
  obtain ⟨hwp, hrec, hsettle, hprog, herase, -⟩ := hp
  cases k with
  | writePulse => exact hwp
  | writeRecovery => exact hrec
  | readSettle => exact hsettle
  | program => exact hprog
  | erase => exact herase

/-- Settles O46: every delay a step appends is that of an elementary change, and the floors are those of the parameters. -/
theorem delaysKeepTheirFloors : Obligations.DelaysKeepTheirFloors := by
  unfold Obligations.DelaysKeepTheirFloors
  intro s t hp h
  obtain ⟨-, e, he, hd⟩ := (step_moves h).keeps (P := DelaysWithin s) (fun u v hm hu => hu.move hm)
    ⟨rfl, [], (List.append_nil _).symm, by simp [delays]⟩
  refine ⟨e, he, fun k d hkd => ?_⟩
  obtain ⟨hlo, hhi⟩ := hd k d hkd
  exact ⟨(delayBounds_floor hp k).trans hlo, hlo, hhi⟩

/-- DLY in `t` is the last delay the trace got since `s`, and as in `s` where it got none. -/
def DlyIsLast (s t : State) : Prop :=
  ∃ e, t.trace = s.trace ++ e ∧ t.dly = ((delays e).getLast?.map Prod.snd).getD s.dly

theorem DlyIsLast.move {s u v : State} (h : DlyIsLast s u) (hm : Move u v) : DlyIsLast s v := by
  obtain ⟨e, he, hd⟩ := h
  obtain ⟨e', he', hnew⟩ := hm.trace u v
  refine ⟨e ++ e', by rw [he', he, List.append_assoc], ?_⟩
  rw [delays_append]
  obtain ⟨hnil, hdly⟩ | ⟨k, d, hone, hdly, -⟩ := hnew
  · rw [hnil, List.append_nil, hdly, hd]
  · simp [hone, hdly]

/-- Settles O59: every elementary change keeps DLY the last delay of the trace. -/
theorem delayTimerHoldsTheLastDelay : Obligations.DelayTimerHoldsTheLastDelay := by
  unfold Obligations.DelayTimerHoldsTheLastDelay
  intro s t i h
  exact (exec_moves h).keeps (P := DlyIsLast s) (fun u v hm hu => hu.move hm) ⟨[], (List.append_nil _).symm, rfl⟩

end Sys2Proof.Machine
end

section

namespace Sys2Proof.Machine

open Sys2Proof.Safety

/-! ### Runs of micro-steps: where the operation stands after each of its procedures (R120 to R193) -/

/-- The busy state at the micro-step and counter a move of SEQ names, or the idle state after the last one (R190). -/
def arrive (op : Op) (nxt : Option (Upc × Nat)) (s : State) : State :=
  match nxt with
  | some x => atStep op x.1 x.2 s
  | none => relabel false .idle s

/-- One micro-step: its effect, and the move of SEQ (R190). -/
theorem reach_micro {op : Op} {u : Upc} {i : Nat} (hh : Op.has op i u = true) (s : State) :
    Reach 1 (atStep op u i s) (arrive op (Op.next op i u) (microEffect op i s u)) := by
  cases hn : Op.next op i u with
  | none => exact reach_last hh hn s
  | some x => exact reach_step hh hn s

/-- A capture inside an operation (R120). -/
theorem reach_capture {op : Op} (hop : (decide (op = .capture) || Op.composite op) = true) (i : Nat) (s : State) :
    Reach 4 (atStep op .c1 i s) (arrive op ((Op.afterCapture op).map (·, 0)) (captureBus s)) :=
  (((reach_micro (u := .c1) hop s).trans (reach_micro (u := .c2) hop _)).trans
    (reach_micro (u := .c3) hop _)).trans (reach_micro (u := .c4) hop _)

/-- A release, with which the operation ends (R121). -/
theorem reach_release {op : Op} (hop : (decide (op = .release) || Op.composite op) = true) (i : Nat) (s : State) :
    Reach 5 (atStep op .l1 i s) (relabel false .idle (releaseBus s)) :=
  ((((reach_micro (u := .l1) hop s).trans (reach_micro (u := .l2) hop _)).trans (reach_micro (u := .l3) hop _)).trans
    (reach_micro (u := .l4) hop _)).trans (reach_micro (u := .l5) hop _)

/-- The `k`-th command write of an operation (R161). -/
theorem reach_cmdWrite {op : Op} {k : Nat} (hk : k < (cmdTable op).length) (i : Nat) (s : State) :
    Reach 5 (atStep op (.cmd k .w1) i s)
      (arrive op (Op.next op i (.cmd k .w5)) (writeByte (cmdWrite op k).1 (cmdWrite op k).2 s)) :=
  have hh (w : WStep) : Op.has op i (.cmd k w) = true := decide_eq_true hk
  ((((reach_micro (hh .w1) s).trans (reach_micro (hh .w2) _)).trans (reach_micro (hh .w3) _)).trans
    (reach_micro (hh .w4) _)).trans (reach_micro (hh .w5) _)

/-- The command writes of an operation from the `k`-th on; the wait of an erase or the load loop follows (R162, R163). -/
theorem reach_cmdWrites {op : Op} (i : Nat) : ∀ (l : List (Addr × Byte)) (k : Nat) (s : State),
    (cmdTable op).drop k = l → l ≠ [] →
      Reach (l.length * 5) (atStep op (.cmd k .w1) i s)
        (arrive op (if Op.erases op then some (.eraseWait, i) else some (.load .w1, 0)) (writeAll l s))
  | [], _, _, _, hne => absurd rfl hne
  | x :: rest, k, s, hl, _ => by
    have hk : k < (cmdTable op).length := by
      rw [← Nat.not_le, ← List.drop_eq_nil_iff, hl]
      exact List.cons_ne_nil x rest
    have hx : cmdWrite op k = x := by
      rw [cmdWrite, List.getD_eq_getElem?_getD, ← List.head?_drop, hl]
      rfl
    have hrest : (cmdTable op).drop (k + 1) = rest := by rw [← List.tail_drop, hl, List.tail_cons]
    have hfirst := reach_cmdWrite hk i s
    rw [hx] at hfirst
    rw [writeAll, List.length_cons, Nat.succ_mul, Nat.add_comm]
    cases rest with
    | nil =>
      have hlast : ¬ k + 1 < (cmdTable op).length := by
        rw [Nat.not_lt, ← List.drop_eq_nil_iff, hrest]
      rwa [Op.next, if_neg hlast] at hfirst
    | cons y rest =>
      have hmore : k + 1 < (cmdTable op).length := by
        rw [← Nat.not_le, ← List.drop_eq_nil_iff, hrest]
        exact List.cons_ne_nil y rest
      rw [Op.next, if_pos hmore] at hfirst
      exact hfirst.trans (reach_cmdWrites i (y :: rest) (k + 1) _ hrest (List.cons_ne_nil y rest))

/-- W2 to W5 of the load of byte `i` (R142, R162). -/
theorem reach_loadTail {op : Op} (hop : Op.writesPage op = true) {i : Nat} (hi : i < pageSize) (s : State) :
    Reach 4 (atStep op (.load .w2) i s)
      (arrive op (Op.next op i (.load .w5)) (stepW5 (stepW4 (stepW3 (stepW2 s))))) :=
  have hh : (Op.writesPage op && decide (i < pageSize)) = true := by simp [hop, hi]
  (((reach_micro (u := .load .w2) hh s).trans (reach_micro (u := .load .w3) hh _)).trans
    (reach_micro (u := .load .w4) hh _)).trans (reach_micro (u := .load .w5) hh _)

theorem rounds_loadByte_context (base : Addr) (k : Nat) (s : State) : SameContext s (rounds (loadByte base) k s) :=
  rounds_context (fun _ u => writeByte_context _ _ u) k s

/-- The first `k + 1` rounds of the load loop; from the second on the counter advances in W1 (R162). -/
theorem reach_loads {op : Op} (hop : Op.writesPage op = true) (s : State) : ∀ k, k < pageSize →
    Reach ((k + 1) * 5) (atStep op (.load .w1) 0 s)
      (arrive op (Op.next op k (.load .w5)) (rounds (loadByte (latchBase op s)) (k + 1) s))
  | 0, _ =>
    have hh : Op.has op 0 (.load .w1) = true := by simp [Op.has, hop]
    (reach_micro hh s).trans (reach_loadTail hop (by decide) _)
  | k + 1, hk => by
    have ih := reach_loads hop s k (by omega)
    have hcontext := rounds_loadByte_context (latchBase op s) (k + 1) s
    rw [Op.next, if_pos hk] at ih
    rw [rounds, Nat.succ_mul]
    generalize rounds (loadByte (latchBase op s)) (k + 1) s = v at *
    have hbase : latchBase op v = latchBase op s := by rw [latchBase, latchBase, hcontext.aReg]
    have hh : Op.has op k .loadNext = true := by simp [Op.has, hop, hk]
    rw [← hbase]
    exact ih.trans ((reach_micro hh v).trans (reach_loadTail hop hk _))

/-- A read and the emit of its byte (R143, R144). -/
theorem reach_readEmit {op : Op} {i : Nat} (hi : i < Op.readCount op) (s : State) :
    Reach 7 (atStep op (.read .r1) i s)
      (arrive op (Op.next op i .emit) (readEmit (addrAt (latchBase op s) i) s)) :=
  have hh (r : RStep) : Op.has op i (.read r) = true := decide_eq_true hi
  have he : Op.has op i .emit = true := decide_eq_true hi
  ((((((reach_micro (hh .r1) s).trans (reach_micro (hh .r2) _)).trans (reach_micro (hh .r3) _)).trans
    (reach_micro (hh .r4) _)).trans (reach_micro (hh .r5) _)).trans (reach_micro (hh .r6) _)).trans (reach_micro he _)

/-- The first `k + 1` rounds of the read loop (R164). -/
theorem reach_reads {op : Op} (s : State) : ∀ k, k < Op.readCount op →
    Reach ((k + 1) * 7) (atStep op (.read .r1) 0 s)
      (arrive op (Op.next op k .emit) (readAll (latchBase op s) (k + 1) s))
  | 0, hk => reach_readEmit hk s
  | k + 1, hk => by
    have ih := reach_reads (op := op) s k (by omega)
    have hcontext := readAll_context (latchBase op s) (k + 1) s
    rw [Op.next, if_pos hk] at ih
    rw [readAll, rounds, Nat.succ_mul, ← readAll]
    generalize readAll (latchBase op s) (k + 1) s = v at *
    have hbase : latchBase op v = latchBase op s := by rw [latchBase, latchBase, hcontext.aReg]
    rw [← hbase]
    exact ih.trans (reach_readEmit hk v)

/-- The page read of an operation (R164). -/
theorem reach_readPage {op : Op} (hop : Op.readCount op = pageSize) {s : State} {base : Addr}
    (hbase : latchBase op s = base) :
    Reach 896 (atStep op (.read .r1) 0 s) (arrive op ((Op.afterInner op).map (·, pageSize)) (readPage base s)) := by
  have hlast : 127 < Op.readCount op := by
    rw [hop]
    decide
  have hreads := reach_reads s 127 hlast
  rw [Op.next, if_neg (by rw [hop]; decide)] at hreads
  rw [readPage_eq, ← hbase]
  exact hreads

/-- The page write of an operation, from B1 to B2 (R162). -/
theorem reach_writePage {op : Op} (hop : Op.writesPage op = true) (i : Nat) {s : State} {base : Addr}
    (hbase : latchBase op s = base) :
    Reach 658 (atStep op .b1 i s) (arrive op ((Op.afterInner op).map (·, pageSize)) (writePage base s)) := by
  have hb : (Op.writesPage op || Op.erases op) = true := by simp [hop]
  have htable : cmdTable op = cmdBytes cmdPageLoad ∧ Op.erases op = false := by
    cases op <;> first | exact ⟨rfl, rfl⟩ | cases hop
  have hcmds := reach_cmdWrites (op := op) 0 (cmdBytes cmdPageLoad) 0 (setBusOut s) htable.1 (List.cons_ne_nil _ _)
  rw [htable.2] at hcmds
  have hbase : latchBase op (writeAll (cmdBytes cmdPageLoad) (setBusOut s)) = base := by
    rw [← hbase, latchBase, latchBase, (writeAll_context _ _).aReg]
    rfl
  have hloads := reach_loads hop (writeAll (cmdBytes cmdPageLoad) (setBusOut s)) 127 (by decide)
  rw [hbase] at hloads
  exact ((reach_micro (u := .b1) hb s).trans (hcmds.trans hloads)).trans
    ((reach_micro (u := .progWait) hop _).trans (reach_micro (u := .b2) hb _))

/-- The chip erase of an operation, from B1 to B2 (R163). -/
theorem reach_eraseChip {op : Op} (hop : Op.erases op = true) (i : Nat) (s : State) :
    Reach 33 (atStep op .b1 i s) (arrive op ((Op.afterInner op).map (·, 0)) (eraseChip s)) := by
  have hb : (Op.writesPage op || Op.erases op) = true := by simp [hop]
  have htable : cmdTable op = eraseWriteCycles := by
    cases op <;> first | rfl | cases hop
  have hcmds := reach_cmdWrites (op := op) 0 eraseWriteCycles 0 (setBusOut s) htable (List.cons_ne_nil _ _)
  rw [hop] at hcmds
  exact ((reach_micro (u := .b1) hb s).trans hcmds).trans
    ((reach_micro (u := .eraseWait) hop _).trans (reach_micro (u := .b2) hb _))

/-! ### The micro-steps of an operation are its body (R190) -/

theorem blind_opBody (i : Instr) : Blind (opBody i) := by
  cases i with
  | capture => exact blind_captureBus
  | release => exact blind_releaseBus
  | rdbyte addr => exact blind_readEmit addr
  | rdpage base => exact blind_readPage base
  | wrpage base => exact blind_writePage base
  | erase => exact blind_eraseChip
  | pbload idx data => exact blind_bufLoad idx data
  | pbclr => exact blind_bufClear
  | cmdw page => exact blind_inWindow (blind_writePage _)
  | cmdd page => exact blind_inWindow (blind_readPage _)
  | cmde => exact blind_inWindow blind_eraseChip

/-- A composite operation is a capture, its inner operation and a release (R191 to R193). -/
theorem reach_inWindow {op : Op} (hop : Op.composite op = true) {u : Upc} (hu : Op.afterCapture op = some u) {n j : Nat}
    {inner : State → State} (s : State)
    (hinner : Reach n (atStep op u 0 (captureBus s)) (arrive op ((Op.afterInner op).map (·, j)) (inner (captureBus s)))) :
    Reach (4 + n + 5) (atStep op .c1 0 s) (relabel false .idle (inWindow inner s)) := by
  have hcapture := reach_capture (op := op) (by simp [hop]) 0 s
  rw [hu] at hcapture
  rw [Op.afterInner, if_pos hop] at hinner
  exact (hcapture.trans hinner).trans (reach_release (by simp [hop]) j _)

theorem extractLsb'_setWidth {n k m : Nat} (h : n = k + m) (x : BitVec k) : (x.setWidth n).extractLsb' 0 k = x :=
  ((eq_setWidth_iff h _ x).mp rfl).2

/-- The latch holds the operands of an instruction (R31, R91). -/
def Latched (i : Instr) (s : State) : Prop :=
  (if i.op.readsA then s.aReg else 0#16) = i.encA ∧ (if i.op = .pbload then s.bReg else 0#8) = i.encB

theorem latched_of_decode {w : CmdWord} {i : Instr} (h : decode w = .ok i) {s : State} (ha : s.aReg = fieldA w)
    (hb : s.bReg = fieldB w) : Latched i s := by
  rw [Latched, ha, hb]
  exact ((and_usedBits_eq_encode_iff w i).mp (and_usedBits_of_decode h)).2

/-- The page of a composite operation, from the latch (R31, R91). -/
theorem latchBase_composite {op : Op} (hop : Op.composite op = true) {s : State} {page : PageIdx}
    (ha : s.aReg = page.setWidth 16) : latchBase op s = pageBase page := by
  rw [latchBase, if_pos hop, ha, extractLsb'_setWidth (m := 7) rfl page]

/-- The micro-steps of an operation, counted as the spec does, lead from its start to the state its body leaves. -/
theorem reach_opBody {i : Instr} {s : State} (h : Latched i s) :
    Reach (Op.microCount i.op) (startOp i.op s) (relabel false .idle (opBody i s)) := by
  rw [startOp_eq]
  obtain ⟨ha, hb⟩ := h
  cases i with
  | capture => exact reach_capture rfl 0 s
  | release => exact reach_release rfl 0 s
  | rdbyte addr =>
    obtain rfl : s.aReg = addr := ha
    have haddr : addrAt s.aReg 0 = s.aReg := by simp [addrAt]
    have hread := reach_readEmit (op := .rdbyte) (i := 0) (by decide) s
    rw [show latchBase .rdbyte s = s.aReg from rfl, haddr] at hread
    exact hread
  | rdpage base =>
    obtain rfl : s.aReg = base := ha
    exact reach_readPage (op := .rdpage) rfl rfl
  | wrpage base =>
    obtain rfl : s.aReg = base := ha
    exact reach_writePage (op := .wrpage) rfl 0 rfl
  | erase => exact reach_eraseChip (op := .erase) rfl 0 s
  | pbload idx data =>
    obtain rfl : s.bReg = data := hb
    obtain rfl : s.aReg.extractLsb' 0 7 = idx := by
      rw [show s.aReg = idx.setWidth 16 from ha]
      exact extractLsb'_setWidth (m := 9) rfl idx
    exact reach_micro (op := .pbload) (u := .pbload) rfl s
  | pbclr => exact reach_micro (op := .pbclr) (u := .pbclr) rfl s
  | cmdw page =>
    have hbase : latchBase .cmdw (captureBus s) = pageBase page := latchBase_composite rfl ha
    exact reach_inWindow (op := .cmdw) (n := 658) rfl rfl s (reach_writePage (op := .cmdw) rfl 0 hbase)
  | cmdd page =>
    have hbase : latchBase .cmdd (captureBus s) = pageBase page := latchBase_composite rfl ha
    exact reach_inWindow (op := .cmdd) (n := 896) rfl rfl s (reach_readPage (op := .cmdd) rfl hbase)
  | cmde => exact reach_inWindow (op := .cmde) (n := 33) rfl rfl s (reach_eraseChip (op := .cmde) rfl 0 (captureBus s))

/-- The micro-steps of an operation lead to the state the operation leaves as a whole. -/
theorem reach_operate {i : Instr} {s : State} (h : Latched i s) :
    Reach (Op.microCount i.op) (startOp i.op s) (operate (opBody i) s) := by
  rw [operate_eq (blind_opBody i)]
  exact reach_opBody h

/-- Settles O33: an accepted operation is its body, and its micro-steps are the body by `reach_opBody`. -/
theorem microStepsGiveExec : Obligations.MicroStepsGiveExec := by
  unfold Obligations.MicroStepsGiveExec
  intro s w i hd ha hb hr
  rw [exec_of_accepted hr]
  exact reach_operate (latched_of_decode hd ha hb)

end Sys2Proof.Machine
end

section

namespace Sys2Proof.Machine

open Sys2Proof.Safety

/-! ### The control-line FSM, micro-step by micro-step (R197) -/

/-- The pin state in which a micro-step ends (R197), given the mode. -/
def pinStateAfter (own : Own) : Upc → PinState
  | .c1 => .sCap1
  | .c2 => .sCap2
  | .c3 => .sHold
  | .c4 => .sHold
  | .b1 => .sWidle
  | .cmd _ .w1 => .sWidle
  | .cmd _ .w2 => .sWpulse
  | .cmd _ .w3 => .sWpulse
  | .cmd _ .w4 => .sWidle
  | .cmd _ .w5 => .sWidle
  | .load .w1 => .sWidle
  | .load .w2 => .sWpulse
  | .load .w3 => .sWpulse
  | .load .w4 => .sWidle
  | .load .w5 => .sWidle
  | .loadNext => .sWidle
  | .progWait => .sWidle
  | .eraseWait => .sWidle
  | .b2 => .sHold
  | .read .r1 => .sRaddr
  | .read .r2 => .sRact
  | .read .r3 => .sRact
  | .read .r4 => .sRact
  | .read .r5 => .sRaddr
  | .read .r6 => .sHold
  | .emit => .sHold
  | .l1 => .sHold
  | .l2 => .sRel2
  | .l3 => .sRel3
  | .l4 => .sRel3
  | .l5 => .sExt
  | .pbload => restState own
  | .pbclr => restState own

/-- The mode in which a micro-step ends (R122). -/
def ownAfter (own : Own) : Upc → Own
  | .c1 => .ctrl
  | .l5 => .ext
  | _ => own

/-- The pins of the FSM with the buffer off, all ports and the chip enable inputs (S_CAP1 and S_REL3 of R197). -/
def openPins (v : Level) : Pins := { releasedPins v with boe := .high }

theorem sCap1_iff (q : Pins) : PinState.sCap1.holds q = true ↔ ∃ v, q = openPins v := by
  obtain ⟨al, ah, dq, ⟨dir, val⟩, oe, we, boe⟩ := q
  simp [PinState.holds, portsReleased, openPins, releasedPins]
  tauto

theorem sRel3_iff (q : Pins) : PinState.sRel3.holds q = true ↔ ∃ v, q = openPins v := sCap1_iff q

theorem sCap2_iff (q : Pins) : PinState.sCap2.holds q = true ↔ ∃ v, q = { openPins v with ce := ⟨.out, v⟩ } := by
  obtain ⟨al, ah, dq, ⟨dir, val⟩, oe, we, boe⟩ := q
  simp [PinState.holds, portsReleased, openPins, releasedPins]
  tauto

theorem sRel2_iff (q : Pins) : PinState.sRel2.holds q = true ↔ q = { capturedPins with oe := .low } := by
  obtain ⟨al, ah, dq, ce, oe, we, boe⟩ := q
  simp [PinState.holds, portsReleased, capturedPins]
  tauto

theorem sRaddr_iff (q : Pins) : PinState.sRaddr.holds q = true ↔ ∃ a, q = readAddrPins a := by
  obtain ⟨⟨ad, av⟩, ⟨hd, hv⟩, dq, ce, oe, we, boe⟩ := q
  constructor
  · intro h
    simp [PinState.holds, portsRead] at h
    refine ⟨joinAddr hv av, ?_⟩
    simp [readAddrPins, (addr_halves hv av).1, (addr_halves hv av).2]
    tauto
  · rintro ⟨a, h⟩
    rw [h]
    rfl

theorem sRact_iff (q : Pins) : PinState.sRact.holds q = true ↔ ∃ a, q = readActivePins a := by
  obtain ⟨⟨ad, av⟩, ⟨hd, hv⟩, dq, ce, oe, we, boe⟩ := q
  constructor
  · intro h
    simp [PinState.holds, portsRead] at h
    refine ⟨joinAddr hv av, ?_⟩
    simp [readActivePins, (addr_halves hv av).1, (addr_halves hv av).2]
    tauto
  · rintro ⟨a, h⟩
    rw [h]
    rfl

/-- A micro-step of `writeByte` moves the pins along the rows of R197 (R142). -/
theorem stepW_holds (own : Own) (k : Nat) (w : WStep) {s : State}
    (h : (pinStateAt own (.cmd k w)).holds s.pins = true) (a : Addr) (d : Byte) :
    (pinStateAfter own (.cmd k w)).holds (stepW a d s w).pins = true := by
  cases w with
  | w1 =>
    obtain ⟨a', d', hq⟩ := (sWidle_iff _).mp h
    rw [stepW, stepW1, pinUpdate_pins, hq]
    rfl
  | w2 =>
    obtain ⟨a', d', hq⟩ := (sWidle_iff _).mp h
    rw [stepW, stepW2, pinUpdate_pins, hq]
    rfl
  | w4 =>
    obtain ⟨a', d', hq⟩ := (sWpulse_iff _).mp h
    rw [stepW, stepW4, pinUpdate_pins, hq]
    rfl
  | w3 | w5 => exact h

/-- A micro-step of `readByte` moves the pins along the rows of R197 (R143). -/
theorem stepR_holds (own : Own) (r : RStep) {s : State} (h : (pinStateAt own (.read r)).holds s.pins = true) (a : Addr) :
    (pinStateAfter own (.read r)).holds (stepR a s r).pins = true := by
  cases r with
  | r1 =>
    rw [stepR, stepR1, pinUpdate_pins, (sHold_iff _).mp h]
    rfl
  | r2 =>
    obtain ⟨a', hq⟩ := (sRaddr_iff _).mp h
    rw [stepR, stepR2, pinUpdate_pins, hq]
    rfl
  | r5 =>
    obtain ⟨a', hq⟩ := (sRact_iff _).mp h
    rw [stepR, stepR5, pinUpdate_pins, hq]
    rfl
  | r6 =>
    obtain ⟨a', hq⟩ := (sRaddr_iff _).mp h
    rw [stepR, stepR6, pinUpdate_pins, hq]
    rfl
  | r3 | r4 => exact h

/-- Every micro-step moves the pins from the row in which it starts to the row in which it ends (R197). -/
theorem microEffect_holds (op : Op) (i : Nat) (own : Own) (u : Upc) {s : State}
    (h : (pinStateAt own u).holds s.pins = true) :
    (pinStateAfter own u).holds (microEffect op i s u).pins = true := by
  cases u with
  | c1 =>
    obtain ⟨v, hq⟩ := (sExt_iff _).mp h
    exact (sCap1_iff _).mpr ⟨v, by simp [microEffect, stepC1, hq, openPins]⟩
  | c2 =>
    obtain ⟨v, hq⟩ := (sCap1_iff _).mp h
    exact (sCap2_iff _).mpr ⟨v, by simp [microEffect, stepC2, hq, openPins, releasedPins]⟩
  | c3 =>
    obtain ⟨v, hq⟩ := (sCap2_iff _).mp h
    exact (sHold_iff _).mpr (by simp [microEffect, stepC3, hq, openPins, releasedPins, capturedPins])
  | c4 => exact (sHold_iff _).mpr (by simp [microEffect, stepC4, (sHold_iff _).mp h, Pins.released, capturedPins])
  | b1 => exact setBusOut_sWidle ((sHold_iff _).mp h)
  | cmd k w => exact stepW_holds own k w h _ _
  | load w =>
    cases w with
    | w1 => exact stepW_holds own 0 .w1 h (addrAt (latchBase op s) i) (bufByte s.pbuf i)
    | w2 => exact stepW_holds own 0 .w2 h (addrAt (latchBase op s) i) (bufByte s.pbuf i)
    | w4 => exact stepW_holds own 0 .w4 h (addrAt (latchBase op s) i) (bufByte s.pbuf i)
    | w3 | w5 => exact h
  | loadNext => exact stepW_holds own 0 .w1 h _ _
  | b2 =>
    obtain ⟨a, d, hq⟩ := (sWidle_iff _).mp h
    exact (sHold_iff _).mpr (by simp [microEffect, setBusRel, Pins.released, hq, drivenPins, capturedPins])
  | read r => exact stepR_holds own r h _
  | l1 => exact (sHold_iff _).mpr (by simp [microEffect, stepL1, (sHold_iff _).mp h, capturedPins])
  | l2 => exact (sRel2_iff _).mpr (by simp [microEffect, stepL2, (sHold_iff _).mp h])
  | l3 =>
    exact (sRel3_iff _).mpr ⟨_, by
      simp only [microEffect, stepL3, pinUpdate_pins, (sRel2_iff _).mp h]
      rfl⟩
  | l4 =>
    obtain ⟨v, hq⟩ := (sRel3_iff _).mp h
    exact (sRel3_iff _).mpr ⟨v, by simp [microEffect, stepL4, hq, Pins.released, openPins, releasedPins]⟩
  | l5 =>
    obtain ⟨v, hq⟩ := (sRel3_iff _).mp h
    exact (sExt_iff _).mpr ⟨v, by simp [microEffect, stepL5, hq, openPins, releasedPins]⟩
  | progWait | eraseWait | emit | pbload | pbclr => exact h

theorem microEffect_own (op : Op) (i : Nat) (s : State) (u : Upc) :
    (microEffect op i s u).own = ownAfter s.own u := by
  cases u with
  | cmd _ w | load w => cases w <;> rfl
  | read r => cases r <;> rfl
  | c1 | c2 | c3 | c4 | b1 | loadNext | progWait | eraseWait | b2 | emit | l1 | l2 | l3 | l4 | l5 | pbload | pbclr => rfl

/-! ### The micro-steps of an operation fit together (R190, R197) -/

/-- After the capture of a composite operation comes the first micro-step of its inner operation (R191 to R193). -/
theorem Op.afterCapture_eq_some {op : Op} {u : Upc} (h : Op.afterCapture op = some u) :
    (u = .b1 ∧ (Op.writesPage op || Op.erases op) = true) ∨ (u = .read .r1 ∧ 0 < Op.readCount op) := by
  cases op
  case cmdw | cmde =>
    cases h
    exact .inl ⟨rfl, rfl⟩
  case cmdd =>
    cases h
    exact .inr ⟨rfl, by decide⟩
  all_goals cases h

/-- After the inner operation of a composite comes the release (R191 to R193). -/
theorem Op.afterInner_eq_some {op : Op} {u : Upc} (h : Op.afterInner op = some u) : Op.composite op = true ∧ u = .l1 := by
  rw [Op.afterInner, Option.ite_none_right_eq_some] at h
  exact ⟨h.1, (Option.some.inj h.2).symm⟩

/-- An operation with command writes is an erase or a page write (R96). -/
theorem Op.erases_or_writesPage {op : Op} {k : Nat} (h : k < (cmdTable op).length) :
    Op.erases op = true ∨ Op.writesPage op = true := by
  cases op
  case wrpage | cmdw => exact .inr rfl
  case erase | cmde => exact .inl rfl
  all_goals exact absurd h (Nat.not_lt_zero k)

theorem Op.cmdTable_pos {op : Op} (h : (Op.writesPage op || Op.erases op) = true) : 0 < (cmdTable op).length := by
  cases op
  case wrpage | cmdw | erase | cmde => exact Nat.succ_pos _
  all_goals cases h

/-- Where SEQ moves to `u'` with counter `i'`, that is a micro-step of the operation, and the mode and the pins are those in which it
starts. -/
theorem next_starts {op : Op} {i i' : Nat} {u u' : Upc} {own : Own} (hh : Op.has op i u = true) (ho : ownAt own u = true)
    (hn : Op.next op i u = some (u', i')) :
    Op.has op i' u' = true ∧ ownAt (ownAfter own u) u' = true ∧
      pinStateAt (ownAfter own u) u' = pinStateAfter own u := by
  cases u with
  | c1 =>
    cases hn
    exact ⟨hh, rfl, rfl⟩
  | c2 | c3 | l1 | l2 | l3 | l4 =>
    cases hn
    exact ⟨hh, ho, rfl⟩
  | c4 =>
    obtain ⟨u'', hafter, hpair⟩ := Option.map_eq_some_iff.mp hn
    cases hpair
    obtain ⟨rfl, hb⟩ | ⟨rfl, hr⟩ := Op.afterCapture_eq_some hafter
    · exact ⟨hb, ho, rfl⟩
    · exact ⟨decide_eq_true hr, ho, rfl⟩
  | b1 =>
    cases hn
    exact ⟨decide_eq_true (Op.cmdTable_pos hh), ho, rfl⟩
  | cmd k w =>
    cases w with
    | w1 | w2 | w3 | w4 =>
      cases hn
      exact ⟨hh, ho, rfl⟩
    | w5 =>
      rw [Op.next] at hn
      split at hn
      case isTrue hmore =>
        cases hn
        exact ⟨decide_eq_true hmore, ho, rfl⟩
      case isFalse =>
        split at hn
        case isTrue herases =>
          cases hn
          exact ⟨herases, ho, rfl⟩
        case isFalse hnot =>
          cases hn
          have hwrites := (Op.erases_or_writesPage (of_decide_eq_true hh)).resolve_left hnot
          exact ⟨by simp [Op.has, hwrites], ho, rfl⟩
  | load w =>
    cases w with
    | w1 =>
      cases hn
      obtain ⟨hop, hi⟩ := Bool.and_eq_true_iff.mp hh
      have hi : i = 0 := of_decide_eq_true hi
      exact ⟨by simp [Op.has, hop, hi, pageSize], ho, rfl⟩
    | w2 | w3 | w4 =>
      cases hn
      exact ⟨hh, ho, rfl⟩
    | w5 =>
      obtain ⟨hop, -⟩ := Bool.and_eq_true_iff.mp hh
      rw [Op.next] at hn
      split at hn
      case isTrue hmore =>
        cases hn
        exact ⟨by simp [Op.has, hop, hmore], ho, rfl⟩
      case isFalse =>
        cases hn
        exact ⟨hop, ho, rfl⟩
  | loadNext =>
    cases hn
    exact ⟨hh, ho, rfl⟩
  | progWait =>
    cases hn
    exact ⟨Bool.or_eq_true_iff.mpr (.inl hh), ho, rfl⟩
  | eraseWait =>
    cases hn
    exact ⟨Bool.or_eq_true_iff.mpr (.inr hh), ho, rfl⟩
  | b2 =>
    obtain ⟨u'', hafter, hpair⟩ := Option.map_eq_some_iff.mp hn
    cases hpair
    obtain ⟨hop, rfl⟩ := Op.afterInner_eq_some hafter
    exact ⟨Bool.or_eq_true_iff.mpr (.inr hop), ho, rfl⟩
  | read r =>
    cases r with
    | r1 | r2 | r3 | r4 | r5 | r6 =>
      cases hn
      exact ⟨hh, ho, rfl⟩
  | emit =>
    rw [Op.next] at hn
    split at hn
    case isTrue hmore =>
      cases hn
      exact ⟨decide_eq_true hmore, ho, rfl⟩
    case isFalse =>
      obtain ⟨u'', hafter, hpair⟩ := Option.map_eq_some_iff.mp hn
      cases hpair
      obtain ⟨hop, rfl⟩ := Op.afterInner_eq_some hafter
      exact ⟨Bool.or_eq_true_iff.mpr (.inr hop), ho, rfl⟩
  | l5 | pbload | pbclr => cases hn

/-- After the last micro-step the pins are at rest in the column of the mode. -/
theorem rest_of_no_next {op : Op} {i : Nat} {u : Upc} {own : Own} (ho : ownAt own u = true)
    (hn : Op.next op i u = none) : pinStateAfter own u = restState (ownAfter own u) := by
  cases u with
  | c4 | b2 | emit =>
    obtain rfl : own = .ctrl := of_decide_eq_true ho
    rfl
  | l5 | pbload | pbclr => rfl
  | cmd k w | load w =>
    cases w with
    | w1 | w2 | w3 | w4 => cases hn
    | w5 =>
      rw [Op.next] at hn
      repeat' split at hn
      all_goals cases hn
  | read r => cases r <;> cases hn
  | c1 | c2 | c3 | b1 | loadNext | progWait | eraseWait | l1 | l2 | l3 | l4 => cases hn

/-! ### Every step follows the FSM -/

/-- What following the FSM says of a busy block (R190, R197). -/
theorem pinsFollowSeq_run {s : State} {op : Op} {u : Upc} {i : Nat} (hq : s.seq = .run op u i) :
    PinsFollowSeq s ↔
      s.busy = true ∧ Op.has op i u = true ∧ ownAt s.own u = true ∧ (pinStateAt s.own u).holds s.pins = true := by
  rw [PinsFollowSeq, hq]

theorem pinsFollowSeq_idle {s : State} (hq : s.seq = .idle) : PinsFollowSeq s ↔ AtRest s := by
  rw [PinsFollowSeq, hq]

/-- A block that follows the FSM and is not busy is at rest (R36). -/
theorem atRest_of_follows {s : State} (h : PinsFollowSeq s) (hb : s.busy = false) : AtRest s := by
  cases hq : s.seq with
  | idle => exact (pinsFollowSeq_idle hq).mp h
  | run op u i =>
    obtain ⟨hbusy, -⟩ := (pinsFollowSeq_run hq).mp h
    exact nomatch hb.symm.trans hbusy

theorem microStep_pinsFollowSeq {s t : State} (h : PinsFollowSeq s) (hm : microStep s = .next t) : PinsFollowSeq t := by
  obtain ⟨op, u, i, hq, hh, rfl⟩ := microStep_cases hm
  obtain ⟨hb, -, ho, hp⟩ := (pinsFollowSeq_run hq).mp h
  have hpins := microEffect_holds op i s.own u hp
  have hown := microEffect_own op i s u
  have hbusy : (microEffect op i s u).busy = true := by
    have hblind : microEffect op i s u = relabel s.busy s.seq (microEffect op i s u) :=
      blind_microEffect op i u s.busy s.seq s
    rw [hblind]
    exact hb
  cases hn : Op.next op i u with
  | none =>
    rw [rest_of_no_next ho hn, ← hown] at hpins
    exact (pinsFollowSeq_idle rfl).mpr ⟨rfl, rfl, hpins⟩
  | some x =>
    obtain ⟨hhas, hstart, hstate⟩ := next_starts (u' := x.1) (i' := x.2) hh ho hn
    rw [← hstate, ← hown] at hpins
    rw [← hown] at hstart
    exact (pinsFollowSeq_run rfl).mpr ⟨hbusy, hhas, hstart, hpins⟩

/-- An accepted operation starts in the column of its mode (R196, R197). -/
theorem first_starts {own : Own} {op : Op} (h : refusedWhen own op = none) :
    Op.has op 0 (Op.first op) = true ∧ ownAt own (Op.first op) = true ∧
      pinStateAt own (Op.first op) = restState own := by
  cases own <;> cases op <;> first | exact ⟨rfl, rfl, rfl⟩ | cases h

theorem startOp_pinsFollowSeq {s : State} {op : Op} (h : AtRest s) (hr : refusedWhen s.own op = none) :
    PinsFollowSeq (startOp op s) := by
  obtain ⟨-, -, hpins⟩ := h
  obtain ⟨hhas, hown, hstate⟩ := first_starts hr
  rw [← hstate] at hpins
  exact (pinsFollowSeq_run rfl).mpr ⟨rfl, hhas, hown, hpins⟩

/-! ### Invariants of the block: kept by micro-steps, hence by whole operations -/

/-- What every micro-step keeps, a run of them keeps. -/
theorem microRun_keeps {P : State → Prop} (hmicro : ∀ u v, P u → microStep u = .next v → P v) :
    ∀ (n : Nat) {s t : State}, P s → microRun n s = .next t → P t
  | 0, _, _, hs, h => Host.Outcome.next.inj h ▸ hs
  | n + 1, s, t, hs, h => by
    rw [microRun] at h
    cases hm : microStep s with
    | next u =>
      rw [hm] at h
      exact microRun_keeps hmicro n (hmicro s u hs hm) h
    | fault f =>
      rw [hm] at h
      cases h
    | refused r =>
      rw [hm] at h
      cases h

/-- What the outside makes of an idle block: an accepted operation run to its end, or nothing of the block and of its trace
changes. -/
theorem takeInput_cases {x : Input} {s t : State} (h : takeInput x s = .next t) :
    (∃ w i, x = .word w ∧ decode w = .ok i ∧ refusedWhen s.own i.op = none ∧
        t = operate (opBody i) (latchWord w s)) ∨
      (BlockKept s t ∧ t.trace = s.trace) := by
  cases x with
  | word w =>
    obtain ⟨r, hw⟩ | ⟨i, hd, hr, hw⟩ := takeWord_cases w s
    · cases hw.symm.trans h
      exact .inr ⟨⟨rfl, rfl, rfl, rfl, rfl, rfl, rfl, rfl, rfl, rfl, rfl⟩, rfl⟩
    · cases hw.symm.trans h
      exact .inl ⟨w, i, rfl, hd, hr, rfl⟩
  | idle ns =>
    cases h
    exact .inr ⟨⟨rfl, rfl, rfl, rfl, rfl, rfl, rfl, rfl, rfl, rfl, rfl⟩, rfl⟩
  | master a d ce =>
    cases h
    obtain ⟨m, r, he⟩ := masterMove_changes a d ce s
    rw [he]
    exact .inr ⟨⟨rfl, rfl, rfl, rfl, rfl, rfl, rfl, rfl, rfl, rfl, rfl⟩, rfl⟩
  | masterSample =>
    cases h
    obtain ⟨l, n, he⟩ := masterSample_changes s
    rw [he]
    exact .inr ⟨⟨rfl, rfl, rfl, rfl, rfl, rfl, rfl, rfl, rfl, rfl, rfl⟩, rfl⟩

/-- The predicate looks at nothing but the pins, the mode, BUSY, SEQ and the trace. -/
def OfBlock (P : State → Prop) : Prop :=
  ∀ u v : State, v.pins = u.pins → v.own = u.own → v.busy = u.busy → v.seq = u.seq → v.trace = u.trace → P u → P v

/-- An invariant of the block that micro-steps and the acceptance of an operation keep is kept by every step: a whole operation is a
run of micro-steps (R190). -/
theorem step_keeps_of_micro {P : State → Prop} (hview : OfBlock P) (hmicro : ∀ u v, P u → microStep u = .next v → P v)
    (hstart : ∀ u op, u.busy = false → P u → refusedWhen u.own op = none → P (startOp op u)) {s t : State} (hs : P s)
    (h : step s = .next t) : P t := by
  obtain ⟨-, hm⟩ | ⟨-, -, rfl⟩ | ⟨hb, x, rest, -, hx⟩ := step_cases h
  · exact hmicro s t hs hm
  · exact hs
  · obtain ⟨w, i, -, hd, hr, rfl⟩ | ⟨⟨hpins, hown, hbusy, hseq, -⟩, htrace⟩ := takeInput_cases hx
    · have hrun := (reach_operate (latched_of_decode (s := latchWord w { s with inputs := rest }) hd rfl rfl)).1
      have hlatched : P (latchWord w { s with inputs := rest }) := hview s _ rfl rfl rfl rfl rfl hs
      exact microRun_keeps hmicro _ (hstart (latchWord w { s with inputs := rest }) i.op hb hlatched hr) hrun
    · exact hview s t hpins hown hbusy hseq htrace hs

theorem ofBlock_pinsFollowSeq : OfBlock PinsFollowSeq := by
  intro u v hpins hown hbusy hseq _ hu
  rw [PinsFollowSeq] at *
  rwa [AtRest, hpins, hown, hbusy, hseq]

/-- Settles O34: micro-steps keep to the FSM, and an accepted operation starts on it. -/
theorem stepKeepsPinsFollowSeq : Obligations.StepKeepsPinsFollowSeq := by
  unfold Obligations.StepKeepsPinsFollowSeq
  intro s t hs h
  exact step_keeps_of_micro ofBlock_pinsFollowSeq (fun _ _ => microStep_pinsFollowSeq)
    (fun _ _ hb hu hr => startOp_pinsFollowSeq (atRest_of_follows hu hb) hr) hs h

/-- Settles O35: the pins of reset are a row of the EXT column. -/
theorem resetFollowsSeq : Obligations.ResetFollowsSeq := by
  unfold Obligations.ResetFollowsSeq
  intro p f
  exact (pinsFollowSeq_idle rfl).mpr ⟨rfl, rfl, rfl⟩

/-! ### The rows of the FSM are safe (R28, R37, R38) -/

/-- No row of the FSM has a clash or a contention (R37, R38). -/
theorem holds_safe {q : Pins} {st : PinState} (h : st.holds q = true) : NoOeWeClash q ∧ NoContention q := by
  cases st with
  | sExt =>
    obtain ⟨v, rfl⟩ := (sExt_iff q).mp h
    simp [NoOeWeClash, NoContention, releasedPins, Port8.released]
  | sCap1 | sRel3 =>
    obtain ⟨v, rfl⟩ := (sCap1_iff q).mp h
    simp [NoOeWeClash, NoContention, openPins, releasedPins, Port8.released]
  | sCap2 =>
    obtain ⟨v, rfl⟩ := (sCap2_iff q).mp h
    simp [NoOeWeClash, NoContention, openPins, releasedPins, Port8.released]
  | sHold =>
    obtain rfl := (sHold_iff q).mp h
    simp [NoOeWeClash, NoContention, capturedPins]
  | sWidle =>
    obtain ⟨a, d, rfl⟩ := (sWidle_iff q).mp h
    simp [NoOeWeClash, NoContention, drivenPins]
  | sWpulse =>
    obtain ⟨a, d, rfl⟩ := (sWpulse_iff q).mp h
    simp [NoOeWeClash, NoContention, pulsePins]
  | sRaddr =>
    obtain ⟨a, rfl⟩ := (sRaddr_iff q).mp h
    simp [NoOeWeClash, NoContention, readAddrPins]
  | sRact =>
    obtain ⟨a, rfl⟩ := (sRact_iff q).mp h
    simp [NoOeWeClash, NoContention, readActivePins, Port8.released]
  | sRel2 =>
    obtain rfl := (sRel2_iff q).mp h
    simp [NoOeWeClash, NoContention, capturedPins, Port8.released]

/-- The buffer is on in the row S_EXT only (R197). -/
theorem boe_low_iff_sExt {q : Pins} {st : PinState} (h : st.holds q = true) : q.boe = .low ↔ st = .sExt := by
  cases st <;> simp_all [PinState.holds]

/-- A micro-step starts in the row S_EXT exactly if the external master owns the bus (R28). -/
theorem pinStateAt_eq_sExt_iff {own : Own} {u : Upc} (h : ownAt own u = true) :
    pinStateAt own u = .sExt ↔ own = .ext := by
  cases u with
  | c1 =>
    obtain rfl : own = .ext := of_decide_eq_true h
    exact iff_of_true rfl rfl
  | pbload | pbclr => cases own <;> simp [pinStateAt, restState]
  | cmd k w | load w =>
    obtain rfl : own = .ctrl := of_decide_eq_true h
    cases w <;> simp [pinStateAt]
  | read r =>
    obtain rfl : own = .ctrl := of_decide_eq_true h
    cases r <;> simp [pinStateAt]
  | c2 | c3 | c4 | b1 | loadNext | progWait | eraseWait | b2 | emit | l1 | l2 | l3 | l4 | l5 =>
    obtain rfl : own = .ctrl := of_decide_eq_true h
    simp [pinStateAt]

/-- A state that follows the FSM is in a row of it, and in S_EXT exactly if the external master owns the bus. -/
theorem row_of_follows {s : State} (h : PinsFollowSeq s) :
    ∃ st : PinState, st.holds s.pins = true ∧ (st = .sExt ↔ s.own = .ext) := by
  cases hq : s.seq with
  | idle =>
    obtain ⟨-, -, hpins⟩ := (pinsFollowSeq_idle hq).mp h
    exact ⟨_, hpins, by cases s.own <;> simp [restState]⟩
  | run op u i =>
    obtain ⟨-, -, hown, hpins⟩ := (pinsFollowSeq_run hq).mp h
    exact ⟨_, hpins, pinStateAt_eq_sExt_iff hown⟩

/-- Settles O36: the row the pins are in is safe, and only in S_EXT is the buffer on. -/
theorem followingSeqIsSafe : Obligations.FollowingSeqIsSafe := by
  unfold Obligations.FollowingSeqIsSafe
  intro s h
  obtain ⟨st, hst, hext⟩ := row_of_follows h
  obtain ⟨hclash, hcontention⟩ := holds_safe hst
  exact ⟨hclash, hcontention, hext.symm.trans (boe_low_iff_sExt hst).symm, atRest_of_follows h⟩

/-! ### The recorder sees safe snapshots only (R37, R38) -/

/-- A snapshot after a micro-step is one from before it, or its pins. -/
theorem snapshots_microEffect (op : Op) (i : Nat) (s : State) (u : Upc) :
    ∀ q ∈ snapshots (microEffect op i s u).trace, q ∈ snapshots s.trace ∨ q = (microEffect op i s u).pins := by
  obtain ⟨f, e⟩ | ⟨-, e⟩ | ⟨-, e⟩ | ⟨k, T, e⟩ | ⟨-, e⟩ | ⟨-, e⟩ | ⟨-, e⟩ | ⟨-, e⟩ := microEffect_cases op i s u <;> rw [e]
  · simp [snapshots_append, snapshots]
  · simp [stepC1, snapshots_append, snapshots]
  · simp [stepL5, snapshots_append, snapshots]
  · exact fun q hq => .inl (by simpa [snapshots_append, snapshots] using hq)
  · exact fun q hq => .inl (by simpa [snapshots_append, snapshots] using hq)
  all_goals exact fun q hq => .inl hq

theorem microStep_traceSafe {s t : State} (h : PinsFollowSeq s ∧ TraceSafe s) (hm : microStep s = .next t) :
    PinsFollowSeq t ∧ TraceSafe t := by
  have ht := microStep_pinsFollowSeq h.1 hm
  refine ⟨ht, ?_⟩
  obtain ⟨st, hst, -⟩ := row_of_follows ht
  have hsafe := holds_safe hst
  obtain ⟨op, u, i, -, -, rfl⟩ := microStep_cases hm
  obtain ⟨b, q, he⟩ := moveSeq_relabels op (Op.next op i u) (microEffect op i s u)
  rw [he] at hsafe ⊢
  intro q hq
  obtain hold | rfl := snapshots_microEffect op i s u q hq
  · exact h.2 q hold
  · exact hsafe

/-- Settles O37: together with the FSM, safe snapshots are kept by every micro-step, so by whole operations too. -/
theorem stepKeepsTraceSafe : Obligations.StepKeepsTraceSafe := by
  unfold Obligations.StepKeepsTraceSafe
  intro s t hs hsafe h
  have hview : OfBlock fun u => PinsFollowSeq u ∧ TraceSafe u := by
    intro u v hpins hown hbusy hseq htrace hu
    refine ⟨ofBlock_pinsFollowSeq u v hpins hown hbusy hseq htrace hu.1, ?_⟩
    rw [TraceSafe, htrace]
    exact hu.2
  exact (step_keeps_of_micro hview (fun _ _ => microStep_traceSafe)
    (fun _ _ hb hu hr => ⟨startOp_pinsFollowSeq (atRest_of_follows hu.1 hb) hr, hu.2⟩) ⟨hs, hsafe⟩ h).2

/-! ### When a step answers (R190, R210) -/

theorem takeInput_answers (x : Input) (s : State) : ∃ t, takeInput x s = .next t := by
  cases x with
  | word w =>
    obtain ⟨r, hw⟩ | ⟨i, -, -, hw⟩ := takeWord_cases w s
    · exact ⟨_, hw⟩
    · exact ⟨_, hw⟩
  | idle | master | masterSample => exact ⟨_, rfl⟩

/-- An idle block always answers: a word completes or is dropped (R210). -/
theorem step_answers_of_idle {s : State} (hb : s.busy = false) : ∃ t, step s = .next t := by
  by_cases hi : s.inputs = []
  · exact ⟨s, step_sits hb hi⟩
  · obtain ⟨x, rest, hi⟩ := List.exists_cons_of_ne_nil hi
    rw [step_input hb hi]
    exact takeInput_answers x _

/-- A busy block answers exactly if SEQ names a micro-step of its operation, and else stops with the model's own fault. -/
theorem microStep_eq (s : State) :
    (∃ op u i, s.seq = .run op u i ∧ Op.has op i u = true ∧ ∃ t, microStep s = .next t) ∨
      ((s.seq = .idle ∨ ∃ op u i, s.seq = .run op u i ∧ Op.has op i u = false) ∧ microStep s = .fault .noMicroStep) := by
  cases hq : s.seq with
  | idle => exact .inr ⟨.inl rfl, microStep_of_idle hq⟩
  | run op u i =>
    cases hh : Op.has op i u with
    | true => exact .inl ⟨op, u, i, rfl, hh, _, microStep_run hq hh⟩
    | false => exact .inr ⟨.inr ⟨op, u, i, rfl, hh⟩, microStep_of_not_has hq hh⟩

/-- Settles O38: an idle block answers, and a busy one on the FSM is at a micro-step of its operation. -/
theorem stepAlwaysAnswers : Obligations.StepAlwaysAnswers := by
  unfold Obligations.StepAlwaysAnswers
  intro s h
  obtain hb | hb := Bool.eq_false_or_eq_true s.busy
  · rw [step_busy hb]
    cases hq : s.seq with
    | idle =>
      obtain ⟨hidle, -⟩ := (pinsFollowSeq_idle hq).mp h
      exact nomatch hb.symm.trans hidle
    | run op u i =>
      obtain ⟨-, hh, -⟩ := (pinsFollowSeq_run hq).mp h
      exact ⟨_, microStep_run hq hh⟩
  · exact step_answers_of_idle hb

/-- Settles O39: an idle block answers, and `microStep_eq` says what a busy one does. -/
theorem faultsOnlyWithoutMicroStep : Obligations.FaultsOnlyWithoutMicroStep := by
  unfold Obligations.FaultsOnlyWithoutMicroStep
  intro s
  obtain hb | hb := Bool.eq_false_or_eq_true s.busy
  · rw [step_busy hb]
    obtain ⟨op, u, i, hq, hh, t, ht⟩ | ⟨hnone, hf⟩ := microStep_eq s
    · simp [ht, hq, hh]
    · simp [hf, hb, hnone]
  · obtain ⟨t, ht⟩ := step_answers_of_idle hb
    simp [ht, hb]

end Sys2Proof.Machine
end

section

namespace Sys2Proof.Machine

open Sys2Proof.Safety

/-! ### The step of a busy block, and of an idle one at each kind of input (R95, R190, R194) -/

/-- No micro-step writes the surroundings (R95). -/
theorem microEffect_keepsSurroundings (op : Op) (i : Nat) (s : State) (u : Upc) :
    KeepsSurroundings s (microEffect op i s u) := by
  have hmarks := (microEffect_marked op i s u).marks
  obtain ⟨f, e⟩ | ⟨-, e⟩ | ⟨-, e⟩ | ⟨k, T, e⟩ | ⟨-, e⟩ | ⟨-, e⟩ | ⟨-, e⟩ | ⟨-, e⟩ := microEffect_cases op i s u
  all_goals
    rw [e] at hmarks ⊢
    exact ⟨rfl, rfl, rfl, rfl, rfl, hmarks, rfl⟩

theorem microStep_keepsSurroundings {s t : State} (h : microStep s = .next t) : KeepsSurroundings s t := by
  obtain ⟨op, u, i, -, -, rfl⟩ := microStep_cases h
  obtain ⟨b, q, he⟩ := moveSeq_relabels op (Op.next op i u) (microEffect op i s u)
  rw [he]
  exact microEffect_keepsSurroundings op i s u

/-- Settles O9: the step is the micro-step, which writes nothing of the surroundings. -/
theorem busyBlockTakesNoWord : Obligations.BusyBlockTakesNoWord := by
  unfold Obligations.BusyBlockTakesNoWord
  intro s hb
  refine ⟨step_busy hb, fun t h => ?_⟩
  rw [step_busy hb] at h
  obtain ⟨hopReg, haReg, hbReg, -, -, hmarks, hinputs⟩ := microStep_keepsSurroundings h
  exact ⟨hinputs, hopReg, haReg, hbReg, hmarks⟩

/-- Settles O10: there is no input to take. -/
theorem idleBlockSits : Obligations.IdleBlockSits := by
  unfold Obligations.IdleBlockSits
  exact fun s => step_sits

/-- Settles O6: the step takes the word, and the port hands on what `exec` answers on the latched word. -/
theorem stepRunsDecodedInstruction : Obligations.StepRunsDecodedInstruction := by
  unfold Obligations.StepRunsDecodedInstruction
  intro s w rest i hb hi hd
  rw [step_input hb hi, takeInput, takeWord_of_ok hd]
  exact portOutcome.eq_def _ _

/-- Settles O11: the step of an idle span is the passing of its time. -/
theorem idleSpanChangesNoPin : Obligations.IdleSpanChangesNoPin := by
  unfold Obligations.IdleSpanChangesNoPin
  intro s ns rest hb hi
  refine ⟨pass ns { s with inputs := rest }, step_input hb hi, rfl,
    ⟨rfl, rfl, rfl, rfl, rfl, rfl, rfl, rfl, rfl, rfl, rfl⟩, rfl, rfl, rfl, rfl, rfl, rfl, ⟨s.draws, rfl⟩,
    fun hstill => chipElapse_still hstill (le_refl _)⟩

/-- Settles O24: every clause is that of `bufLoad` from the state in which the operation has begun. -/
theorem pbloadWritesOneByte : Obligations.PbloadWritesOneByte := by
  unfold Obligations.PbloadWritesOneByte
  intro s idx data
  exact ⟨operate (bufLoad idx data) s, exec_pbload idx data s, fun k hk => bufByte_operate_bufLoad idx data s hk, rfl, rfl,
    ⟨rfl, rfl⟩, operate_keepsSurroundings (bufLoad_keepsSurroundings idx data (begin s)), rfl, rfl, rfl, rfl, rfl,
    Nat.le_add_right _ _, Nat.add_le_add_left (slack_le _ _) _, ⟨s.draws, rfl⟩,
    fun hstill => chipElapse_still hstill (le_refl _)⟩

/-! ### What writes the mode and the page buffer (R28, R32) -/

/-- A micro-step changes the mode at C1 and at L5 only (R122). -/
theorem ownAfter_ne {own : Own} {u : Upc} (h : ownAfter own u ≠ own) :
    (u = .c1 ∧ ownAfter own u = .ctrl) ∨ (u = .l5 ∧ ownAfter own u = .ext) := by
  cases u with
  | c1 => exact .inl ⟨rfl, rfl⟩
  | l5 => exact .inr ⟨rfl, rfl⟩
  | _ => exact absurd rfl h

/-- Of the operations a mode accepts only CAPTURE and RELEASE end in another one (R28, R191 to R193). -/
theorem opBody_own_ne {i : Instr} {s : State} (hr : refusedWhen s.own i.op = none) (h : (opBody i s).own ≠ s.own) :
    (i = .capture ∧ s.own = .ext) ∨ (i = .release ∧ s.own = .ctrl) := by
  cases i with
  | capture =>
    obtain hown | hown := s.own.eq_ext_or_eq_ctrl
    · exact .inl ⟨rfl, hown⟩
    · exact absurd hown.symm h
  | release =>
    obtain hown | hown := s.own.eq_ext_or_eq_ctrl
    · exact absurd hown.symm h
    · exact .inr ⟨rfl, hown⟩
  | rdbyte addr => exact absurd (readEmit_context addr s).own h
  | rdpage base => exact absurd (readPage_context base s).own h
  | wrpage base => exact absurd (writePage_context base s).own h
  | erase => exact absurd (eraseChip_context s).own h
  | pbload | pbclr => exact absurd rfl h
  | cmdw | cmdd | cmde =>
    obtain hown | hown := s.own.eq_ext_or_eq_ctrl
    · exact absurd hown.symm h
    · rw [hown] at hr
      cases hr

/-- Settles O43: a micro-step moves the mode by `ownAfter`, an operation by `opBody_own_ne`, and nothing else does. -/
theorem ownershipChangesOnlyByCaptureRelease : Obligations.OwnershipChangesOnlyByCaptureRelease := by
  unfold Obligations.OwnershipChangesOnlyByCaptureRelease
  intro s t h hne
  obtain ⟨hb, hm⟩ | ⟨-, -, rfl⟩ | ⟨hb, x, rest, hi, hx⟩ := step_cases h
  · obtain ⟨op, u, i, hq, -, rfl⟩ := microStep_cases hm
    obtain ⟨b, q, he⟩ := moveSeq_relabels op (Op.next op i u) (microEffect op i s u)
    rw [he, relabel_own, microEffect_own] at hne ⊢
    refine .inl ⟨hb, ?_⟩
    obtain ⟨rfl, hown⟩ | ⟨rfl, hown⟩ := ownAfter_ne hne
    · exact .inl ⟨op, i, hq, hown⟩
    · exact .inr ⟨op, i, hq, hown⟩
  · exact absurd rfl hne
  · obtain ⟨w, i, rfl, hd, hr, rfl⟩ | ⟨⟨-, hown, -⟩, -⟩ := takeInput_cases hx
    · refine .inr ⟨hb, w, rest, hi, ?_⟩
      obtain ⟨rfl, hown⟩ | ⟨rfl, hown⟩ := opBody_own_ne (s := begin (latchWord w { s with inputs := rest })) hr hne
      · exact .inl ⟨hd, hown⟩
      · exact .inr ⟨hd, hown⟩
    · exact absurd hown hne

/-- A micro-step writes the page buffer in PBLOAD and PBCLR only (R165, R166). -/
theorem microEffect_pbuf_ne {op : Op} {i : Nat} {s : State} {u : Upc} (h : (microEffect op i s u).pbuf ≠ s.pbuf) :
    u = .pbload ∨ u = .pbclr := by
  obtain ⟨f, e⟩ | ⟨-, e⟩ | ⟨-, e⟩ | ⟨k, T, e⟩ | ⟨-, e⟩ | ⟨-, e⟩ | ⟨hu, -⟩ | ⟨hu, -⟩ := microEffect_cases op i s u
  case inr.inr.inr.inr.inr.inr.inl => exact .inl hu
  case inr.inr.inr.inr.inr.inr.inr => exact .inr hu
  all_goals
    rw [e] at h
    exact absurd rfl h

/-- A window leaves what its inner operation leaves: of the surroundings, the page buffer. -/
theorem inWindow_pbuf {inner : State → State} (h : ∀ u, SameContext u (inner u)) (s : State) :
    (inWindow inner s).pbuf = s.pbuf := (h (captureBus s)).pbuf

/-- An operation writes the page buffer only if it is PBLOAD or PBCLR (R32). -/
theorem opBody_pbuf_ne {i : Instr} {s : State} (h : (opBody i s).pbuf ≠ s.pbuf) : i.op = .pbload ∨ i.op = .pbclr := by
  cases i with
  | pbload => exact .inl rfl
  | pbclr => exact .inr rfl
  | capture | release => exact absurd rfl h
  | rdbyte addr => exact absurd (readEmit_context addr s).pbuf h
  | rdpage base => exact absurd (readPage_context base s).pbuf h
  | wrpage base => exact absurd (writePage_context base s).pbuf h
  | erase => exact absurd (eraseChip_context s).pbuf h
  | cmdw page => exact absurd (inWindow_pbuf (writePage_context (pageBase page)) s) h
  | cmdd page => exact absurd (inWindow_pbuf (readPage_context (pageBase page)) s) h
  | cmde => exact absurd (inWindow_pbuf eraseChip_context s) h

/-- Settles O45: a micro-step writes the buffer by `microEffect_pbuf_ne`, an operation by `opBody_pbuf_ne`, and nothing else
does. -/
theorem bufferWrittenOnlyByLoadAndClear : Obligations.BufferWrittenOnlyByLoadAndClear := by
  unfold Obligations.BufferWrittenOnlyByLoadAndClear
  intro s t h hne
  obtain ⟨hb, hm⟩ | ⟨-, -, rfl⟩ | ⟨hb, x, rest, hi, hx⟩ := step_cases h
  · obtain ⟨op, u, i, hq, -, rfl⟩ := microStep_cases hm
    obtain ⟨b, q, he⟩ := moveSeq_relabels op (Op.next op i u) (microEffect op i s u)
    rw [he, relabel_pbuf] at hne
    exact .inl ⟨hb, op, u, i, hq, microEffect_pbuf_ne hne⟩
  · exact absurd rfl hne
  · obtain ⟨w, i, rfl, hd, -, rfl⟩ | ⟨⟨-, -, -, -, -, -, -, hpbuf, -⟩, -⟩ := takeInput_cases hx
    · exact .inr ⟨hb, w, rest, i, hi, hd, opBody_pbuf_ne (s := begin (latchWord w { s with inputs := rest })) hne⟩
    · exact absurd hpbuf hne

/-! ### How long the operations last (R11, R253) -/

/-- From `s` to `t` pass at least `T` and at most `n` overshoots more. -/
def Lasts (T n : Nat) (s t : State) : Prop :=
  t.params = s.params ∧ s.now + T ≤ t.now ∧ t.now ≤ s.now + T + n * s.params.stepMax

theorem Lasts.trans {T T' n n' : Nat} {s t u : State} (h : Lasts T n s t) (h' : Lasts T' n' t u) :
    Lasts (T + T') (n + n') s u := by
  obtain ⟨hp, hlo, hhi⟩ := h
  obtain ⟨hp', hlo', hhi'⟩ := h'
  rw [hp] at hhi'
  refine ⟨hp'.trans hp, ?_, ?_⟩
  · omega
  · rw [Nat.add_mul]
    omega

theorem passStep_lasts (s : State) : Lasts 0 1 s (passStep s) := by
  have := slack_le s.params s.draws
  refine ⟨rfl, Nat.le_add_right _ _, ?_⟩
  simp only [passStep_now]
  omega

theorem pinUpdate_lasts (f : Pins → Pins) (s : State) : Lasts 0 1 s (pinUpdate f s) := passStep_lasts s

theorem delay_lasts (k : DelayKind) (T : Nat) (s : State) : Lasts T 1 s (delay k T s) := by
  have := slack_le s.params s.draws
  refine ⟨rfl, now_add_le_delay k T s, ?_⟩
  simp only [delay_now]
  omega

theorem captureBus_lasts (s : State) : Lasts 0 4 s (captureBus s) := by
  obtain ⟨h1, h2, h3, h4, hmax⟩ := captureBus_times s
  exact ⟨rfl, ((h1.trans h2).trans h3).trans h4, hmax⟩

theorem releaseBus_lasts (s : State) : Lasts 0 5 s (releaseBus s) := by
  obtain ⟨h1, h2, h3, h4, h5, hmax⟩ := releaseBus_times s
  exact ⟨rfl, (((h1.trans h2).trans h3).trans h4).trans h5, hmax⟩

theorem writeAll_lasts (l : List (Addr × Byte)) (s : State) :
    Lasts (l.length * (s.params.wp + s.params.wrRec)) (l.length * 5) s (writeAll l s) := by
  obtain ⟨hlo, hhi⟩ := writeAll_now l s
  refine ⟨(writeAll_context l s).params, hlo, hhi.trans (le_of_eq ?_)⟩
  ring

theorem readAll_lasts (base : Addr) (k : Nat) (s : State) :
    Lasts (k * s.params.rdSettle) (k * 7) s (readAll base k s) := by
  obtain ⟨hlo, hhi⟩ := readAll_now base s k
  refine ⟨(readAll_context base k s).params, hlo, hhi.trans (le_of_eq ?_)⟩
  ring

theorem writeSequence_lasts (kind : DelayKind) (T : Nat) (l : List (Addr × Byte)) (s : State) :
    Lasts (l.length * (s.params.wp + s.params.wrRec) + T) (1 + l.length * 5 + 1 + 1) s (writeSequence kind T l s) := by
  have h := (((pinUpdate_lasts _ s).trans (writeAll_lasts l (setBusOut s))).trans (delay_lasts kind T _)).trans
    (pinUpdate_lasts Pins.released _)
  rw [Nat.zero_add] at h
  exact h

theorem writePage_lasts (base : Addr) (s : State) :
    Lasts (131 * (s.params.wp + s.params.wrRec) + s.params.progWait) 658 s (writePage base s) := by
  have hlen : (pageWriteCycles base s.pbuf).length = 131 := by simp [pageWriteCycles, cmdBytes, pageSize]
  have h := writeSequence_lasts .program s.params.progWait (pageWriteCycles base s.pbuf) s
  rwa [← writePage_sequence, hlen] at h

theorem eraseChip_lasts (s : State) :
    Lasts (6 * (s.params.wp + s.params.wrRec) + s.params.eraseWait) 33 s (eraseChip s) := by
  rw [eraseChip_sequence]
  exact writeSequence_lasts .erase s.params.eraseWait eraseWriteCycles s

theorem inWindow_lasts {T n : Nat} {inner : State → State} {s : State}
    (h : Lasts T n (captureBus s) (inner (captureBus s))) : Lasts T (n + 9) s (inWindow inner s) := by
  have hall := ((captureBus_lasts s).trans h).trans (releaseBus_lasts _)
  have hn : 4 + n + 5 = n + 9 := by omega
  rwa [Nat.zero_add, Nat.add_zero, hn] at hall

/-- Every operation lasts as long as its delays and its micro-steps say (R253). -/
theorem opBody_lasts (i : Instr) (s : State) :
    Lasts (nominalTime s.params i.op) (Op.microCount i.op) s (opBody i s) := by
  cases i with
  | capture => exact captureBus_lasts s
  | release => exact releaseBus_lasts s
  | rdbyte addr =>
    obtain ⟨hlo, hhi⟩ := readEmit_now addr s
    exact ⟨(readEmit_context addr s).params, hlo, hhi⟩
  | rdpage base => exact readAll_lasts base 128 s
  | wrpage base => exact writePage_lasts base s
  | erase => exact eraseChip_lasts s
  | pbload | pbclr => exact passStep_lasts s
  | cmdw page => exact inWindow_lasts (writePage_lasts (pageBase page) (captureBus s))
  | cmdd page => exact inWindow_lasts (readAll_lasts (pageBase page) 128 (captureBus s))
  | cmde => exact inWindow_lasts (eraseChip_lasts (captureBus s))

/-- Settles O48: an operation that completes lasts as long as its body. -/
theorem durationsWithinBounds : Obligations.DurationsWithinBounds := by
  unfold Obligations.DurationsWithinBounds
  intro s t i h
  obtain ⟨-, rfl⟩ := exec_next h
  exact (opBody_lasts i (begin s)).2

end Sys2Proof.Machine
end

section

namespace Sys2Proof.Machine

open Sys2Proof.Safety

/-! ### The lines (R27, R71) -/

theorem ceDriven_out {q : Pins} (h : q.ce.dir = .out) (m : Master) : ceDriven q m = some q.ce.val := by
  rw [ceDriven, h]

theorem ceDriven_buffer {q : Pins} (h : q.ce.dir = .inp) (hb : q.boe = .low) (m : Master) :
    ceDriven q m = some m.ce := by
  rw [ceDriven, h, hb]

theorem addrDriven_out {q : Pins} (hl : q.al.dir = .out) (hh : q.ah.dir = .out) (m : Master) :
    addrDriven q m = some q.addr := by
  rw [addrDriven, hl, hh]

theorem addrDriven_buffer {q : Pins} (hl : q.al.dir = .inp) (hh : q.ah.dir = .inp) (hb : q.boe = .low) (m : Master) :
    addrDriven q m = some m.addr := by
  rw [addrDriven, hl, hh, hb]

theorem masterDrives_buffer {q : Pins} (hb : q.boe = .low) (m : Master) : masterDrives q m = m.data := by
  rw [masterDrives, hb]

/-- The block's byte stands on the data lines while it drives them (R22). -/
theorem dataLines_out {s : State} (h : s.pins.dq.dir = .out) (n : Nat) : dataLines s n = s.pins.dq.val := by
  rw [dataLines, h]

/-- The external master's byte stands there while it alone drives them (R12, R71). -/
theorem dataLines_master {s : State} (h : s.pins.dq.dir = .inp) (hc : chipDrives s.pins s.master = false) {d : Byte}
    (hm : masterDrives s.pins s.master = some d) (n : Nat) : dataLines s n = d := by
  rw [dataLines, h, hc, hm]

/-- The chip shows what it shows while it alone drives them (R61). -/
theorem dataLines_chip {s : State} (h : s.pins.dq.dir = .inp) (hc : chipDrives s.pins s.master = true)
    (hm : masterDrives s.pins s.master = none) (n : Nat) : dataLines s n = chipShows s n := by
  rw [dataLines, h, hc, hm]

/-- Settles O54: one lemma for each party that drives. -/
theorem levelsTheChipSees : Obligations.LevelsTheChipSees := by
  unfold Obligations.LevelsTheChipSees
  intro s n
  refine ⟨fun hce => ?_, fun hce hb => ?_, fun hl hh => ?_, fun hl hh hb => ?_, fun hdq => dataLines_out hdq n,
    fun hdq hb hc d hd => dataLines_master hdq hc ((masterDrives_buffer hb _).trans hd) n⟩
  · rw [ceLevel, ceDriven_out hce, Option.getD_some]
  · rw [ceLevel, ceDriven_buffer hce hb, Option.getD_some]
  · rw [addrSeen, addrDriven_out hl hh, Option.getD_some, Pins.addr]
  · rw [addrSeen, addrDriven_buffer hl hh hb, Option.getD_some]

/-! ### What a read cycle in progress shows (R61) -/

theorem readAddr_of_drives {q : Pins} {m : Master} (h : chipDrives q m = true) : readAddr q m = addrDriven q m := if_pos h

theorem chipCell_idle {p : Params} {t : Nat} {c : Chip} (h : (chipSettle p t c).cs = .idle) (a : Addr) :
    chipCell p t c a = some (Memory.read p (chipSettle p t c).flash a.toNat) := if_pos h

theorem chipCell_of_ne_idle {p : Params} {t : Nat} {c : Chip} (h : (chipSettle p t c).cs ≠ .idle) (a : Addr) :
    chipCell p t c a = none := if_neg h

/-- The cell of the assertion, once the access time has passed since (R61, R143). -/
theorem chipShows_cell {s : State} {r : ReadAccess} {v : Byte} (h : s.access = some r) (hv : r.data = some v)
    (hacc : s.params.accChip < s.params.rdSettle) (ht : r.since + s.params.accChip < s.now) (n : Nat) :
    chipShows s n = v := by
  simp [chipShows, h, hv, hacc, ht]

/-- Any value before, from a slow chip, and from one that was not idle (R61, R143). -/
theorem chipShows_free {s : State} {r : ReadAccess} (h : s.access = some r)
    (hfree : s.now ≤ r.since + s.params.accChip ∨ s.params.rdSettle ≤ s.params.accChip ∨ r.data = none) (n : Nat) :
    chipShows s n = Config.freeByte n := by
  rw [chipShows, h]
  by_cases hshown : s.params.accChip < s.params.rdSettle ∧ r.since + s.params.accChip < s.now
  · obtain ⟨hacc, ht⟩ := hshown
    obtain hearly | hslow | hnone := hfree
    · exact absurd ht hearly.not_gt
    · exact absurd hacc hslow.not_gt
    · simp [hnone]
  · exact if_neg hshown

/-- Settles O56: a read cycle begins, goes on or ends by the three lemmas about `readNext`, and the chip shows its cell or a free
value. -/
theorem readShowsTheCellOfTheAssertion : Obligations.ReadShowsTheCellOfTheAssertion := by
  unfold Obligations.ReadShowsTheCellOfTheAssertion
  constructor
  · intro s q m t c
    refine ⟨fun h => readNext_none h t c, fun a hdrives haddr => ?_⟩
    have hread : readAddr q m = some a := (readAddr_of_drives hdrives).trans haddr
    refine ⟨fun hsame => readNext_kept hread hsame t c, fun hnew hidle => ?_, fun hnew hidle => ?_⟩
    · rw [readNext_fresh hread hnew, chipCell_idle hidle]
    · rw [readNext_fresh hread hnew, chipCell_of_ne_idle hidle]
  · intro s n r hdq hchip hmaster haccess
    rw [dataLines_chip hdq hchip hmaster]
    exact ⟨fun v hv hacc ht => chipShows_cell haccess hv hacc ht n, fun hfree => chipShows_free haccess hfree n⟩

/-! ### The external master on a bus given back (R71, R72) -/

theorem readAddr_congr {q : Pins} {m m' : Master} (ha : m.addr = m'.addr) (hce : m.ce = m'.ce) :
    readAddr q m = readAddr q m' := by
  have hlevel : ceDriven q m = ceDriven q m' := by rw [ceDriven, ceDriven, hce]
  have haddr : addrDriven q m = addrDriven q m' := by rw [addrDriven, addrDriven, ha]
  rw [readAddr, readAddr, chipDrives, chipDrives, hlevel, haddr]

/-- Lines with the same address and chip enable leave the read cycle in progress as it is (R61). -/
theorem readNext_same_lines {s : State} (h : AccessFollowsLines s) {m : Master} (ha : m.addr = s.master.addr)
    (hce : m.ce = s.master.ce) (t : Nat) (c : Chip) : readNext s s.pins m t c = s.access := by
  have hsame : readAddr s.pins m = readAddr s.pins s.master := readAddr_congr ha hce
  cases hr : readAddr s.pins s.master with
  | none =>
    obtain ⟨hnone, -⟩ := (accessFollowsLines_iff s).mp h
    rw [hr, Option.map_eq_none_iff] at hnone
    rw [readNext_none (hsame.trans hr), hnone]
  | some a => exact readNext_kept (hsame.trans hr) hr t c

/-- On a bus given back, a chip enable the external master drives low asserts a read at its address (R61, R71). -/
theorem readAddr_released (v : Level) (m : Master) :
    readAddr (releasedPins v) m = if m.ce = .low then some m.addr else none := by
  simp [readAddr, chipDrives, ceDriven, addrDriven, releasedPins, Port8.released]

/-- A read that the external master newly asserts on a bus given back, at an idle chip, holds the cell at its address (R61, R71). -/
theorem masterMove_begins_read {s : State} {a : Addr} (hfree : Free s) (hidle : s.chip.cs = .idle)
    (hnew : s.master.ce = .high ∨ s.master.addr ≠ a) :
    masterMove a none .low s =
      { s with master := ⟨a, none, .low, s.master.seen⟩, access := some ⟨a, s.now, some (cell s a.toNat)⟩ } := by
  obtain ⟨hown, v, hpins⟩ := hfree
  have hread : readAddr s.pins ⟨a, none, .low, s.master.seen⟩ = some a := by
    rw [hpins, readAddr_released]
    exact if_pos rfl
  have hbefore : readAddr s.pins s.master ≠ some a := by
    rw [hpins, readAddr_released]
    obtain hce | haddr := hnew
    · simp [hce]
    · simp [haddr]
  have hchip : chipSettle s.params s.now s.chip = s.chip := chipSettle_idle hidle
  rw [masterMove_ext hown, readNext_fresh hread hbefore, chipCell_idle (by rw [hchip, hidle]), hchip, cell_idle hidle]

/-- The byte the external master takes while a read of its own is in progress whose access time has passed (R61, R72). -/
theorem dataLines_of_read {s : State} {v : Level} {r : ReadAccess} {b : Byte} (hpins : s.pins = releasedPins v)
    (hce : s.master.ce = .low) (hdata : s.master.data = none) (haccess : s.access = some r) (hb : r.data = some b)
    (hacc : s.params.accChip < s.params.rdSettle) (ht : r.since + s.params.accChip < s.now) (n : Nat) :
    dataLines s n = b := by
  have hchip : chipDrives s.pins s.master = true := by
    simp [hpins, chipDrives, ceDriven, releasedPins, hce]
  have hmaster : masterDrives s.pins s.master = none := by
    simp [hpins, masterDrives, releasedPins, hdata]
  rw [dataLines_chip (by rw [hpins]; rfl) hchip hmaster, chipShows_cell haccess hb hacc ht]

theorem masterSample_seen {s : State} (h : s.own = .ext) :
    (masterSample s).master.seen = s.master.seen ++ [dataLines s s.draws] := by
  rw [masterSample_ext h]

/-- The external master asserts a read that it did not assert before, waits for the access time and takes the cell (R61, R72). -/
theorem masterSample_takes_cell {s : State} {a : Addr} {ns : Nat} (hfree : Free s) (hidle : s.chip.cs = .idle)
    (hns : s.params.accChip < ns) (hacc : s.params.accChip < s.params.rdSettle)
    (hnew : s.master.ce = .high ∨ s.master.addr ≠ a) :
    (masterSample (pass ns (masterMove a none .low s))).master.seen = s.master.seen ++ [cell s a.toNat] := by
  rw [masterMove_begins_read hfree hidle hnew]
  obtain ⟨hown, v, hpins⟩ := hfree
  rw [masterSample_seen (by exact hown)]
  refine congrArg (fun b => s.master.seen ++ [b]) ?_
  refine dataLines_of_read (v := v) (r := ⟨a, s.now, some (cell s a.toNat)⟩) ?_ ?_ ?_ ?_ ?_ ?_ ?_ _
  exacts [hpins, rfl, rfl, rfl, rfl, hacc, Nat.add_lt_add_left hns s.now]

/-- Such a read leaves an idle chip and the pins as they are (R72). -/
theorem masterRead_keeps {s : State} (hidle : s.chip.cs = .idle) (a : Addr) (d : Option Byte) (ce : Level) (ns : Nat) :
    (masterSample (pass ns (masterMove a d ce s))).chip = s.chip ∧
      (masterSample (pass ns (masterMove a d ce s))).pins = s.pins ∧
      (masterSample (pass ns (masterMove a d ce s))).inputs = s.inputs := by
  obtain ⟨m, r, hmove⟩ := masterMove_changes a d ce s
  obtain ⟨l, n, hsample⟩ := masterSample_changes (pass ns (masterMove a d ce s))
  rw [hsample, hmove]
  exact ⟨chipElapse_idle hidle, rfl, rfl⟩

theorem masterMove_inputs (a : Addr) (d : Option Byte) (ce : Level) (s : State) (l : List Input) :
    { masterMove a d ce s with inputs := l } = masterMove a d ce { s with inputs := l } := by
  obtain h | h := s.own.eq_ext_or_eq_ctrl
  · rw [masterMove_ext h, masterMove_ext (s := { s with inputs := l }) h]
    rfl
  · rw [masterMove_ctrl h, masterMove_ctrl (s := { s with inputs := l }) h]

theorem masterMove_busy (a : Addr) (d : Option Byte) (ce : Level) (s : State) :
    (masterMove a d ce s).busy = s.busy := by
  obtain ⟨m, r, hmove⟩ := masterMove_changes a d ce s
  rw [hmove]

/-- A move of the external master, an idle span and the taking of a byte are three steps (R72, R190, R194). -/
theorem steps_of_masterRead {s : State} (hb : s.busy = false) {a : Addr} {d : Option Byte} {ce : Level} {ns : Nat}
    {rest : List Input} (hi : s.inputs = .master a d ce :: .idle ns :: .masterSample :: rest) :
    ∃ t1 t2, step s = .next t1 ∧ step t1 = .next t2 ∧
      step t2 = .next (masterSample (pass ns (masterMove a d ce { s with inputs := rest }))) := by
  have h1 : step s = .next (masterMove a d ce { s with inputs := .idle ns :: .masterSample :: rest }) := step_input hb hi
  rw [← masterMove_inputs] at h1
  have hb1 := (masterMove_busy a d ce s).trans hb
  have h2 := step_input (s := { masterMove a d ce s with inputs := .idle ns :: .masterSample :: rest }) hb1 rfl
  have h3 := step_input (s := pass ns { masterMove a d ce s with inputs := .masterSample :: rest }) hb1 rfl
  rw [← masterMove_inputs]
  exact ⟨_, _, h1, h2, h3⟩

/-- Settles O12: a move sets the lines and leaves the read cycle in progress to `readNext`, a sample takes the byte on the data
lines, and neither has an effect on an owned bus; the three inputs of a read end in `masterSample_takes_cell`. -/
theorem masterReadsThroughTheBuffer : Obligations.MasterReadsThroughTheBuffer := by
  unfold Obligations.MasterReadsThroughTheBuffer
  refine ⟨fun s a d ce rest hb hi => ?_, fun s rest hb hi => ?_, fun s a ns rest hb hfree hidle hns hacc hnew hi => ?_⟩
  · have hstep : step s = .next (masterMove a d ce { s with inputs := rest }) := step_input hb hi
    refine ⟨fun hown => ?_, fun hown => ?_⟩
    · rw [hstep, masterMove_ctrl (s := { s with inputs := rest }) hown]
    · rw [masterMove_ext (s := { s with inputs := rest }) hown] at hstep
      exact ⟨_, hstep, ⟨rfl, rfl, rfl, rfl, rfl, rfl, rfl, rfl, rfl, rfl, rfl⟩, rfl, rfl, rfl, rfl, rfl, rfl, rfl, rfl,
        fun hfollows ha hce => readNext_same_lines hfollows ha hce _ _⟩
  · have hstep : step s = .next (masterSample { s with inputs := rest }) := step_input hb hi
    refine ⟨fun hown => ?_, fun hown => ?_⟩
    · rw [hstep, masterSample_ctrl (s := { s with inputs := rest }) hown]
    · rw [masterSample_ext (s := { s with inputs := rest }) hown] at hstep
      exact ⟨_, hstep, ⟨rfl, rfl, rfl, rfl, rfl, rfl, rfl, rfl, rfl, rfl, rfl⟩, rfl, rfl, rfl, rfl, rfl, rfl, rfl, rfl⟩
  · obtain ⟨t1, t2, h1, h2, h3⟩ := steps_of_masterRead hb hi
    obtain ⟨hchip, hpins, hinputs⟩ := masterRead_keeps (s := { s with inputs := rest }) hidle a none .low ns
    exact ⟨t1, t2, _, h1, h2, h3,
      masterSample_takes_cell (s := { s with inputs := rest }) hfree hidle hns hacc hnew, hchip, hpins, hinputs⟩

end Sys2Proof.Machine
end

section

namespace Sys2Proof.Machine

open Sys2Proof.Safety

/-! ### The erase cycle (R67) -/

theorem chipDecode_e3_unlock (p : Params) (n t : Nat) : chipDecode p n unlockA1 unlockD1 t .e3 = .e4 := by
  simp [chipDecode]

theorem chipDecode_e4_unlock (p : Params) (n t : Nat) : chipDecode p n unlockA2 unlockD2 t .e4 = .e5 := by
  simp [chipDecode]

/-- The confirming write starts an erase cycle, which ends within `T_EC_CHIP`. -/
theorem chipDecode_e5_confirm (p : Params) (n t : Nat) :
    ∃ td, chipDecode p n unlockA1 cmdEraseConfirm t .e5 = .erase t td n ∧ t ≤ td ∧ td ≤ t + p.ecChip := by
  refine ⟨t + bounded p.ecChip (Config.freeCycle n), ?_, Nat.le_add_right _ _, Nat.add_le_add_left (bounded_le _ _) t⟩
  simp [chipDecode]

/-- From the confirming write on every cell is a free value. -/
theorem chipWrite_confirm {p : Params} {c : Chip} (h : c.cs = .e5) (n t : Nat) :
    (chipWrite p n unlockA1 cmdEraseConfirm t c).flash = openFlash p n := by
  obtain ⟨td, hd, -⟩ := chipDecode_e5_confirm p n t
  have hsettle : chipSettle p t c = c := chipSettle_still (T := t) (by simp [StillUntil, h])
  simp only [chipWrite, hsettle, h, hd, cellsAfter]

/-- Until its bound an erase cycle runs, every cell a free value anew. -/
theorem chipElapse_erase_runs {p : Params} {c : Chip} {ts td dr t : Nat} (h : c.cs = .erase ts td dr)
    (ht : t < ts + p.ecChip) (n : Nat) : chipElapse p n t c = { c with flash := openFlash p n } := by
  unfold chipElapse
  rw [h]
  exact if_neg ht.not_ge

theorem chipElapse_erase_ends {p : Params} {c : Chip} {ts td dr t : Nat} (h : c.cs = .erase ts td dr)
    (ht : ts + p.ecChip ≤ t) (n : Nat) : chipElapse p n t c = chipErased p dr c := by
  unfold chipElapse
  rw [h]
  exact if_pos ht

theorem chipSettle_erase {p : Params} {c : Chip} {ts td dr : Nat} (h : c.cs = .erase ts td dr) (t : Nat) :
    chipSettle p t c = if td ≤ t then chipErased p dr c else c := by
  unfold chipSettle
  rw [h]

/-- An erase cycle as it is before its own end. -/
theorem chipNow_erase_runs {p : Params} {c : Chip} {ts td dr t : Nat} (h : c.cs = .erase ts td dr)
    (hd : td ≤ ts + p.ecChip) (ht : t < td) (n : Nat) :
    chipSettle p t (chipElapse p n t c) = { c with flash := openFlash p n } := by
  rw [chipElapse_erase_runs h (ht.trans_le hd), chipSettle_erase (by exact h), if_neg ht.not_ge]

/-- From its own end on the chip is erased, whether its bound has passed or not. -/
theorem chipNow_erase_ends {p : Params} {c : Chip} {ts td dr t : Nat} (h : c.cs = .erase ts td dr) (ht : td ≤ t)
    (n : Nat) : chipSettle p t (chipElapse p n t c) = chipErased p dr c := by
  by_cases hb : ts + p.ecChip ≤ t
  · rw [chipElapse_erase_ends h hb, chipSettle_idle (chipErased_cs p dr c)]
  · rw [chipElapse_erase_runs h (Nat.not_le.mp hb), chipSettle_erase (by exact h), if_pos ht]
    rfl

/-- Settles O50: the three writes, the running cycle and its end have a lemma each. -/
theorem chipErases : Obligations.ChipErases := by
  unfold Obligations.ChipErases
  intro p n t
  obtain ⟨td, hd, hlo, hhi⟩ := chipDecode_e5_confirm p n t
  refine ⟨chipDecode_e3_unlock p n t, chipDecode_e4_unlock p n t, ⟨td, n, hd, hlo, hhi⟩,
    fun c hc => chipWrite_confirm hc n t, fun c td dr t' hc hbound => ⟨fun ht => chipNow_erase_runs hc hbound ht n, fun ht => ?_⟩⟩
  rw [chipNow_erase_ends hc ht, chipErased_flash]
  refine ⟨rfl, fun hok a => ?_, fun hslow => if_neg hslow⟩
  rw [erasedCells_ok hok]
  rfl

/-! ### The program cycle (R66) -/

/-- A load window that has run out starts a program cycle, whose end lies between the end of the window and the bound. -/
theorem chipElapse_load_runs {p : Params} {c : Chip} {pg : PageIdx} {lb : PageLatch} {tl t : Nat}
    (h : c.cs = .load (some pg) lb tl) (hlo : tl + loadGapMax < t) (hhi : t < tl + p.wcChip) (n : Nat) :
    ∃ td, chipElapse p n t c = { c with flash := runningCells p n pg c.flash, cs := .prog pg lb tl td n } ∧
      tl + loadGapMax ≤ td ∧ td ≤ tl + p.wcChip := by
  refine ⟨tl + loadGapMax + bounded (p.wcChip - loadGapMax) (Config.freeCycle n), ?_, Nat.le_add_right _ _, ?_⟩
  · unfold chipElapse
    rw [h]
    exact (if_pos hlo).trans (if_neg hhi.not_ge)
  · have := bounded_le (p.wcChip - loadGapMax) (Config.freeCycle n)
    omega

/-- A chip whose program cycle is over for certain has committed its page. -/
theorem chipElapse_load_ends {p : Params} {c : Chip} {pg : PageIdx} {lb : PageLatch} {tl t : Nat}
    (h : c.cs = .load (some pg) lb tl) (hgap : loadGapMax < p.wcChip) (ht : tl + p.wcChip ≤ t) (n : Nat) :
    chipElapse p n t c = chipCommitted p pg lb n c := by
  unfold chipElapse
  rw [h]
  exact (if_pos (by omega)).trans (if_pos ht)

theorem chipSettle_prog {p : Params} {c : Chip} {pg : PageIdx} {lb : PageLatch} {tl td dr t : Nat}
    (h : c.cs = .prog pg lb tl td dr) (ht : td ≤ t) : chipSettle p t c = chipCommitted p pg lb dr c := by
  unfold chipSettle
  rw [h]
  exact if_pos ht

/-- A page committed over its own open cells is the page committed. -/
theorem read_commitPage_openPage {p : Params} {m : List Host.Cell} (h : Memory.wf p m = true) (n k : Nat) (pg : PageIdx)
    (lb : PageLatch) (a : Nat) :
    Memory.read p (commitPage p n pg lb (openPage p k pg m)) a =
      if a / pageSize = pg.toNat then latchByte n lb (a % pageSize) else Memory.read p m a := by
  rw [read_commitPage p n pg lb _ a (wf_openPage p k pg m h), read_openPage p k pg m a h]
  split <;> rfl

/-- Settles O53: the three clauses are a window still open, a cycle that runs and then ends, and a cycle over for certain. -/
theorem chipCommitsThePage : Obligations.ChipCommitsThePage := by
  unfold Obligations.ChipCommitsThePage
  intro p n t tl pg lb c hm hgap hc
  refine ⟨fun ht => chipElapse_still (T := tl + loadGapMax) (by rw [hc]; exact le_refl _) ht, fun hlo hhi => ?_, fun ht => ?_⟩
  · obtain ⟨td, he, hmin, hmax⟩ := chipElapse_load_runs hc hlo hhi n
    rw [he]
    refine ⟨td, n, rfl, hmin, hmax, fun hok a => ?_, fun hslow => if_neg hslow, fun t' ht' => ?_⟩
    · dsimp only
      rw [runningCells_ok hok]
      exact read_openPage p n pg c.flash a hm
    · rw [chipSettle_prog rfl ht', chipCommitted_flash]
      refine ⟨chipCommitted_cs p pg lb n _, fun hok a => ?_, fun hslow => if_neg hslow⟩
      dsimp only
      rw [programmedCells_ok hok, runningCells_ok hok]
      exact read_commitPage_openPage hm n n pg lb a
  · rw [chipElapse_load_ends hc hgap ht, chipCommitted_flash]
    refine ⟨chipCommitted_cs p pg lb n c, fun hok a => ?_, fun hslow => if_neg hslow⟩
    rw [programmedCells_ok hok]
    exact read_commitPage p n pg lb c.flash a hm

/-! ### Writes without meaning (R69) -/

/-- A load has no meaning after the gap, and within it at another page (R65, R69). -/
theorem chipLoad_eq_noMeaning_iff (pg : Option PageIdx) (lb : PageLatch) (tl : Nat) (a : Addr) (d : Byte) (t : Nat) :
    chipLoad pg lb tl a d t = .noMeaning ↔ tl + loadGapMax < t ∨ ∃ q, pg = some q ∧ q ≠ pageOf a := by
  by_cases ht : t ≤ tl + loadGapMax
  · cases pg with
    | none => simp [chipLoad, ht]
    | some q => by_cases hq : q = pageOf a <;> simp [chipLoad, ht, hq]
  · simp [chipLoad, ht, Nat.not_le.mp ht]

theorem chipSees_noMeaning {c : Chip} (h : c.cs = .noMeaning) (p : Params) (n t : Nat) (old new : Pins) :
    (chipSees p n old new t c).cs = .noMeaning := by
  rw [← hasMeaning_false, ← Bool.not_eq_true]
  intro hm
  have hmeaning := chipSees_hasMeaning hm
  rw [h] at hmeaning
  cases hmeaning

/-- A single listed write. -/
theorem ite_eq_noMeaning_iff {P : Prop} [Decidable P] {cs : ChipState} (h : cs ≠ .noMeaning) :
    (if P then cs else .noMeaning) = .noMeaning ↔ ¬ P := by
  simp [h]

/-- Two listed writes. -/
theorem ite_ite_eq_noMeaning_iff {P Q : Prop} [Decidable P] [Decidable Q] {cs cs' : ChipState} (h : cs ≠ .noMeaning)
    (h' : cs' ≠ .noMeaning) :
    (if P then cs else if Q then cs' else .noMeaning) = .noMeaning ↔ ¬ P ∧ ¬ Q := by
  by_cases hP : P
  · simp [hP, h]
  · simp [hP, h']

/-- Settles O52: in each command state the listed writes are the conditions of `chipDecode`, and a chip without meaning stays so by
the lemmas about the passing of time and the pins. -/
theorem chipGivesNothingElseAMeaning : Obligations.ChipGivesNothingElseAMeaning := by
  unfold Obligations.ChipGivesNothingElseAMeaning
  intro p n a d t
  refine ⟨?_, ?_, ?_, ?_, ?_, ?_, fun pg lb tl => chipLoad_eq_noMeaning_iff pg lb tl a d t, fun _ _ _ _ _ => rfl,
    fun _ _ _ => rfl, rfl, fun c hc => ?_, fun c hc => ?_⟩
  · exact ite_eq_noMeaning_iff (by simp)
  · exact ite_eq_noMeaning_iff (by simp)
  · rw [and_or_left, not_or]
    exact ite_ite_eq_noMeaning_iff (by simp) (by simp)
  · exact ite_eq_noMeaning_iff (by simp)
  · exact ite_eq_noMeaning_iff (by simp)
  · exact ite_eq_noMeaning_iff (by simp)
  · have hcs : chipDecode p n a d t (chipSettle p t c).cs = .noMeaning := hc
    simp only [chipWrite, hcs, cellsAfter]
  · have hsettle : chipSettle p t c = c := by
      unfold chipSettle
      rw [hc]
    rw [chipElapse_noMeaning hc, hsettle]
    exact ⟨rfl, rfl, hc, chipSees_noMeaning hc p n t⟩

/-! ### The write pulse (R60, U10) -/

section

variable {p : Params} {n t : Nat} {old new : Pins} {c : Chip}

/-- A falling edge with all lines driven is a write cycle. -/
theorem chipSees_falls (ho : old.mayWrite = false) (hn : new.inWriteCycle = true) :
    chipSees p n old new t c = chipWrite p n new.addr new.dq.val t c := by
  simp [chipSees, ho, hn, mayWrite_of_inWriteCycle hn]

theorem chipSees_falls_unclean (ho : old.mayWrite = false) (hn : new.mayWrite = true) (hw : new.inWriteCycle = false) :
    chipSees p n old new t c = chipLost p n c := by
  simp [chipSees, ho, hn, hw]

theorem chipSees_rises (ho : old.mayWrite = true) (hn : new.mayWrite = false) :
    chipSees p n old new t c = if c.tFall + p.wpChip ≤ t then c else chipLost p n c := by
  simp [chipSees, ho, hn]

theorem chipSees_during (ho : old.mayWrite = true) (hn : new.mayWrite = true) (hne : old ≠ new) :
    chipSees p n old new t c = chipLost p n c := by
  simp [chipSees, ho, hn, hne]

theorem chipSees_steady (h : old = new) (ho : old.mayWrite = true) : chipSees p n old new t c = c := by
  subst h
  simp [chipSees, ho]

theorem chipSees_outside (ho : old.mayWrite = false) (hn : new.mayWrite = false) : chipSees p n old new t c = c := by
  simp [chipSees, ho, hn]

end

theorem mayWrite_driven (a : Addr) (d : Byte) : (drivenPins a d).mayWrite = false := rfl

theorem mayWrite_pulse (a : Addr) (d : Byte) : (pulsePins a d).mayWrite = true := rfl

theorem inWriteCycle_pulse (a : Addr) (d : Byte) : (pulsePins a d).inWriteCycle = true := rfl

/-- The passing of time does not move the noted falling edge. -/
theorem chipAged_tFall (p : Params) : ∀ (l : List (Nat × Nat)) (c : Chip), (chipAged p l c).tFall = c.tFall
  | [], _ => rfl
  | x :: rest, c => (chipAged_tFall p rest (chipElapse p x.1 x.2 c)).trans (chipElapse_tFall p x.1 x.2 c)

/-- W1 and W2 from driving ports: the chip ages, and takes the write cycle at the end of W2 (R60, R142). -/
theorem writeByte_falls {s : State} (h : PinState.sWidle.holds s.pins = true) (a : Addr) (d : Byte) :
    (stepW2 (stepW1 a d s)).pins = pulsePins a d ∧
      ∃ l, (∀ x ∈ l, s.now ≤ x.2 ∧ x.2 ≤ (stepW2 (stepW1 a d s)).now) ∧
        (stepW2 (stepW1 a d s)).chip =
          chipWrite s.params (s.draws + 1) a d (stepW2 (stepW1 a d s)).now (chipAged s.params l s.chip) := by
  obtain ⟨a', d', hq⟩ := (sWidle_iff _).mp h
  have hp1 : (stepW1 a d s).pins = drivenPins a d := by
    rw [stepW1, pinUpdate_pins, hq]
    rfl
  have hp2 : (stepW2 (stepW1 a d s)).pins = pulsePins a d := by
    rw [stepW2, pinUpdate_pins, hp1]
    rfl
  have haged : Aged s (passStep (stepW1 a d s)) :=
    (pinUpdate_aged (by rw [hq]; rfl) (by rw [hq]; rfl)).trans (pass_aged _ (stepW1 a d s))
  obtain ⟨l, hl, hchip⟩ := haged.chip
  refine ⟨hp2, l, hl, ?_⟩
  rw [← hchip]
  have hsees : (stepW2 (stepW1 a d s)).chip =
      chipSees s.params (s.draws + 1) (stepW1 a d s).pins (stepW2 (stepW1 a d s)).pins (stepW2 (stepW1 a d s)).now
        (passStep (stepW1 a d s)).chip := rfl
  rw [hsees, hp1, hp2, chipSees_falls (mayWrite_driven a d) (inWriteCycle_pulse a d), pulsePins_addr]
  rfl

/-- W3 to W5 from the pulse: if it is long enough for the chip, the chip ages only; else it has no meaning (R60, U10). -/
theorem pulse_rises {u : State} {a : Addr} {d : Byte} (hp : u.pins = pulsePins a d) :
    (u.chip.tFall + u.params.wpChip ≤ (stepW4 (stepW3 u)).now → Aged u (stepW5 (stepW4 (stepW3 u)))) ∧
      ((stepW4 (stepW3 u)).now < u.chip.tFall + u.params.wpChip → (stepW5 (stepW4 (stepW3 u))).chip.cs = .noMeaning) := by
  have hp3 : (stepW3 u).pins = pulsePins a d := hp
  have hp4 : (stepW4 (stepW3 u)).pins = drivenPins a d := by
    rw [stepW4, pinUpdate_pins, hp3]
    rfl
  have hsees : (stepW4 (stepW3 u)).chip =
      chipSees u.params (u.draws + 1) (stepW3 u).pins (stepW4 (stepW3 u)).pins (stepW4 (stepW3 u)).now
        (passStep (stepW3 u)).chip := rfl
  have hfall : (passStep (stepW3 u)).chip.tFall = u.chip.tFall :=
    (chipElapse_tFall _ _ _ _).trans (chipElapse_tFall _ _ _ _)
  rw [hp3, hp4, chipSees_rises (mayWrite_pulse a d) (mayWrite_driven a d), hfall] at hsees
  constructor
  · intro hlong
    rw [if_pos hlong] at hsees
    have h3 : Aged u (stepW3 u) := delay_aged _ _ u
    have h4 : Aged (stepW3 u) (stepW4 (stepW3 u)) := aged_one rfl (Nat.le_add_right _ _) hsees
    exact (h3.trans h4).trans (delay_aged _ _ _)
  · intro hshort
    rw [if_neg (Nat.not_le.mpr hshort)] at hsees
    have hlost : (stepW4 (stepW3 u)).chip.cs = .noMeaning := by
      rw [hsees]
      rfl
    exact (delay_lost .writeRecovery _ hlost).1

/-- Settles O60: the edges and the pulse have a lemma for each case of `chipSees`; a `writeByte` is `writeByte_falls`, then
`pulse_rises`. -/
theorem chipJudgesTheWritePulse : Obligations.ChipJudgesTheWritePulse := by
  unfold Obligations.ChipJudgesTheWritePulse
  refine ⟨fun p n t old new c => ⟨fun ho hn => ?_, chipSees_falls_unclean, fun ho hn hlong => ?_, fun ho hn hshort => ?_,
    chipSees_during, fun ho h => chipSees_steady h ho, chipSees_outside⟩, fun s a d h => ?_⟩
  · rw [chipSees_falls ho hn]
    exact ⟨rfl, rfl⟩
  · rw [chipSees_rises ho hn, if_pos hlong]
  · rw [chipSees_rises ho hn, if_neg (Nat.not_le.mpr hshort)]
  · obtain ⟨hpulse, l1, hl1, hchip⟩ := writeByte_falls h a d
    obtain ⟨hlong, hshort⟩ := pulse_rises hpulse
    have hfall : (stepW2 (stepW1 a d s)).chip.tFall = (stepW2 (stepW1 a d s)).now := by
      rw [hchip]
      rfl
    rw [hfall] at hlong hshort
    by_cases hw : (stepW2 (stepW1 a d s)).now + s.params.wpChip ≤ (stepW4 (stepW3 (stepW2 (stepW1 a d s)))).now
    · obtain ⟨l2, hl2, haged⟩ := (hlong hw).chip
      rw [hchip] at haged
      exact ⟨_, _, _, _, _, _, _, _, l1, l2, writeByte_trace h a d, hl1, hl2, fun _ => haged, hshort⟩
    · exact ⟨_, _, _, _, _, _, _, 0, l1, [], writeByte_trace h a d, hl1, by simp, fun hle => absurd hle hw, hshort⟩

end Sys2Proof.Machine
end

section

namespace Sys2Proof.Machine

open Sys2Proof.Safety

/-! ### What a sequence and a window show on the bus (R96, R98, R169, R191, R193) -/

/-- From the pins at rest, a sequence shows its writes and no read, its wait is the last delay, and every snapshot but that of the
final release drives all ports. -/
theorem writeSequence_emits {s : State} (h : s.pins = capturedPins) (kind : DelayKind) (T : Nat) (l : List (Addr × Byte)) :
    ∃ e d, (writeSequence kind T l s).trace = s.trace ++ e ∧ (writeCycles s.pins e).map Prod.snd = l ∧
      readCycles s.pins e = [] ∧ (delays e).getLast? = some (kind, d) ∧ T ≤ d ∧
      ∀ q ∈ snapshots e.dropLast, portsOut q = true := by
  obtain ⟨e, n, d, htrace, hwrites, hreads, hfloor, -, hout, -⟩ := writeSequence_trace h kind T l
  refine ⟨_, d, htrace, by rw [hwrites, writeTimes_snd], hreads, ?_, hfloor, ?_⟩
  · simp [delays_append, delays]
  · have hlast : (e ++ [TraceEntry.delay n kind d, .pins (writeSequence kind T l s).now capturedPins]).dropLast =
        e ++ [.delay n kind d] := by
      rw [List.dropLast_append_of_ne_nil (List.cons_ne_nil _ _)]
      rfl
    rw [hlast, snapshots_append]
    simpa [snapshots] using hout

/-- Before a capture of a bus given back write enable is high (R36). -/
theorem we_high_of_free {s : State} (h : Free s) : s.pins.we = .high := by
  obtain ⟨-, v, hpins⟩ := h
  rw [hpins]
  rfl

/-- A capture and a release around an inner operation show no bus cycle of their own (R120, R121). -/
theorem inWindow_emits {inner : State → State} {s : State} {e : List TraceEntry} (h : Free s)
    (htrace : (inner (captureBus s)).trace = (captureBus s).trace ++ e) :
    ∃ e', (inWindow inner s).trace = s.trace ++ e' ∧ writeCycles s.pins e' = writeCycles capturedPins e ∧
      readCycles s.pins e' = readCycles capturedPins e := by
  have hlast : lastPins s.pins (captureEntries s) = capturedPins := rfl
  refine ⟨captureEntries s ++ (e ++ releaseEntries (inner (captureBus s))), ?_, ?_, ?_⟩
  · rw [inWindow, releaseBus_trace, htrace, captureBus_trace, List.append_assoc, List.append_assoc]
  · rw [writeCycles_append, writeCycles_append, writeCycles_captureEntries (we_high_of_free h),
      writeCycles_releaseEntries, hlast, List.nil_append, List.append_nil]
  · rw [readCycles_append, readCycles_append, readCycles_captureEntries, readCycles_releaseEntries, hlast,
      List.nil_append, List.append_nil]

@[simp] theorem operate_smp (body : State → State) (s : State) : (operate body s).smp = (body (begin s)).smp := rfl

/-- A capture and a release neither sample nor emit (R120, R121). -/
theorem inWindow_smp (inner : State → State) (s : State) : (inWindow inner s).smp = (inner (captureBus s)).smp := rfl

theorem inWindow_rsp (inner : State → State) (s : State) : (inWindow inner s).rsp = (inner (captureBus s)).rsp := rfl

theorem operate_inWindow_free (inner : State → State) (s : State) : Free (operate (inWindow inner) s) :=
  ⟨rfl, _, releaseBus_pins (inner (captureBus (begin s)))⟩

theorem exec_erase_ctrl {s : State} (h : s.own = .ctrl) : exec .erase s = .next (operate eraseChip s) := if_pos h

theorem exec_cmdw_ext {s : State} (h : s.own = .ext) (page : PageIdx) :
    exec (.cmdw page) s = .next (operate (inWindow (writePage (pageBase page))) s) := if_pos h

theorem exec_cmdd_ext {s : State} (h : s.own = .ext) (page : PageIdx) :
    exec (.cmdd page) s = .next (operate (inWindow (readPage (pageBase page))) s) := if_pos h

theorem exec_cmde_ext {s : State} (h : s.own = .ext) : exec .cmde s = .next (operate (inWindow eraseChip) s) := if_pos h

/-- From the pins at rest a page write is a sequence of its 131 writes (R162). -/
theorem writePage_emits {s : State} (h : s.pins = capturedPins) (base : Addr) :
    ∃ e d, (writePage base s).trace = s.trace ++ e ∧ (writeCycles s.pins e).map Prod.snd = pageWriteCycles base s.pbuf ∧
      readCycles s.pins e = [] ∧ (delays e).getLast? = some (.program, d) ∧ s.params.progWait ≤ d ∧
      ∀ q ∈ snapshots e.dropLast, portsOut q = true := by
  rw [writePage_sequence]
  exact writeSequence_emits h .program s.params.progWait (pageWriteCycles base s.pbuf)

/-- From the pins at rest a chip erase is a sequence of its six writes (R163). -/
theorem eraseChip_emits {s : State} (h : s.pins = capturedPins) :
    ∃ e d, (eraseChip s).trace = s.trace ++ e ∧ (writeCycles s.pins e).map Prod.snd = eraseWriteCycles ∧
      readCycles s.pins e = [] ∧ (delays e).getLast? = some (.erase, d) ∧ s.params.eraseWait ≤ d ∧
      ∀ q ∈ snapshots e.dropLast, portsOut q = true := by
  rw [eraseChip_sequence]
  exact writeSequence_emits h .erase s.params.eraseWait eraseWriteCycles

theorem writePage_smp (base : Addr) (s : State) : (writePage base s).smp = s.smp := by
  rw [writePage_sequence, writeSequence_smp]

theorem writePage_rsp (base : Addr) (s : State) : (writePage base s).rsp = s.rsp := by
  rw [writePage_sequence, writeSequence_rsp]

theorem eraseChip_smp (s : State) : (eraseChip s).smp = s.smp := by
  rw [eraseChip_sequence, writeSequence_smp]

theorem eraseChip_rsp (s : State) : (eraseChip s).rsp = s.rsp := by
  rw [eraseChip_sequence, writeSequence_rsp]

/-- A chip erase leaves a captured bus at rest captured and at rest (R163). -/
theorem operate_eraseChip_held {s : State} (h : Held s) : Held (operate eraseChip s) := by
  obtain ⟨hown, hpins⟩ := h
  refine ⟨(eraseChip_context (begin s)).own.trans hown, ?_⟩
  rw [operate_pins, eraseChip_sequence]
  exact writeSequence_pins (by exact hpins) _ _ _

/-- Settles O18: the bus shows the sequence of the page write, which keeps its surroundings. -/
theorem wrpageEmitsThePageWrite : Obligations.WrpageEmitsThePageWrite := by
  unfold Obligations.WrpageEmitsThePageWrite
  intro s base h
  obtain ⟨e, d, htrace, hwrites, hreads, hdelay, hfloor, -⟩ := writePage_emits (s := begin s) h.2 base
  have hcontext := writePage_context base (begin s)
  exact ⟨operate (writePage base) s, e, d, exec_wrpage_ctrl h.1 base, htrace, hwrites, hreads, hdelay, hfloor,
    operate_writePage_held h base, ⟨rfl, rfl⟩, operate_keepsSurroundings hcontext.keepsSurroundings,
    (operate_pbuf _ s).trans hcontext.pbuf, (operate_smp _ s).trans (writePage_smp base _), operate_writePage_rsp base s⟩

/-- Settles O22: the bus shows the sequence of the erase, which keeps its surroundings. -/
theorem eraseEmitsSixWrites : Obligations.EraseEmitsSixWrites := by
  unfold Obligations.EraseEmitsSixWrites
  intro s h
  obtain ⟨e, d, htrace, hwrites, hreads, hdelay, hfloor, -⟩ := eraseChip_emits (s := begin s) h.2
  have hcontext := eraseChip_context (begin s)
  exact ⟨operate eraseChip s, e, d, exec_erase_ctrl h.1, htrace, hwrites, hreads, hdelay, hfloor,
    operate_eraseChip_held h, ⟨rfl, rfl⟩, operate_keepsSurroundings hcontext.keepsSurroundings,
    (operate_pbuf _ s).trans hcontext.pbuf, (operate_smp _ s).trans (eraseChip_smp _),
    (operate_rsp _ s).trans (eraseChip_rsp _)⟩

/-- Settles O21: both operations are sequences. -/
theorem noDirectionChangeInsideASequence : Obligations.NoDirectionChangeInsideASequence := by
  unfold Obligations.NoDirectionChangeInsideASequence
  intro s base h
  obtain ⟨e, -, htrace, -, -, -, -, hout⟩ := writePage_emits (s := begin s) h.2 base
  obtain ⟨e', -, htrace', -, -, -, -, hout'⟩ := eraseChip_emits (s := begin s) h.2
  exact ⟨⟨_, e, exec_wrpage_ctrl h.1 base, htrace, hout⟩, ⟨_, e', exec_erase_ctrl h.1, htrace', hout'⟩⟩

/-- Settles O27: in the window the bus shows the page write, and the window keeps what the page write keeps. -/
theorem cmdwEmitsThePageWrite : Obligations.CmdwEmitsThePageWrite := by
  unfold Obligations.CmdwEmitsThePageWrite
  intro s page h
  have hcontext := writePage_context (pageBase page)
  obtain ⟨e, -, htrace, hwrites, hreads, -⟩ := writePage_emits (captureBus_pins (begin s)) (pageBase page)
  obtain ⟨e', htrace', hwrites', hreads'⟩ := inWindow_emits (s := begin s) h htrace
  refine ⟨_, e', exec_cmdw_ext h.1 page, htrace', ?_, ?_, operate_inWindow_free _ s, ⟨rfl, rfl⟩,
    operate_keepsSurroundings (inWindow_keepsSurroundings hcontext (begin s)),
    (operate_pbuf _ s).trans (inWindow_pbuf hcontext (begin s)),
    ((operate_smp _ s).trans (inWindow_smp _ _)).trans (writePage_smp _ _),
    ((operate_rsp _ s).trans (inWindow_rsp _ _)).trans (writePage_rsp _ _)⟩
  · exact (congrArg (List.map Prod.snd) hwrites').trans hwrites
  · exact hreads'.trans hreads

/-! ### The page that a page write leaves (R66, R162, R191) -/

/-- Where a full latch was committed to a page, the page holds the buffer and every other cell what it held. -/
theorem cell_committed {s t : State} {n : Nat} {pg : PageIdx} {lb : PageLatch} (hp : t.params = s.params)
    (hm : Memory.wf s.params s.chip.flash = true) (hs : s.chip.cs = .idle) (ht : t.chip.cs = .idle)
    (hflash : t.chip.flash = commitPage s.params n pg lb s.chip.flash) (hl : LoadedUpTo s.pbuf 128 lb) (a : Nat) :
    cell t a = if a / 128 = pg.toNat then bufByte s.pbuf (a % 128) else cell s a := by
  have hoff : a % 128 < 128 := Nat.mod_lt a (by decide)
  rw [cell_idle ht, cell_idle hs, hp, hflash, read_commitPage s.params n pg lb s.chip.flash a hm, pageSize,
    latchByte_loaded hl n hoff]

/-- Settles O19: the operation commits the whole buffer to the page of the base. -/
theorem wrpageProgramsThePage : Obligations.WrpageProgramsThePage := by
  unfold Obligations.WrpageProgramsThePage
  intro s base h hp hc hi hm hb
  obtain ⟨t, n, lb, hexec, -, hparams, -, hidle, hflash, hloaded⟩ := exec_wrpage_commits h hp hc hi hb
  refine ⟨t, hexec, hidle, ?_, fun a _ => ?_⟩
  · rw [hparams, hflash]
    exact Memory.wf_commitPage _ n _ lb _ hm
  · rw [cell_committed hparams hm hi hidle hflash hloaded a, pageOf_toNat, pageSize]

/-- A capture of a bus given back, and the release after it, do not move an idle chip (R120, R121). -/
theorem captureBus_chip_idle {s : State} (h : Free s) (hi : s.chip.cs = .idle) : (captureBus s).chip = s.chip :=
  (captureBus_aged (we_high_of_free h)).still (stillUntil_idle hi _)

theorem releaseBus_chip_idle {s : State} (h : s.pins = capturedPins) (hi : s.chip.cs = .idle) :
    (releaseBus s).chip = s.chip :=
  (releaseBus_aged (by rw [h]; rfl)).still (stillUntil_idle hi _)

theorem writePage_pins {s : State} (h : s.pins = capturedPins) (base : Addr) : (writePage base s).pins = capturedPins := by
  rw [writePage_sequence]
  exact writeSequence_pins h _ _ _

theorem eraseChip_pins {s : State} (h : s.pins = capturedPins) : (eraseChip s).pins = capturedPins := by
  rw [eraseChip_sequence]
  exact writeSequence_pins h _ _ _

/-- The base of a page is aligned, and lies in it (R56). -/
theorem pageBase_aligned (page : PageIdx) : (pageBase page).toNat % 128 = 0 ∧ pageOf (pageBase page) = page := by
  refine ⟨by rw [pageBase_toNat]; omega, BitVec.eq_of_toNat_eq ?_⟩
  rw [pageOf_toNat, pageBase_toNat, pageSize]
  omega

/-- A page write in the window ends in the commit of the whole buffer to its page, the chip idle (R191). -/
theorem cmdw_commits {s : State} (h : Free s) (hp : s.params.Legal) (hc : s.params.ChipTimingOK)
    (hi : s.chip.cs = .idle) (page : PageIdx) :
    ∃ n lb, (inWindow (writePage (pageBase page)) s).chip.cs = .idle ∧
      (inWindow (writePage (pageBase page)) s).chip.flash = commitPage s.params n page lb s.chip.flash ∧
      LoadedUpTo s.pbuf 128 lb := by
  have hchip := captureBus_chip_idle h hi
  obtain ⟨haligned, hpage⟩ := pageBase_aligned page
  obtain ⟨n, lb, hidle, hflash, hloaded⟩ := writeSequence_commits (captureBus_pins s) hp hc (hchip ▸ hi) haligned
  rw [← writePage_sequence] at hidle hflash
  rw [inWindow, releaseBus_chip_idle (writePage_pins (captureBus_pins s) _) hidle]
  rw [hpage, hchip] at hflash
  exact ⟨n, lb, hidle, hflash, hloaded⟩

/-- Settles O28: the window commits the whole buffer to the page. -/
theorem cmdwProgramsThePage : Obligations.CmdwProgramsThePage := by
  unfold Obligations.CmdwProgramsThePage
  intro s page h hp hc hi hm
  obtain ⟨n, lb, hidle, hflash, hloaded⟩ := cmdw_commits (s := begin s) h hp hc hi page
  obtain ⟨-, -, -, -, hparams, -⟩ := inWindow_keepsSurroundings (writePage_context (pageBase page)) (begin s)
  rw [← operate_params, begin_params] at hparams
  refine ⟨_, exec_cmdw_ext h.1 page, hidle, ?_, fun a _ => cell_committed hparams hm hi hidle hflash hloaded a⟩
  rw [hparams, operate_chip, hflash]
  exact Memory.wf_commitPage _ n _ lb _ hm

/-! ### The page dump (R192) -/

theorem readPage_pins {s : State} (h : s.pins = capturedPins) (base : Addr) : (readPage base s).pins = capturedPins := by
  rw [readPage_eq]
  exact readAll_pins base h pageSize

/-- A page read in the window only lets the chip age (R68, R192). -/
theorem cmdd_aged {s : State} (h : Free s) (base : Addr) : Aged s (inWindow (readPage base) s) := by
  have hread : Aged (captureBus s) (readPage base (captureBus s)) := readAll_aged base (captureBus_pins s) pageSize
  have hwe : (readPage base (captureBus s)).pins.we = .high := by
    rw [readPage_pins (captureBus_pins s)]
    rfl
  exact ((captureBus_aged (we_high_of_free h)).trans hread).trans (releaseBus_aged hwe)

/-- The addresses of a page from its base on (R56). -/
theorem addrAt_pageBase (page : PageIdx) {i : Nat} (hi : i < 128) :
    (addrAt (pageBase page) i).toNat = 128 * page.toNat + i := by
  have := page.isLt
  rw [addrAt_toNat, pageBase_toNat]
  omega

/-- Settles O29: the row of reads appends 128 bytes, those of an idle chip its cells; the whole only lets the chip age. -/
theorem cmddDumpsThePage : Obligations.CmddDumpsThePage := by
  unfold Obligations.CmddDumpsThePage
  intro s page h
  have hcontext := readPage_context (pageBase page)
  have haged := operate_aged (cmdd_aged (s := begin s) h (pageBase page))
  obtain ⟨-, bytes, -, hrsp, hlen, -⟩ := readAll_trace (pageBase page) (captureBus_pins (begin s)) pageSize
  refine ⟨_, bytes, exec_cmdd_ext h.1 page, hrsp, hlen, operate_inWindow_free _ s, ⟨rfl, rfl⟩,
    operate_keepsSurroundings (inWindow_keepsSurroundings hcontext (begin s)),
    (operate_pbuf _ s).trans (inWindow_pbuf hcontext (begin s)),
    haged.chip, haged.still, fun hi hacc => ?_⟩
  have hchip := captureBus_chip_idle (s := begin s) h hi
  have hcells := readAll_rsp_idle (pageBase page) (captureBus_pins (begin s)) (hchip ▸ hi) hacc pageSize
  rw [hrsp] at hcells
  rw [List.append_cancel_left hcells, hchip]
  refine List.map_congr_left fun i hmem => ?_
  rw [addrAt_pageBase page (List.mem_range.mp hmem), cell_idle hi]
  rfl

end Sys2Proof.Machine
end

section

namespace Sys2Proof.Machine

open Sys2Proof.Safety

/-! ### Writes one after the other at a chip that time does not move in between (R64, R65, R167) -/

/-- The block drives its ports between two writes, the parameters meet their constraints, and time does not move the chip until the
next write. -/
structure WriteReady (s : State) : Prop where
  pins : PinState.sWidle.holds s.pins = true
  legal : s.params.Legal
  pulse : s.params.wpChip ≤ wpMin
  calm : Calm s

/-- Turning the ports out does not move an idle chip, and makes the block ready (R131). -/
theorem writeReady_setBusOut {s : State} (h : s.pins = capturedPins) (hp : s.params.Legal) (hc : s.params.ChipTimingOK)
    (hi : s.chip.cs = .idle) : WriteReady (setBusOut s) ∧ (setBusOut s).chip.cs = .idle := by
  have hchip : (setBusOut s).chip = s.chip := by
    rw [setBusOut, pinUpdate_chip, passStep_chip, chipElapse_idle hi]
    exact chipSees_of_we_high (by rw [h]; rfl) (by rw [h]; rfl)
  have hidle : (setBusOut s).chip.cs = .idle := hchip ▸ hi
  exact ⟨⟨setBusOut_sWidle h, hp, hc.1, calm_idle hidle⟩, hidle⟩

/-- Writes that leave the chip calm leave the block ready. -/
theorem WriteReady.writes {s : State} (h : WriteReady s) (l : List (Addr × Byte)) (hcalm : Calm (writeAll l s)) :
    WriteReady (writeAll l s) := by
  have hparams := (writeAll_context l s).params
  exact ⟨writeAll_sWidle l h.pins, hparams ▸ h.legal, hparams.symm ▸ h.pulse, hcalm⟩

/-- A write that the chip decodes, and that starts no cycle, leaves the block ready for the next one. -/
theorem WriteReady.write {s : State} (h : WriteReady s) {a : Addr} {d : Byte} {cs : ChipState}
    (hd : chipDecode s.params (s.draws + 1) a d (writeTime s) s.chip.cs = cs) (hk : StillUntil 0 cs)
    (hl : ∀ pg lb tl, cs = .load pg lb tl → tl = writeTime s) :
    WriteReady (writeByte a d s) ∧ (writeByte a d s).chip.cs = cs := by
  obtain ⟨hchip, hcalm⟩ := writeByte_decode h.pins h.legal h.pulse h.calm a d cs hd hk hl
  exact ⟨h.writes [(a, d)] hcalm, by rw [hchip]⟩

/-- A command write, which takes one command state to the next at any time. -/
theorem WriteReady.command {s : State} (h : WriteReady s) {a : Addr} {d : Byte} {cs cs' : ChipState} (hc : s.chip.cs = cs)
    (hd : ∀ p n t, chipDecode p n a d t cs = cs') (hk : StillUntil 0 cs') (hl : ∀ pg lb tl, cs' ≠ .load pg lb tl) :
    WriteReady (writeByte a d s) ∧ (writeByte a d s).chip.cs = cs' :=
  h.write (hc ▸ hd _ _ _) hk fun pg lb tl he => absurd he (hl pg lb tl)

/-- The chip takes the write cycle in the command state it was left in. -/
theorem WriteReady.falls {s : State} (h : WriteReady s) (a : Addr) (d : Byte) :
    (stepW2 (stepW1 a d s)).pins = pulsePins a d ∧ (stepW2 (stepW1 a d s)).chip.tFall = writeTime s ∧
      (stepW2 (stepW1 a d s)).chip.cs = chipDecode s.params (s.draws + 1) a d (writeTime s) s.chip.cs := by
  have hstill := stillUntil_writeTime h.legal h.calm
  obtain ⟨hchip, hpins⟩ := writeByte_fall h.pins a d hstill
  refine ⟨hpins, by rw [hchip]; rfl, ?_⟩
  rw [hchip, chipWrite, chipSettle_still hstill]

/-! ### The effect of a chip erase (R67, R163) -/

/-- An erase cycle begun at `ts` runs, or has left every cell erased. -/
def Erasing (ts : Nat) (c : Chip) : Prop := (∃ td dr, c.cs = .erase ts td dr) ∨ (c.cs = .idle ∧ c.flash = [])

/-- From its bound on an erase cycle is over. -/
theorem Erasing.ends {p : Params} {c : Chip} {ts t : Nat} (h : Erasing ts c) (hok : p.ChipTimingOK)
    (ht : ts + p.ecChip ≤ t) (n : Nat) : (chipElapse p n t c).cs = .idle ∧ (chipElapse p n t c).flash = [] := by
  rcases h with ⟨td, dr, hcs⟩ | ⟨hcs, hflash⟩
  · rw [chipElapse_erase_ends hcs ht, chipErased_flash, erasedCells_ok hok]
    exact ⟨rfl, rfl⟩
  · rw [chipElapse_idle hcs]
    exact ⟨hcs, hflash⟩

theorem Erasing.elapse {p : Params} {c : Chip} {ts : Nat} (h : Erasing ts c) (hok : p.ChipTimingOK) (n t : Nat) :
    Erasing ts (chipElapse p n t c) := by
  by_cases ht : ts + p.ecChip ≤ t
  · exact .inr (h.ends hok ht n)
  · rcases h with ⟨td, dr, hcs⟩ | ⟨hcs, hflash⟩
    · rw [chipElapse_erase_runs hcs (Nat.not_le.mp ht)]
      exact .inl ⟨td, dr, hcs⟩
    · rw [chipElapse_idle hcs]
      exact .inr ⟨hcs, hflash⟩

theorem Erasing.aged {p : Params} {ts : Nat} (hok : p.ChipTimingOK) : ∀ (l : List (Nat × Nat)) {c : Chip},
    Erasing ts c → Erasing ts (chipAged p l c)
  | [], _, h => h
  | x :: rest, _, h => Erasing.aged hok rest (h.elapse hok x.1 x.2)

/-- The confirming write of a ready block starts an erase cycle, which the rest of the write only lets age (R67). -/
theorem WriteReady.confirm {s : State} (h : WriteReady s) (hok : s.params.ChipTimingOK) (hc : s.chip.cs = .e5) :
    Erasing (writeTime s) (writeByte unlockA1 cmdEraseConfirm s).chip := by
  obtain ⟨hpins, hfall, hcs⟩ := h.falls unlockA1 cmdEraseConfirm
  obtain ⟨td, hconfirm, -⟩ := chipDecode_e5_confirm s.params (s.draws + 1) (writeTime s)
  rw [hc, hconfirm] at hcs
  have hlong : writeTime s + s.params.wpChip ≤ (stepW4 (stepW3 (stepW2 (stepW1 unlockA1 cmdEraseConfirm s)))).now := by
    have hwp : wpMin ≤ s.params.wp := h.legal.1
    have hpulse := h.pulse
    simp only [stepW4, stepW3, stepW2, stepW1, writeTime, pinUpdate_now, delay_now, pinUpdate_params, pinUpdate_draws]
    omega
  obtain ⟨l, -, hchip⟩ := ((pulse_rises hpins).1 (hfall ▸ hlong)).chip
  have herasing := Erasing.aged (p := s.params) hok l (.inl ⟨td, _, hcs⟩)
  rw [writeByte, hchip]
  exact herasing

/-- The six writes of a chip erase take an idle chip through its command states into an erase cycle (R64, R67). -/
theorem eraseWrites_start {s : State} (h : WriteReady s) (hok : s.params.ChipTimingOK) (hi : s.chip.cs = .idle) :
    ∃ ts, ts ≤ (writeAll eraseWriteCycles s).now ∧ Erasing ts (writeAll eraseWriteCycles s).chip := by
  obtain ⟨h1, e1⟩ := h.command hi chipDecode_idle_unlock trivial (by simp)
  obtain ⟨h2, e2⟩ := h1.command e1 chipDecode_u1_unlock trivial (by simp)
  obtain ⟨h3, e3⟩ := h2.command e2 chipDecode_u2_eraseSetup trivial (by simp)
  obtain ⟨h4, e4⟩ := h3.command e3 chipDecode_e3_unlock trivial (by simp)
  obtain ⟨h5, e5⟩ := h4.command e4 chipDecode_e4_unlock trivial (by simp)
  have htime := (writeByte_now unlockA1 cmdEraseConfirm
    (writeAll (cmdBytes cmdEraseSetup ++ [(unlockA1, unlockD1), (unlockA2, unlockD2)]) s)).1
  exact ⟨_, (Nat.le_add_right _ _).trans ((Nat.le_add_right _ _).trans htime), h5.confirm hok e5⟩

/-- A chip erase of an idle chip ends with the chip idle and every cell erased (R67, R163). -/
theorem eraseChip_erases {s : State} (h : s.pins = capturedPins) (hp : s.params.Legal) (hok : s.params.ChipTimingOK)
    (hi : s.chip.cs = .idle) : (eraseChip s).chip.cs = .idle ∧ (eraseChip s).chip.flash = [] := by
  obtain ⟨hready, hidle⟩ := writeReady_setBusOut h hp hok hi
  obtain ⟨ts, hts, herasing⟩ := eraseWrites_start hready hok hidle
  have hpins := writeAll_sWidle eraseWriteCycles hready.pins
  have hparams : (writeAll eraseWriteCycles (setBusOut s)).params = s.params := (writeAll_context _ (setBusOut s)).params
  have hwait : ts + s.params.ecChip ≤ (writeAll eraseWriteCycles (setBusOut s)).now + (s.params.eraseWait +
      s.params.slack (writeAll eraseWriteCycles (setBusOut s)).draws) := by
    have hmin : eraseWaitMin ≤ s.params.eraseWait := hp.2.2.2.2.1
    have hec : s.params.ecChip ≤ eraseWaitMin := hok.2.2.2
    omega
  have hends : (delay .erase s.params.eraseWait (writeAll eraseWriteCycles (setBusOut s))).chip.cs = .idle ∧
      (delay .erase s.params.eraseWait (writeAll eraseWriteCycles (setBusOut s))).chip.flash = [] := by
    rw [delay_chip, hparams]
    exact herasing.ends hok hwait _
  rw [eraseChip_sequence, writeSequence, setBusRel_chip hpins hends.1]
  exact hends

/-- The cells of an idle chip that lists none hold ERASED_BYTE (R70). -/
theorem cell_erased {t : State} (hi : t.chip.cs = .idle) (hf : t.chip.flash = []) (a : Nat) : cell t a = t.params.erasedByte := by
  rw [cell_idle hi, hf]
  rfl

/-- Settles O23: the erase of an idle chip leaves no cell listed. -/
theorem eraseErasesEveryCell : Obligations.EraseErasesEveryCell := by
  unfold Obligations.EraseErasesEveryCell
  intro s h hp hok hi
  obtain ⟨hidle, hflash⟩ := eraseChip_erases (s := begin s) h.2 hp hok hi
  refine ⟨_, exec_erase_ctrl h.1, hidle, fun a => ?_⟩
  rw [cell_erased (t := operate eraseChip s) hidle hflash, operate_params, (eraseChip_context (begin s)).params]
  rfl

/-- A chip erase in the window ends with the chip idle and every cell erased (R193). -/
theorem cmde_erases {s : State} (h : Free s) (hp : s.params.Legal) (hok : s.params.ChipTimingOK) (hi : s.chip.cs = .idle) :
    (inWindow eraseChip s).chip.cs = .idle ∧ (inWindow eraseChip s).chip.flash = [] := by
  have hcaptured : (captureBus s).chip.cs = .idle := captureBus_chip_idle h hi ▸ hi
  obtain ⟨hidle, hflash⟩ := eraseChip_erases (captureBus_pins s) hp hok hcaptured
  rw [inWindow, releaseBus_chip_idle (eraseChip_pins (captureBus_pins s)) hidle]
  exact ⟨hidle, hflash⟩

/-- Settles O30: in the window the bus shows the erase, the window keeps what the erase keeps, and no cell is left listed. -/
theorem cmdeErasesTheChip : Obligations.CmdeErasesTheChip := by
  unfold Obligations.CmdeErasesTheChip
  intro s h
  obtain ⟨e, -, htrace, hwrites, hreads, -⟩ := eraseChip_emits (captureBus_pins (begin s))
  obtain ⟨e', htrace', hwrites', hreads'⟩ := inWindow_emits (s := begin s) h htrace
  have hkeeps := inWindow_keepsSurroundings eraseChip_context (begin s)
  have hparams : (operate (inWindow eraseChip) s).params = s.params := by
    obtain ⟨-, -, -, -, hparams, -⟩ := hkeeps
    exact (operate_params _ s).trans hparams
  refine ⟨_, e', exec_cmde_ext h.1, htrace', ?_, hreads'.trans hreads, operate_inWindow_free _ s, ⟨rfl, rfl⟩,
    operate_keepsSurroundings hkeeps,
    (operate_pbuf _ s).trans (inWindow_pbuf eraseChip_context (begin s)),
    ((operate_smp _ s).trans (inWindow_smp _ _)).trans (eraseChip_smp _),
    ((operate_rsp _ s).trans (inWindow_rsp _ _)).trans (eraseChip_rsp _), fun hp hok hi => ?_⟩
  · exact (congrArg (List.map Prod.snd) hwrites').trans hwrites
  · obtain ⟨hidle, hflash⟩ := cmde_erases (s := begin s) h hp hok hi
    exact ⟨hidle, fun a => hparams ▸ cell_erased (t := operate (inWindow eraseChip) s) hidle hflash a⟩

/-! ### A page write with an unaligned base (R55, R65, R69, R162) -/

/-- As long as the offset does not run over, the addresses from a base on lie in its page. -/
theorem pageOf_addrAt_same {base : Addr} {i : Nat} (hi : base.toNat % 128 + i < 128) :
    pageOf (addrAt base i) = pageOf base := by
  refine BitVec.eq_of_toNat_eq ?_
  rw [pageOf_toNat, pageOf_toNat, addrAt_toNat, pageSize]
  omega

/-- Where the offset runs over, another page begins, at the top of the memory the first one. -/
theorem pageOf_addrAt_next {base : Addr} {i : Nat} (hi : base.toNat % 128 + i = 128) :
    pageOf base ≠ pageOf (addrAt base i) := by
  intro heq
  have hpages := congrArg BitVec.toNat heq
  rw [pageOf_toNat, pageOf_toNat, addrAt_toNat, pageSize] at hpages
  omega

/-- The next write of a ready block falls within the load window (R65, R167). -/
theorem WriteReady.inTime {s : State} (h : WriteReady s) {pg : Option PageIdx} {lb : PageLatch} {tl : Nat}
    (hc : s.chip.cs = .load pg lb tl) : writeTime s ≤ tl + loadGapMax := by
  have hcalm := h.calm
  simp only [Calm, hc] at hcalm
  have hgap : s.params.wp + s.params.wrRec + 5 * s.params.stepMax ≤ loadGapMax := h.legal.2.2.2.2.2.1
  have htime := (writeTime_bounds s).2
  omega

/-- A load is taken where no page is fixed yet, or its own is. -/
theorem WriteReady.load {s : State} (h : WriteReady s) {pg : Option PageIdx} {lb : PageLatch} {tl : Nat}
    (hc : s.chip.cs = .load pg lb tl) {a : Addr} (hpg : pg = none ∨ pg = some (pageOf a)) (d : Byte) :
    WriteReady (writeByte a d s) ∧ ∃ lb', (writeByte a d s).chip.cs = .load (some (pageOf a)) lb' (writeTime s) := by
  have htime := h.inTime hc
  have hdecode : ∃ lb', chipDecode s.params (s.draws + 1) a d (writeTime s) s.chip.cs =
      .load (some (pageOf a)) lb' (writeTime s) := by
    rw [hc, chipDecode_load]
    rcases hpg with rfl | rfl
    · exact ⟨_, chipLoad_first htime lb a d⟩
    · exact ⟨_, chipLoad_samePage htime lb a d⟩
  obtain ⟨lb', hd⟩ := hdecode
  obtain ⟨hready, hcs⟩ := h.write hd (Nat.zero_le _) fun _ _ _ he => by cases he; rfl
  exact ⟨hready, lb', hcs⟩

/-- A load to another page than the one fixed takes the chip's meaning (R65, R69). -/
theorem WriteReady.load_otherPage {s : State} (h : WriteReady s) {q : PageIdx} {lb : PageLatch} {tl : Nat}
    (hc : s.chip.cs = .load (some q) lb tl) {a : Addr} (hq : q ≠ pageOf a) (d : Byte) : Lost (writeByte a d s) := by
  obtain ⟨-, -, hcs⟩ := h.falls a d
  rw [hc, chipDecode_load, chipLoad_otherPage hq] at hcs
  exact writeByte_lost hcs

/-- As long as the offset does not run over, the loads keep the window open, at the page of the base from the first one on. -/
theorem loads_samePage {base : Addr} {buf : Vector Byte 128} {s : State} (h : WriteReady s) {tl : Nat}
    (hc : s.chip.cs = .load none PageLatch.empty tl) : ∀ k, base.toNat % 128 + k ≤ 128 →
    WriteReady (writeAll (pageLoads base buf k) s) ∧
      ∃ lb tl', (writeAll (pageLoads base buf k) s).chip.cs = .load (if k = 0 then none else some (pageOf base)) lb tl'
  | 0, _ => ⟨h, _, tl, hc⟩
  | k + 1, hk => by
    obtain ⟨hready, lb, tl', hcs⟩ := loads_samePage (base := base) (buf := buf) h hc k (by omega)
    have hpage : pageOf (addrAt base k) = pageOf base := pageOf_addrAt_same (by omega)
    obtain ⟨hnext, lb', hload⟩ := hready.load hcs (a := addrAt base k) (by rw [hpage]; split <;> simp) (bufByte buf k)
    rw [pageLoads_succ, writeAll_append, if_neg (Nat.succ_ne_zero k), ← hpage]
    exact ⟨hnext, lb', _, hload⟩

/-- The loads of a page are those up to an index, its own, and the rest. -/
theorem pageLoads_split (base : Addr) (buf : Vector Byte 128) {k : Nat} (hk : k < 128) :
    ∃ rest, pageLoads base buf 128 = pageLoads base buf k ++ (addrAt base k, bufByte buf k) :: rest := by
  obtain ⟨m, hm⟩ := Nat.exists_eq_add_of_lt hk
  refine ⟨((List.range m).map fun i => k + (i + 1)).map fun i => (addrAt base i, bufByte buf i), ?_⟩
  rw [hm, pageLoads, Nat.add_assoc, List.range_add, List.map_append, List.range_succ_eq_map, List.map_cons, List.map_map]
  rfl

/-- The 128 loads from an unaligned base run into another page, which takes the chip's meaning (R55, R69). -/
theorem loads_unaligned_lost {base : Addr} (buf : Vector Byte 128) {s : State} (h : WriteReady s) {tl : Nat}
    (hc : s.chip.cs = .load none PageLatch.empty tl) (hb : base.toNat % 128 ≠ 0) :
    Lost (writeAll (pageLoads base buf 128) s) := by
  obtain ⟨k, hk⟩ : ∃ k, base.toNat % 128 + k = 128 := ⟨128 - base.toNat % 128, by omega⟩
  obtain ⟨hready, lb, tl', hcs⟩ := loads_samePage (base := base) (buf := buf) h hc k hk.le
  obtain ⟨rest, hsplit⟩ := pageLoads_split base buf (k := k) (by omega)
  rw [if_neg (by omega)] at hcs
  rw [hsplit, writeAll_append]
  exact writeAll_stays_lost rest (hready.load_otherPage hcs (pageOf_addrAt_next hk) _)

/-- The command sequence of a page write opens the load window (R64). -/
theorem WriteReady.opens {s : State} (h : WriteReady s) (hi : s.chip.cs = .idle) :
    WriteReady (writeAll (cmdBytes cmdPageLoad) s) ∧
      ∃ tl, (writeAll (cmdBytes cmdPageLoad) s).chip.cs = .load none PageLatch.empty tl := by
  obtain ⟨tl, hcs, -, hcalm⟩ := load_open h.pins h.legal h.pulse hi
  exact ⟨h.writes _ hcalm, tl, hcs⟩

theorem pageWriteCycles_eq (base : Addr) (buf : Vector Byte 128) :
    pageWriteCycles base buf = cmdBytes cmdPageLoad ++ pageLoads base buf 128 := rfl

/-- The wait of a sequence and the release of the ports leave a chip without meaning so (R69). -/
theorem setBusRel_lost {u : State} (h : PinState.sWidle.holds u.pins = true) (hl : Lost u) (kind : DelayKind) (T : Nat) :
    Lost (setBusRel (delay kind T u)) := by
  have hwe : u.pins.we = .high := by
    obtain ⟨a, d, hq⟩ := (sWidle_iff _).mp h
    rw [hq]
    rfl
  exact pinUpdate_lost hwe hwe (delay_lost kind T hl.1).1

/-- A page write with an unaligned base takes the meaning of an idle chip (R55, R69, R162). -/
theorem writePage_unaligned_lost {s : State} {base : Addr} (h : s.pins = capturedPins) (hp : s.params.Legal)
    (hok : s.params.ChipTimingOK) (hi : s.chip.cs = .idle) (hb : base.toNat % 128 ≠ 0) : Lost (writePage base s) := by
  obtain ⟨hready, hidle⟩ := writeReady_setBusOut h hp hok hi
  obtain ⟨hopen, tl, hcs⟩ := hready.opens hidle
  have hpins := writeAll_sWidle (pageLoads base s.pbuf 128) hopen.pins
  rw [writePage_sequence, writeSequence, pageWriteCycles_eq, writeAll_append]
  exact setBusRel_lost hpins (loads_unaligned_lost s.pbuf hopen hcs hb) .program _

/-- Settles O20: the page write takes the meaning of the chip, and marks it once. -/
theorem unalignedWrpageHasNoChipMeaning : Obligations.UnalignedWrpageHasNoChipMeaning := by
  unfold Obligations.UnalignedWrpageHasNoChipMeaning
  intro s base h hp hok hi hb
  obtain ⟨hcs, k, hflash⟩ := writePage_unaligned_lost (s := begin s) h.2 hp hok hi hb
  have hcontext := writePage_context base (begin s)
  have hmarks := hcontext.marked.marks
  rw [MarksTellMeaning, hcs, begin_chip, hi] at hmarks
  rw [hcontext.params] at hflash
  exact ⟨_, exec_wrpage_ctrl h.1 base, hcs, ⟨k, hflash⟩, hmarks, operate_writePage_held h base, ⟨rfl, rfl⟩⟩

end Sys2Proof.Machine
end
